-- ==== Sys2Proof/Word.lean ====
section
/-! DEFINITION. The word types of the spec (`00_scope.md` R11): `u8`, `u32` and `u64`. -/

namespace Sys2Proof

/-- `u8` of `00_scope.md` R11. -/
abbrev Byte := BitVec 8

/-- `u32` of `00_scope.md` R11: an interface register, a buffer-memory address, a length, an AES schedule word. -/
abbrev Word := BitVec 32

/-- `u64` of `00_scope.md` R11: a stored DES subkey, a DES block. -/
abbrev DWord := BitVec 64

end Sys2Proof
end

