-- ==== Sys2Proof/Syntax.lean ====
section
/-! DEFINITION. The ten commands (`30_encoding.md` R97), one constructor per row of the opcode table. -/

namespace Sys2Proof

/-- A command with its slot indices (`30_encoding.md` R93, R94, R97). The indices are unsigned; `Instr.wf` says that
they fit their four-bit fields. -/
inductive Instr where
  | aeskey (cid : Nat)
  | deskey (cid : Nat)
  | tdeskey (cid : Nat)
  | blksize (cid : Nat)
  | enc (cid : Nat)
  | dec (cid : Nat)
  /-- `CTRNEW s<sid>, c<cid>`: the stream comes first, as the destination (`30_encoding.md` R102). -/
  | ctrnew (sid cid : Nat)
  | ctrxor (sid : Nat)
  | cdrop (cid : Nat)
  | sdrop (sid : Nat)
  deriving DecidableEq, Repr

end Sys2Proof
end

