-- ==== Sys2Proof/WellFormed.lean ====
section
/-! DEFINITION. Which commands a command word can hold (`30_encoding.md` R91, R93, R94). -/

namespace Sys2Proof

/-- Every slot index fits its four-bit field: `CID` is `W[11:8]`, `SID` is `W[15:12]` (`30_encoding.md` R91). The
comparison with `N_CIPHER` and `N_STREAM` is not made here but at execution (R93, R94). -/
def Instr.wf : Instr → Bool
  | .aeskey cid => decide (cid < 16)
  | .deskey cid => decide (cid < 16)
  | .tdeskey cid => decide (cid < 16)
  | .blksize cid => decide (cid < 16)
  | .enc cid => decide (cid < 16)
  | .dec cid => decide (cid < 16)
  | .ctrnew sid cid => decide (sid < 16) && decide (cid < 16)
  | .ctrxor sid => decide (sid < 16)
  | .cdrop cid => decide (cid < 16)
  | .sdrop sid => decide (sid < 16)

end Sys2Proof
end

