-- ==== Sys2Proof/Decode.lean ====
section
/-! DEFINITION. The command decoder and encoder (`30_encoding.md` R91 to R100). Both are pure functions of the word;
decoding reads no state (R98). -/

namespace Sys2Proof

/-- Why a word is `Illegal`: cases (a) to (d) of `30_encoding.md` R99. All of them raise the one error
`Fatal(InvalidOpcode)`, so the name is for the reader only (log 14). -/
inductive Illegal where
  /-- (a): `OPC` is 0x00 or is 0x0B or more. -/
  | reservedOpcode
  /-- (b): `RSV` is not 0. -/
  | reservedBits
  /-- (c): `SID` is not 0 in a command that names no stream slot. -/
  | sidNotZero
  /-- (d): `CID` is not 0 in a command that names no cipher slot. -/
  | cidNotZero
  deriving DecidableEq, Repr

/-- `OPC` = `W[7:0]` (`30_encoding.md` R92). -/
def opcOf (w : Word) : Nat := w.toNat % 256

/-- `CID` = `W[11:8]` (`30_encoding.md` R93). -/
def cidOf (w : Word) : Nat := w.toNat / 256 % 16

/-- `SID` = `W[15:12]` (`30_encoding.md` R94). -/
def sidOf (w : Word) : Nat := w.toNat / 4096 % 16

/-- `RSV` = `W[31:16]` (`30_encoding.md` R95). -/
def rsvOf (w : Word) : Nat := w.toNat / 65536

/-- A command that names a cipher slot only: `SID` must be 0 (`30_encoding.md` R94, R99 (c)). -/
def decodeCipher (mk : Nat → Instr) (w : Word) : Except Illegal Instr :=
  if sidOf w ≠ 0 then .error .sidNotZero else .ok (mk (cidOf w))

/-- A command that names a stream slot only: `CID` must be 0 (`30_encoding.md` R93, R99 (d)). -/
def decodeStream (mk : Nat → Instr) (w : Word) : Except Illegal Instr :=
  if cidOf w ≠ 0 then .error .cidNotZero else .ok (mk (sidOf w))

/-- `Decode(W)` of `30_encoding.md` R98: one of the ten commands with its index fields, or illegal (R99). -/
def decode (w : Word) : Except Illegal Instr :=
  if rsvOf w ≠ 0 then .error .reservedBits
  else
    match opcOf w with
    | 1 => decodeCipher .aeskey w
    | 2 => decodeCipher .deskey w
    | 3 => decodeCipher .tdeskey w
    | 4 => decodeCipher .blksize w
    | 5 => decodeCipher .enc w
    | 6 => decodeCipher .dec w
    | 7 => .ok (.ctrnew (sidOf w) (cidOf w))
    | 8 => decodeStream .ctrxor w
    | 9 => decodeCipher .cdrop w
    | 10 => decodeStream .sdrop w
    | _ => .error .reservedOpcode

/-- The word with the fields `OPC`, `CID`, `SID` and `RSV` = 0: `OPC | CID << 8 | SID << 12`
(`30_encoding.md` R91, R102). -/
def commandWord (opc cid sid : Nat) : Word := BitVec.ofNat 32 (opc + 256 * cid + 4096 * sid)

/-- The `OPC` column of `30_encoding.md` R97. -/
def Instr.opc : Instr → Nat
  | .aeskey _ => 1
  | .deskey _ => 2
  | .tdeskey _ => 3
  | .blksize _ => 4
  | .enc _ => 5
  | .dec _ => 6
  | .ctrnew _ _ => 7
  | .ctrxor _ => 8
  | .cdrop _ => 9
  | .sdrop _ => 10

/-- The command word of a well-formed command (`30_encoding.md` R97, R102): a field the command does not use is 0. -/
def encode (i : Instr) : Word :=
  match i with
  | .aeskey cid => commandWord i.opc cid 0
  | .deskey cid => commandWord i.opc cid 0
  | .tdeskey cid => commandWord i.opc cid 0
  | .blksize cid => commandWord i.opc cid 0
  | .enc cid => commandWord i.opc cid 0
  | .dec cid => commandWord i.opc cid 0
  | .ctrnew sid cid => commandWord i.opc cid sid
  | .ctrxor sid => commandWord i.opc 0 sid
  | .cdrop cid => commandWord i.opc cid 0
  | .sdrop sid => commandWord i.opc 0 sid

/-- The command word made of the low `nbits` bits of `w`, bits numbered as the opcode table numbers them; every command
is one 32-bit word (`30_encoding.md` R91). -/
def tableWord (nbits w : Nat) : Word := BitVec.ofNat 32 (w % 2 ^ nbits)

/-- What the decoder reads from an instruction of the opcode table: none where it refuses the word or where the row is
longer than the one 32-bit word every command has (`30_encoding.md` R91). -/
def decodeTableWord (nbits w : Nat) : Option Instr :=
  if 32 < nbits then none
  else
    match decode (tableWord nbits w) with
    | .ok i => some i
    | .error _ => none

end Sys2Proof
end

