-- ==== Sys2Proof/Machine/Bytes.lean ====
section
/-! DEFINITION. Byte sequences, big-endian packing and DES bit positions (`00_scope.md` R11 to R13). -/

namespace Sys2Proof.Machine

/-- `B[i]` of `00_scope.md` R13. A byte sequence the rules index is always long enough; the value past its end is never
used by a command (log 16). -/
def byteAt (bs : List Byte) (i : Nat) : Byte := bs.getD i 0

/-- `be32` of `00_scope.md` R13: the first byte is the most significant. -/
def be32 (b0 b1 b2 b3 : Byte) : Word := b0 ++ b1 ++ b2 ++ b3

/-- `byte_k(w)` of `00_scope.md` R13: `byte_0` is the most significant byte. -/
def byteOf (w : Word) (k : Nat) : Byte := w.extractLsb' (24 - 8 * k) 8

/-- The word `be32(B[i], B[i+1], B[i+2], B[i+3])` of a byte sequence (`41_aes_keyschedule.md` R147, `42_aes_rounds.md` R180). -/
def wordAt (bs : List Byte) (i : Nat) : Word :=
  be32 (byteAt bs i) (byteAt bs (i + 1)) (byteAt bs (i + 2)) (byteAt bs (i + 3))

/-- The four bytes of a word, most significant first. -/
def wordBytes (w : Word) : List Byte := [byteOf w 0, byteOf w 1, byteOf w 2, byteOf w 3]

/-- `be64` of `00_scope.md` R13 on an 8-byte sequence. -/
def be64 (bs : List Byte) : DWord := wordAt bs 0 ++ wordAt bs 4

/-- The 8 bytes of a 64-bit value, most significant first: `out[i] = (W >> (56 - 8i)) & 0xFF` (`44_des_feistel.md` R250). -/
def bytes64 (w : DWord) : List Byte := (List.range 8).map fun i => w.extractLsb' (56 - 8 * i) 8

/-- `dbit(v, n, k) = (v >> (n - k)) & 1`: position 1 is the most significant bit (`00_scope.md` R12). -/
def dbit {n : Nat} (v : BitVec n) (k : Nat) : Bool := v.toNat.testBit (n - k)

/-- `perm(v, n, T)` of `00_scope.md` R12: the value whose position `j`, most significant first, is `dbit(v, n, T[j])`.
`m` is the length of `T`. -/
def perm (m : Nat) {n : Nat} (v : BitVec n) (table : List Nat) : BitVec m :=
  BitVec.ofNat m (table.foldl (fun acc k => 2 * acc + (dbit v k).toNat) 0)

end Sys2Proof.Machine
end

