-- ==== Sys2Proof/Machine/Gf256.lean ====
section
/-! DEFINITION. The GF(2^8) multiplier (`40_gf256.md`). Addition is exclusive or (R121). -/

namespace Sys2Proof.Machine

/-- `XTime(a)`: multiplication by `x` modulo `x^8 + x^4 + x^3 + x + 1` (`40_gf256.md` R120, R122). -/
def xtime (a : Byte) : Byte := if a.msb then (a <<< 1) ^^^ 0x1B else a <<< 1

/-- The shift-and-add steps of `GMul`, `k` of them still to do, `p` the sum so far (`40_gf256.md` R123). -/
def gmulSteps : (k : Nat) → (a b p : Byte) → Byte
  | 0, _, _, p => p
  | k + 1, a, b, p => gmulSteps k (xtime a) (b >>> 1) (if b.getLsbD 0 then p ^^^ a else p)

/-- `GMul(a, b)`: eight shift-and-add steps (`40_gf256.md` R123). -/
def gmul (a b : Byte) : Byte := gmulSteps 8 a b 0

end Sys2Proof.Machine
end

