-- ==== Sys2Proof/Config.lean ====
section
/-! DEFINITION. What is fixed for the machine (`00_scope.md` R9, R10), and the free values of the spec. -/

namespace Sys2Proof.Config

/-- The number of buffer-memory addresses, `2^AW` with `AW` = 32 (`00_scope.md` R10, `20_memory.md` R60). -/
abbrev memSize : Nat := 4294967296

/-- `BS_AES` (`00_scope.md` R9). -/
abbrev bsAes : Nat := 16

/-- `BS_DES`, the block size of DES and Triple-DES (`00_scope.md` R9). -/
abbrev bsDes : Nat := 8

/-- `KSBUF`, the capacity in bytes of a keystream buffer (`00_scope.md` R10, `47_ctr.md` R344). -/
abbrev ksbuf : Nat := 512

/-- The largest number of slots of either kind (`00_scope.md` R10). -/
abbrev maxSlots : Nat := 16

/-- The default of `N_CIPHER` (`00_scope.md` R10). The parameter itself is the number of slots of a state (log 1). -/
abbrev nCipherDefault : Nat := 4

/-- The default of `N_STREAM` (`00_scope.md` R10). The parameter itself is the number of slots of a state (log 1). -/
abbrev nStreamDefault : Nat := 2

/-- Free value, no body: whether byte number `i` of the destination extent of a command cut short by its `n`-th
reset holds its new value (`70_reset_and_hazards.md` R443, `93_implementation_defined.md` U8; log 7). -/
opaque tornByte : (n i : Nat) → Bool

end Sys2Proof.Config
end

