-- ==== Sys2Proof/Machine/State.lean ====
section
/-! DEFINITION. The state of the engine (`10_state.md`), its buffer memory, and the host's accesses to come. Plain
data throughout. -/

namespace Sys2Proof.Machine

/-- The reasons a step can stop with a fault: none. Every error of the engine is recorded in `STATUS` and is a next
state (`60_exceptions.md` R400), there is no memory access fault (`20_memory.md` R71), and no step raises anything else. -/
inductive Fault where
  deriving DecidableEq, Repr

/-- The width of a register access (`10_state.md` R31 defines only the 32-bit one). -/
inductive AccessWidth where
  | w8
  | w16
  | w32
  | w64
  deriving DecidableEq, Repr

/-- The reasons a step has no meaning. -/
inductive Refusal where
  /-- Raised by `exec` for a command that has no meaning yet; no command is left so. Safe. -/
  | notModelled (mnemonic : String)
  /-- Raised by a register access that is not an aligned 32-bit access to one of the eight offsets
  (`10_state.md` R31, `93_implementation_defined.md` U6; log 6). Safe: the model stops where the spec gives no effect. -/
  | undefinedRegisterAccess (offset : Nat) (width : AccessWidth)
  deriving DecidableEq, Repr

/-- The eight values of `STATUS.CODE` (`10_state.md` R28, `60_exceptions.md` R402). -/
inductive Code where
  | ok
  | invalidKeySize
  | invalidIVLength
  | bufferTooSmall
  | invalidOpcode
  | invalidContext
  | addressRange
  | bufferOverlap
  deriving DecidableEq, Repr

/-- The fields of `STATUS` (`10_state.md` R28). The reserved bits have no storage and read as 0. -/
structure Status where
  code : Code
  fatal : Bool
  short : Bool
  deriving DecidableEq, Repr

/-- What a cipher context slot holds when its kind is not `EMPTY` (`10_state.md` R32): one constructor per kind. -/
inductive Cipher where
  /-- `10_state.md` R33: `nk` and the forward and inverse schedules. -/
  | aes (nk : Nat) (ek dk : List Word)
  /-- `10_state.md` R34: the sixteen subkeys. -/
  | des (ks : List DWord)
  /-- `10_state.md` R35: three subkey schedules. -/
  | tdes (ks1 ks2 ks3 : List DWord)
  deriving DecidableEq, Repr

/-- What a stream context slot with `valid` = 1 holds (`10_state.md` R37). `out` lists `out[0 .. fill-1]` only: the
bytes from `fill` on hold no value (R38), so `fill` is the length of the list (log 8). -/
structure Stream where
  cid : Nat
  bs : Nat
  ctr : List Byte
  out : List Byte
  used : Nat
  deriving DecidableEq, Repr

/-- Buffer memory `MEM` (`20_memory.md` R60): the listed bytes, addresses strictly rising; an unlisted byte reads as
`unlistedByte`. -/
abbrev Memory := List Host.Cell

/-- The eight interface registers (`10_state.md` R23). -/
inductive Reg where
  | cmd
  | argDst
  | argDlen
  | argSrc
  | argSlen
  | status
  | result
  | cap
  deriving DecidableEq, Repr

/-- One act of the environment between commands: the host's register and memory accesses (`10_state.md` R23, R31,
R39) and the platform's reset (`70_reset_and_hazards.md` R440, R443). -/
inductive HostAccess where
  /-- A write of `value` to the register block (`10_state.md` R31); a write to `CMD` issues a command. -/
  | regWrite (offset : Nat) (width : AccessWidth) (value : Word)
  /-- A read of the register block (`10_state.md` R31). -/
  | regRead (offset : Nat) (width : AccessWidth)
  /-- The host writes one byte of buffer memory, which it owns (`10_state.md` R39). -/
  | memWrite (addr : Word) (value : Byte)
  /-- The host reads one byte of buffer memory (`20_memory.md` R73 (b)). -/
  | memRead (addr : Word)
  /-- The platform resets the engine between two commands (`70_reset_and_hazards.md` R440, R441). -/
  | reset
  /-- The platform resets the engine while the command `command`, just written to `CMD`, executes
  (`70_reset_and_hazards.md` R443). -/
  | resetDuring (command : Word)
  deriving DecidableEq, Repr

/-- What one read of the host returned. -/
inductive Observation where
  | reg (offset : Nat) (value : Word)
  | mem (addr : Word) (value : Byte)
  deriving DecidableEq, Repr

/-- The whole state. `N_CIPHER` and `N_STREAM` are the lengths of `ciphers` and `streams` (log 1); `none` is an `EMPTY`
or invalid slot, whose other fields hold no value (`10_state.md` R38). `inputs`, `observed` and `freeCount` are the
model's own (logs 2, 5, 7). -/
structure State where
  /-- `ARG_DST` (`10_state.md` R24). -/
  argDst : Word
  /-- `ARG_DLEN` (`10_state.md` R25). -/
  argDlen : Word
  /-- `ARG_SRC` (`10_state.md` R26). -/
  argSrc : Word
  /-- `ARG_SLEN` (`10_state.md` R27). -/
  argSlen : Word
  /-- `STATUS` (`10_state.md` R28). -/
  status : Status
  /-- `RESULT` (`10_state.md` R29). -/
  result : Word
  /-- The cipher context slots (`10_state.md` R32). -/
  ciphers : List (Option Cipher)
  /-- The stream context slots (`10_state.md` R37). -/
  streams : List (Option Stream)
  /-- Buffer memory (`10_state.md` R39). -/
  mem : Memory
  /-- The environment's acts to come, oldest first (log 2). -/
  inputs : List HostAccess
  /-- What the host's reads returned, newest first (log 5). -/
  observed : List Observation
  /-- How many times free values have been drawn (log 7). -/
  freeCount : Nat
  deriving DecidableEq, Repr

/-- The machine right after reset (`10_state.md` R44), with the default parameters (`00_scope.md` R10), nothing listed in
memory and no access to come. -/
def State.reset : State where
  argDst := 0
  argDlen := 0
  argSrc := 0
  argSlen := 0
  status := { code := .ok, fatal := false, short := false }
  result := 0
  ciphers := List.replicate Config.nCipherDefault none
  streams := List.replicate Config.nStreamDefault none
  mem := []
  inputs := []
  observed := []
  freeCount := 0

end Sys2Proof.Machine
end

