-- ==== Sys2Proof/Machine/AesKeySchedule.lean ====
section
/-! DEFINITION. The AES word functions and the key-schedule expander (`41_aes_keyschedule.md` R144 to R153). -/

namespace Sys2Proof.Machine

/-- `SubWord(w)` (`41_aes_keyschedule.md` R144). -/
def subWord (w : Word) : Word :=
  be32 (sbox (byteOf w 0)) (sbox (byteOf w 1)) (sbox (byteOf w 2)) (sbox (byteOf w 3))

/-- `RotWord(w)`: rotated left by one byte (`41_aes_keyschedule.md` R145). -/
def rotWord (w : Word) : Word := w.rotateLeft 8

/-- `MixWord(w)`: MixColumns on one column, row 0 in the top byte (`41_aes_keyschedule.md` R146). -/
def mixWord (w : Word) : Word :=
  let a0 := byteOf w 0
  let a1 := byteOf w 1
  let a2 := byteOf w 2
  let a3 := byteOf w 3
  be32 (gmul a0 2 ^^^ gmul a1 3 ^^^ a2 ^^^ a3)
    (a0 ^^^ gmul a1 2 ^^^ gmul a2 3 ^^^ a3)
    (a0 ^^^ a1 ^^^ gmul a2 2 ^^^ gmul a3 3)
    (gmul a0 3 ^^^ a1 ^^^ a2 ^^^ gmul a3 2)

/-- `InvMixWord(w)`: inverse MixColumns on one column (`41_aes_keyschedule.md` R146). -/
def invMixWord (w : Word) : Word :=
  let a0 := byteOf w 0
  let a1 := byteOf w 1
  let a2 := byteOf w 2
  let a3 := byteOf w 3
  be32 (gmul a0 14 ^^^ gmul a1 11 ^^^ gmul a2 13 ^^^ gmul a3 9)
    (gmul a0 9 ^^^ gmul a1 14 ^^^ gmul a2 11 ^^^ gmul a3 13)
    (gmul a0 13 ^^^ gmul a1 9 ^^^ gmul a2 14 ^^^ gmul a3 11)
    (gmul a0 11 ^^^ gmul a1 13 ^^^ gmul a2 9 ^^^ gmul a3 14)

/-- The number of words of a schedule, `4 * (Nk + 7)` (`00_scope.md` R9). -/
def scheduleWords (nk : Nat) : Nat := 4 * (nk + 7)

/-- Word `i` of a schedule `w` (a list index; the rules never index past the end, log 16). -/
def schedWord (w : List Word) (i : Nat) : Word := w.getD i 0

/-- What `w[i-Nk]` is combined with to give `w[i]`, from `w[i-1]` (`41_aes_keyschedule.md` R150). -/
def expandTemp (nk i : Nat) (prev : Word) : Word :=
  if i % nk = 0 then subWord (rotWord prev) ^^^ ((rcon (i / nk)).setWidth 32 <<< 24)
  else if nk = 8 ∧ i % nk = 4 then subWord prev
  else prev

/-- The loop of `ExpandKey`, `n` words still to make, the next one `w[i]` (`41_aes_keyschedule.md` R150). -/
def expandLoop (nk : Nat) : (n i : Nat) → List Word → List Word
  | 0, _, w => w
  | n + 1, i, w =>
    expandLoop nk n (i + 1)
      (w ++ [schedWord w (i - nk) ^^^ expandTemp nk i (schedWord w (i - 1))])

/-- The first `Nk` words, the key itself (`41_aes_keyschedule.md` R147). -/
def keyWords (nk : Nat) (key : List Byte) : List Word := (List.range nk).map fun i => wordAt key (4 * i)

/-- `ExpandKey(key)` for a key of 16, 24 or 32 bytes (`41_aes_keyschedule.md` R150). -/
def expandKey (key : List Byte) : List Word :=
  let nk := key.length / 4
  expandLoop nk (scheduleWords nk - nk) nk (keyWords nk key)

/-- Word `4j + c` of `InvSchedule(w, Nk)` (`41_aes_keyschedule.md` R152). -/
def invScheduleWord (w : List Word) (nk j c : Nat) : Word :=
  let x := schedWord w (4 * (nk + 6 - j) + c)
  if j = 0 ∨ j = nk + 6 then x else invMixWord x

/-- `InvSchedule(w, Nk)`: the round keys in reverse order, `InvMixWord` of all but the first and the last
(`41_aes_keyschedule.md` R152). -/
def invSchedule (w : List Word) (nk : Nat) : List Word :=
  (List.range (scheduleWords nk)).map fun i => invScheduleWord w nk (i / 4) (i % 4)

/-- The contents of a slot of kind `AES` made from a key (`41_aes_keyschedule.md` R153, R154; `10_state.md` R33). -/
def aesCipher (key : List Byte) : Cipher :=
  .aes (key.length / 4) (expandKey key) (invSchedule (expandKey key) (key.length / 4))

end Sys2Proof.Machine
end

