-- ==== Sys2Proof/Machine/AesRounds.lean ====
section
/-! DEFINITION. The AES round-transform engine (`42_aes_rounds.md` R180 to R198). The state is held as its four columns. -/

namespace Sys2Proof.Machine

/-- The AES state as four columns, row 0 in the top byte of each: `col_c = be32(s[0][c], s[1][c], s[2][c], s[3][c])`
(`42_aes_rounds.md` R180). -/
structure AesState where
  c0 : Word
  c1 : Word
  c2 : Word
  c3 : Word
  deriving DecidableEq, Repr

/-- `LoadState(in)` (`42_aes_rounds.md` R180). -/
def loadState (blk : List Byte) : AesState := ⟨wordAt blk 0, wordAt blk 4, wordAt blk 8, wordAt blk 12⟩

/-- `StoreState(s)` (`42_aes_rounds.md` R180). -/
def storeState (s : AesState) : List Byte :=
  wordBytes s.c0 ++ wordBytes s.c1 ++ wordBytes s.c2 ++ wordBytes s.c3

/-- `AddRoundKey` with round key `j` of the schedule `w`, words `4j .. 4j+3` (`42_aes_rounds.md` R182, `00_scope.md` R17). -/
def addRoundKey (w : List Word) (j : Nat) (s : AesState) : AesState :=
  ⟨s.c0 ^^^ schedWord w (4 * j), s.c1 ^^^ schedWord w (4 * j + 1), s.c2 ^^^ schedWord w (4 * j + 2),
    s.c3 ^^^ schedWord w (4 * j + 3)⟩

/-- `SubBytes(s)` (`42_aes_rounds.md` R184). -/
def subBytes (s : AesState) : AesState := ⟨subWord s.c0, subWord s.c1, subWord s.c2, subWord s.c3⟩

/-- One column after the rows have moved: its four bytes come from four columns (`42_aes_rounds.md` R186, R192). -/
def gatherColumn (r0 r1 r2 r3 : Word) : Word := be32 (byteOf r0 0) (byteOf r1 1) (byteOf r2 2) (byteOf r3 3)

/-- `ShiftRows(s)`: row `r` rotated left by `r` (`42_aes_rounds.md` R186). -/
def shiftRows (s : AesState) : AesState :=
  ⟨gatherColumn s.c0 s.c1 s.c2 s.c3, gatherColumn s.c1 s.c2 s.c3 s.c0, gatherColumn s.c2 s.c3 s.c0 s.c1,
    gatherColumn s.c3 s.c0 s.c1 s.c2⟩

/-- `MixColumns(s)` (`42_aes_rounds.md` R188). -/
def mixColumns (s : AesState) : AesState := ⟨mixWord s.c0, mixWord s.c1, mixWord s.c2, mixWord s.c3⟩

/-- `InvSBox` on each byte of a column. -/
def invSubWord (w : Word) : Word :=
  be32 (invSbox (byteOf w 0)) (invSbox (byteOf w 1)) (invSbox (byteOf w 2)) (invSbox (byteOf w 3))

/-- `InvSubBytes(s)` (`42_aes_rounds.md` R190). -/
def invSubBytes (s : AesState) : AesState := ⟨invSubWord s.c0, invSubWord s.c1, invSubWord s.c2, invSubWord s.c3⟩

/-- `InvShiftRows(s)`: row `r` rotated right by `r` (`42_aes_rounds.md` R192). -/
def invShiftRows (s : AesState) : AesState :=
  ⟨gatherColumn s.c0 s.c3 s.c2 s.c1, gatherColumn s.c1 s.c0 s.c3 s.c2, gatherColumn s.c2 s.c1 s.c0 s.c3,
    gatherColumn s.c3 s.c2 s.c1 s.c0⟩

/-- `InvMixColumns(s)` (`42_aes_rounds.md` R194). -/
def invMixColumns (s : AesState) : AesState :=
  ⟨invMixWord s.c0, invMixWord s.c1, invMixWord s.c2, invMixWord s.c3⟩

/-- Interior round `j` of encryption (`42_aes_rounds.md` R196). -/
def encRound (ek : List Word) (s : AesState) (j : Nat) : AesState :=
  addRoundKey ek j (mixColumns (shiftRows (subBytes s)))

/-- `AesEncryptBlock(nk, ek, in)` with `Nr = nk + 6` rounds (`42_aes_rounds.md` R196). -/
def aesEncryptBlock (nk : Nat) (ek : List Word) (blk : List Byte) : List Byte :=
  let s := addRoundKey ek 0 (loadState blk)
  let s := (List.range' 1 (nk + 5)).foldl (encRound ek) s
  storeState (addRoundKey ek (nk + 6) (shiftRows (subBytes s)))

/-- Interior round `j` of decryption (`42_aes_rounds.md` R198). -/
def decRound (dk : List Word) (s : AesState) (j : Nat) : AesState :=
  addRoundKey dk j (invMixColumns (invShiftRows (invSubBytes s)))

/-- `AesDecryptBlock(nk, dk, in)` with `Nr = nk + 6` rounds (`42_aes_rounds.md` R198). -/
def aesDecryptBlock (nk : Nat) (dk : List Word) (blk : List Byte) : List Byte :=
  let s := addRoundKey dk 0 (loadState blk)
  let s := (List.range' 1 (nk + 5)).foldl (decRound dk) s
  storeState (addRoundKey dk (nk + 6) (invShiftRows (invSubBytes s)))

end Sys2Proof.Machine
end

