-- ==== Sys2Proof/Machine/DesKeySchedule.lean ====
section
/-! DEFINITION. The DES subkey-schedule generator (`43_des_keyschedule.md` R220 to R224). -/

namespace Sys2Proof.Machine

/-- `PC2` of the two halves `C || D` (`43_des_keyschedule.md` R223). -/
def subkeyOf (c d : BitVec 28) : BitVec 48 := perm 48 (c ++ d : BitVec 56) pc2

/-- The rounds of the generator: each rotates the halves the round before left behind and gives one subkey
(`43_des_keyschedule.md` R224, `90_conflicts.md` C4). The subkey is stored as `zext_64(K_i)` (`10_state.md` R34). -/
def subkeyRounds : (rotations : List Nat) → (c d : BitVec 28) → List DWord
  | [], _, _ => []
  | r :: rs, c, d =>
    (subkeyOf (c.rotateLeft r) (d.rotateLeft r)).setWidth 64 :: subkeyRounds rs (c.rotateLeft r) (d.rotateLeft r)

/-- `PC1` of the key (`43_des_keyschedule.md` R220, R221). -/
def permutedKey (key : List Byte) : BitVec 56 := perm 56 (be64 key) pc1

/-- `DesSubkeys(key)` in the stored form `ks[0 .. 15]` (`43_des_keyschedule.md` R224). -/
def desSubkeys (key : List Byte) : List DWord :=
  subkeyRounds rot ((permutedKey key).extractLsb' 28 28) ((permutedKey key).extractLsb' 0 28)

/-- The contents of a slot of kind `DES` made from a key (`43_des_keyschedule.md` R226). -/
def desCipher (key : List Byte) : Cipher := .des (desSubkeys key)

end Sys2Proof.Machine
end

