-- ==== Sys2Proof/Machine/DesFeistel.lean ====
section
/-! DEFINITION. The DES Feistel round unit (`44_des_feistel.md` R250 to R259). -/

namespace Sys2Proof.Machine

/-- One S-box on a six-bit group: the outer bits are the row, the inner four the column (`44_des_feistel.md` R255). -/
def sboxLookup (box : List (List (BitVec 4))) (g : BitVec 6) : BitVec 4 :=
  let row := g.toNat / 32 * 2 + g.toNat % 2
  let col := g.toNat / 2 % 16
  (box.getD row []).getD col 0

/-- The six-bit group `g_j`, `j` = 1 .. 8, group 1 the most significant (`44_des_feistel.md` R255). -/
def group (x : BitVec 48) (j : Nat) : BitVec 6 := x.extractLsb' (48 - 6 * j) 6

/-- `SBoxes(X)`: group `j` through `S_j`, concatenated (`44_des_feistel.md` R255). -/
def sBoxes (x : BitVec 48) : BitVec 32 :=
  sboxLookup s1 (group x 1) ++ sboxLookup s2 (group x 2) ++ sboxLookup s3 (group x 3) ++ sboxLookup s4 (group x 4) ++
    sboxLookup s5 (group x 5) ++ sboxLookup s6 (group x 6) ++ sboxLookup s7 (group x 7) ++ sboxLookup s8 (group x 8)

/-- `DesF(R, K)` (`44_des_feistel.md` R257). -/
def desF (r : BitVec 32) (k : BitVec 48) : BitVec 32 := perm 32 (sBoxes (perm 48 r expansion ^^^ k)) pTable

/-- One Feistel round on the pair `(L, R)` (`44_des_feistel.md` R258). -/
def feistelRound (lr : BitVec 32 × BitVec 32) (k : BitVec 48) : BitVec 32 × BitVec 32 :=
  (lr.2, lr.1 ^^^ desF lr.2 k)

/-- The subkeys in the order of the rounds: reversed for decryption, bits 47:0 of each stored word
(`44_des_feistel.md` R257, R259). -/
def roundKeys (ks : List DWord) (decrypt : Bool) : List (BitVec 48) :=
  (List.range 16).map fun i => (ks.getD (if decrypt then 15 - i else i) 0).setWidth 48

/-- `DesCrypt(ks, in, decrypt)` (`44_des_feistel.md` R259): `R_16 || L_16` goes into the Final Permutation. -/
def desCrypt (ks : List DWord) (blk : List Byte) (decrypt : Bool) : List Byte :=
  let v : DWord := perm 64 (be64 blk) ip
  let lr := (roundKeys ks decrypt).foldl feistelRound (v.extractLsb' 32 32, v.extractLsb' 0 32)
  bytes64 (perm 64 (lr.2 ++ lr.1 : DWord) fp)

end Sys2Proof.Machine
end

