-- ==== Sys2Proof/Machine/Tdes.lean ====
section
/-! DEFINITION. The Triple-DES EDE composer (`45_tdes.md` R290 to R293). -/

namespace Sys2Proof.Machine

/-- `TdesEncryptBlock(ks1, ks2, ks3, in)` (`45_tdes.md` R292). -/
def tdesEncryptBlock (ks1 ks2 ks3 : List DWord) (blk : List Byte) : List Byte :=
  desCrypt ks3 (desCrypt ks2 (desCrypt ks1 blk false) true) false

/-- `TdesDecryptBlock(ks1, ks2, ks3, in)` (`45_tdes.md` R293). -/
def tdesDecryptBlock (ks1 ks2 ks3 : List DWord) (blk : List Byte) : List Byte :=
  desCrypt ks1 (desCrypt ks2 (desCrypt ks3 blk true) false) true

/-- The contents of a slot of kind `TDES` made from a 24-byte key: key bytes 0 to 7, 8 to 15 and 16 to 23
(`45_tdes.md` R290). -/
def tdesCipher (key : List Byte) : Cipher :=
  .tdes (desSubkeys (key.take 8)) (desSubkeys ((key.drop 8).take 8)) (desSubkeys ((key.drop 16).take 8))

end Sys2Proof.Machine
end

