-- ==== Sys2Proof/Machine/Capability.lean ====
section
/-! DEFINITION. The block-cipher capability as dispatch on the kind of a cipher context (`46_block_capability.md` R310). -/

namespace Sys2Proof.Machine

/-- `BlockSizeOf(c)` (`46_block_capability.md` R310). -/
def blockSizeOf : Cipher → Nat
  | .aes _ _ _ => Config.bsAes
  | .des _ => Config.bsDes
  | .tdes _ _ _ => Config.bsDes

/-- `EncryptBlock(c, in)` (`46_block_capability.md` R310). -/
def encryptBlock : Cipher → List Byte → List Byte
  | .aes nk ek _, blk => aesEncryptBlock nk ek blk
  | .des ks, blk => desCrypt ks blk false
  | .tdes ks1 ks2 ks3, blk => tdesEncryptBlock ks1 ks2 ks3 blk

/-- `DecryptBlock(c, in)` (`46_block_capability.md` R310). -/
def decryptBlock : Cipher → List Byte → List Byte
  | .aes nk _ dk, blk => aesDecryptBlock nk dk blk
  | .des ks, blk => desCrypt ks blk true
  | .tdes ks1 ks2 ks3, blk => tdesDecryptBlock ks1 ks2 ks3 blk

end Sys2Proof.Machine
end

