-- ==== Sys2Proof/Machine/Flags.lean ====
section
/-! DEFINITION. The `STATUS` and `CAP` registers as words (`10_state.md` R28, R30) and the classes of the error codes
(`60_exceptions.md` R401, R402). There are no other flags (`10_state.md` R22). -/

namespace Sys2Proof.Machine

/-- The value of `STATUS.CODE` (`10_state.md` R28). -/
def Code.number : Code → Nat
  | .ok => 0
  | .invalidKeySize => 1
  | .invalidIVLength => 2
  | .bufferTooSmall => 3
  | .invalidOpcode => 4
  | .invalidContext => 5
  | .addressRange => 6
  | .bufferOverlap => 7

/-- Which codes are in the fatal class (`60_exceptions.md` R402): the class of an error is fixed by its cause and
depends on no state (R401). -/
def Code.isFatal : Code → Bool
  | .ok => false
  | .invalidKeySize => false
  | .invalidIVLength => false
  | .bufferTooSmall => true
  | .invalidOpcode => true
  | .invalidContext => true
  | .addressRange => true
  | .bufferOverlap => true

/-- `STATUS` as the host reads it: `CODE` in bits 7:0, `FATAL` in bit 8, `SHORT` in bit 9, the rest 0
(`10_state.md` R28). -/
def Status.word (st : Status) : Word :=
  BitVec.ofNat 32 (st.code.number + 256 * st.fatal.toNat + 512 * st.short.toNat)

/-- `N_CIPHER` of the machine `s` is (log 1). -/
def State.nCipher (s : State) : Nat := s.ciphers.length

/-- `N_STREAM` of the machine `s` is (log 1). -/
def State.nStream (s : State) : Nat := s.streams.length

/-- `CAP`: `N_CIPHER` in bits 4:0, `N_STREAM` in bits 12:8, `KSBUF` in bits 31:16 (`10_state.md` R30). -/
def State.capWord (s : State) : Word :=
  BitVec.ofNat 32 (s.nCipher + 256 * s.nStream + 65536 * Config.ksbuf)

end Sys2Proof.Machine
end

