-- ==== Sys2Proof/Machine/Operands.lean ====
section
/-! DEFINITION. The operand forms: descriptors in the `ARG` registers (`20_memory.md` R64 to R66), slot indices
(`30_encoding.md` R93, R94), and the register block's addresses (`10_state.md` R23). -/

namespace Sys2Proof.Machine

/-- Does the extent of `n` bytes at `a` pass the top of memory, `a + n > 2^32`, computed without wrap-around
(`20_memory.md` R64)? -/
def passesTop (a n : Nat) : Bool := decide (Config.memSize < a + n)

/-- Are the `n`-byte regions at `d` and `s` partially overlapping: not identical and not disjoint
(`20_memory.md` R66, `60_exceptions.md` R412)? -/
def overlapsPartly (d s n : Nat) : Bool := decide (n ≠ 0 ∧ d ≠ s ∧ d < s + n ∧ s < d + n)

/-- The address of `dst`, sampled at issue (`20_memory.md` R64). -/
def State.d (s : State) : Nat := s.argDst.toNat

/-- The declared length of `dst`, sampled at issue (`20_memory.md` R64). -/
def State.dl (s : State) : Nat := s.argDlen.toNat

/-- The address of `src`, of the key or of the IV, sampled at issue (`20_memory.md` R64). -/
def State.sa (s : State) : Nat := s.argSrc.toNat

/-- The declared length of `src`, of the key or of the IV, sampled at issue (`20_memory.md` R64). -/
def State.sl (s : State) : Nat := s.argSlen.toNat

/-- The cipher slot a `CID` field names: `none` when the index is out of range, `some none` when the slot is `EMPTY`
(`30_encoding.md` R93). -/
def State.cipher? (s : State) (cid : Nat) : Option (Option Cipher) := s.ciphers[cid]?

/-- The stream slot a `SID` field names: `none` when the index is out of range, `some none` when the slot is invalid
(`30_encoding.md` R94). -/
def State.stream? (s : State) (sid : Nat) : Option (Option Stream) := s.streams[sid]?

/-- `fill` of a stream: the number of bytes of `out` that hold keystream (`10_state.md` R37, log 8). -/
def Stream.fill (st : Stream) : Nat := st.out.length

/-- The register at an offset of the block, none for every other offset (`10_state.md` R23). -/
def regAt : Nat → Option Reg
  | 0x00 => some .cmd
  | 0x04 => some .argDst
  | 0x08 => some .argDlen
  | 0x0C => some .argSrc
  | 0x10 => some .argSlen
  | 0x14 => some .status
  | 0x18 => some .result
  | 0x1C => some .cap
  | _ => none

/-- The offset of a register in the block (`10_state.md` R23). -/
def Reg.offset : Reg → Nat
  | .cmd => 0x00
  | .argDst => 0x04
  | .argDlen => 0x08
  | .argSrc => 0x0C
  | .argSlen => 0x10
  | .status => 0x14
  | .result => 0x18
  | .cap => 0x1C

/-- The register a defined access reaches: aligned, 32 bits wide, at one of the eight offsets (`10_state.md` R31). -/
def accessedReg (offset : Nat) (width : AccessWidth) : Option Reg :=
  match width with
  | .w32 => regAt offset
  | .w8 => none
  | .w16 => none
  | .w64 => none

end Sys2Proof.Machine
end

