-- ==== Sys2Proof/Machine/Ops.lean ====
section
/-! DEFINITION. The named operations every command is written with (`00_scope.md` R14): buffer memory, registers,
slots, ending a command with or without an error, and reset. -/

namespace Sys2Proof.Machine

/-! ### Buffer memory -/

/-- What a byte of memory that nothing has written reads as. DESIGN CHOICE, unsafe (log 4): its value at power-up is
unspecified (`93_implementation_defined.md` U5). -/
def unlistedByte (_addr : Nat) : Byte := 0

/-- The canonical form of memory: addresses strictly rising and inside the address space, and no entry equal to what an
unlisted address reads as. -/
abbrev Memory.wf (m : Memory) : Prop :=
  m.Pairwise (fun x y => x.1 < y.1) ∧ ∀ c ∈ m, c.1 < Config.memSize ∧ c.2 ≠ unlistedByte c.1

/-- `MEM[a]` (`20_memory.md` R60). -/
def Memory.read : Memory → Nat → Byte
  | [], a => unlistedByte a
  | (k, v) :: rest, a => if a = k then v else Memory.read rest a

/-- Put the byte `b` at address `a` in front of the entries `rest`, keeping the canonical form. -/
def Memory.push (a : Nat) (b : Byte) (rest : Memory) : Memory :=
  if b = unlistedByte a then rest else (a, b) :: rest

/-- `MEM[a] <- b`, changing no other byte (`20_memory.md` R63). -/
def Memory.write : Memory → Nat → Byte → Memory
  | [], a, b => Memory.push a b []
  | (k, v) :: rest, a, b =>
    if a < k then Memory.push a b ((k, v) :: rest)
    else if a = k then Memory.push a b rest
    else (k, v) :: Memory.write rest a b

/-- `MemRead(a, n)` (`20_memory.md` R62). -/
def memRead (m : Memory) (a n : Nat) : List Byte := (List.range n).map fun i => m.read (a + i)

/-- `MemWrite(a, n, B)` with `n` the length of `B`, lowest address first (`20_memory.md` R63). -/
def memWrite : Memory → Nat → List Byte → Memory
  | m, _, [] => m
  | m, a, b :: bs => memWrite (m.write a b) (a + 1) bs

/-! ### Ending a command: the engine's only exceptional events (`60_exceptions.md` R400) -/

/-- An error ends the command at once: `STATUS.CODE <- code`, `STATUS.SHORT <- short`, and `STATUS.FATAL <- 1` when the
code is in the fatal class; nothing else changes (`60_exceptions.md` R404, R405). -/
def raise (code : Code) (short : Bool) (s : State) : State :=
  { s with status := { code := code, fatal := s.status.fatal || code.isFatal, short := short } }

/-- `complete()`: `STATUS.CODE <- 0`, `STATUS.SHORT <- 0`, `STATUS.FATAL` unchanged (`60_exceptions.md` R403). -/
def complete (s : State) : State :=
  { s with status := { code := .ok, fatal := s.status.fatal, short := false } }

/-- The outcome of a command that ends with `raise Fatal(code)` or `raise Recoverable(code)`, `SHORT` = 0. -/
def fails (code : Code) (s : State) : Host.Outcome State Fault Refusal := .next (raise code false s)

/-- The outcome of a command that ends with `complete()`. -/
def completes (s : State) : Host.Outcome State Fault Refusal := .next (complete s)

/-! ### Context slots -/

/-- `C[cid] <- c`, with `none` for `{ kind = EMPTY }` (`10_state.md` R32). -/
def setCipher (cid : Nat) (c : Option Cipher) (s : State) : State :=
  { s with ciphers := s.ciphers.set cid c }

/-- `S[sid] <- st`, with `none` for `{ valid = 0 }` (`10_state.md` R37). -/
def setStream (sid : Nat) (st : Option Stream) (s : State) : State :=
  { s with streams := s.streams.set sid st }

/-- `DropStreamsOf(cid)`: every valid stream bound to `C[cid]` is made invalid, the others are untouched
(`46_block_capability.md` R320). -/
def dropStreamsOf (cid : Nat) (s : State) : State :=
  { s with streams := s.streams.map fun slot => slot.filter fun st => st.cid != cid }

/-! ### Interface registers -/

/-- What the host reads from a register (`10_state.md` R23, R31): `CMD` reads 0. -/
def readReg (s : State) : Reg → Word
  | .cmd => 0
  | .argDst => s.argDst
  | .argDlen => s.argDlen
  | .argSrc => s.argSrc
  | .argSlen => s.argSlen
  | .status => s.status.word
  | .result => s.result
  | .cap => s.capWord

/-- The host's read of a register returned `v` (log 5). -/
def observe (o : Observation) (s : State) : State := { s with observed := o :: s.observed }

/-! ### Reset -/

/-- The engine state after a reset (`10_state.md` R44, `70_reset_and_hazards.md` R441): registers 0, every cipher slot
`EMPTY`, every stream slot invalid. Buffer memory and the parameters keep their values, and so does the environment's
side (log 15). -/
def resetEngine (s : State) : State :=
  { s with
    argDst := 0
    argDlen := 0
    argSrc := 0
    argSlen := 0
    status := { code := .ok, fatal := false, short := false }
    result := 0
    ciphers := List.replicate s.nCipher none
    streams := List.replicate s.nStream none }

end Sys2Proof.Machine
end

