-- ==== Sys2Proof/Machine/BlockCommands.lean ====
section
/-! DEFINITION. The meanings of `BLKSIZE`, `ENC`, `DEC` and `CDROP` (`46_block_capability.md` R312 to R318). -/

namespace Sys2Proof.Machine

/-- `BLKSIZE c<cid>` (`46_block_capability.md` R312). -/
def execBlksize (cid : Nat) (s : State) : Host.Outcome State Fault Refusal :=
  match s.cipher? cid with
  | none => fails .invalidContext s
  | some none => fails .invalidContext s
  | some (some c) => completes { s with result := BitVec.ofNat 32 (blockSizeOf c) }

/-- What `ENC` and `DEC` share: the checks in the order of `46_block_capability.md` R314, then the first block of `src`
is read, transformed by `f` and written over the first block of `dst`. -/
def blockCommand (f : Cipher → List Byte → List Byte) (cid : Nat) (s : State) : Host.Outcome State Fault Refusal :=
  match s.cipher? cid with
  | none => fails .invalidContext s
  | some none => fails .invalidContext s
  | some (some c) =>
    if s.sl < blockSizeOf c ∨ s.dl < blockSizeOf c then fails .bufferTooSmall s
    else if passesTop s.sa s.sl || passesTop s.d s.dl then fails .addressRange s
    else if overlapsPartly s.d s.sa (blockSizeOf c) then fails .bufferOverlap s
    else completes { s with mem := memWrite s.mem s.d (f c (memRead s.mem s.sa (blockSizeOf c))) }

/-- `ENC c<cid>` (`46_block_capability.md` R314). -/
def execEnc (cid : Nat) (s : State) : Host.Outcome State Fault Refusal := blockCommand encryptBlock cid s

/-- `DEC c<cid>` (`46_block_capability.md` R316). -/
def execDec (cid : Nat) (s : State) : Host.Outcome State Fault Refusal := blockCommand decryptBlock cid s

/-- `CDROP c<cid>` (`46_block_capability.md` R318): dropping an `EMPTY` slot is no error. -/
def execCdrop (cid : Nat) (s : State) : Host.Outcome State Fault Refusal :=
  if s.nCipher ≤ cid then fails .invalidContext s
  else completes (setCipher cid none (dropStreamsOf cid s))

end Sys2Proof.Machine
end

