-- ==== Sys2Proof/Machine/KeyCommands.lean ====
section
/-! DEFINITION. The meanings of the key commands `AESKEY`, `DESKEY` and `TDESKEY` (`41_aes_keyschedule.md` R154,
`43_des_keyschedule.md` R226, `45_tdes.md` R290). -/

namespace Sys2Proof.Machine

/-- What the three key commands share: the checks in the order of `60_exceptions.md` R414 (slot index, key length,
extent), then the key is read, the streams bound to the slot are dropped (`46_block_capability.md` R320) and the slot is
overwritten. `short` says whether a wrong length is reported with `SHORT` (`45_tdes.md` R291). -/
def keyCommand (legal short : Nat → Bool) (build : List Byte → Cipher) (cid : Nat) (s : State) :
    Host.Outcome State Fault Refusal :=
  if s.nCipher ≤ cid then fails .invalidContext s
  else if legal s.sl = false then .next (raise .invalidKeySize (short s.sl) s)
  else if passesTop s.sa s.sl then fails .addressRange s
  else completes (setCipher cid (some (build (memRead s.mem s.sa s.sl))) (dropStreamsOf cid s))

/-- `AESKEY c<cid>` (`41_aes_keyschedule.md` R154): the key has 16, 24 or 32 bytes. -/
def execAeskey (cid : Nat) (s : State) : Host.Outcome State Fault Refusal :=
  keyCommand (fun n => n == 16 || n == 24 || n == 32) (fun _ => false) aesCipher cid s

/-- `DESKEY c<cid>` (`43_des_keyschedule.md` R226): the key has 8 bytes. -/
def execDeskey (cid : Nat) (s : State) : Host.Outcome State Fault Refusal :=
  keyCommand (fun n => n == 8) (fun _ => false) desCipher cid s

/-- `TDESKEY c<cid>` (`45_tdes.md` R290, R291): the key has 24 bytes; a shorter one is reported with `SHORT`. -/
def execTdeskey (cid : Nat) (s : State) : Host.Outcome State Fault Refusal :=
  keyCommand (fun n => n == 24) (fun n => decide (n < 24)) tdesCipher cid s

end Sys2Proof.Machine
end

