-- ==== Sys2Proof/Machine/Counter.lean ====
section
/-! DEFINITION. The counter, the keystream buffer and its refill, and the consume loop (`47_ctr.md` R340 to R353). -/

namespace Sys2Proof.Machine

/-- The increment with carry, least significant byte first: stop at the first byte that does not become 0
(`47_ctr.md` R340). -/
def incFromLast : List Byte → List Byte
  | [] => []
  | b :: bs => if b + 1 = 0 then (b + 1) :: incFromLast bs else (b + 1) :: bs

/-- `CtrInc(c)`: `c[bs-1]` is the least significant byte; wraps silently (`47_ctr.md` R340). -/
def ctrInc (c : List Byte) : List Byte := (incFromLast c.reverse).reverse

/-- `iv (+) m`: `CtrInc` applied `m` times (`47_ctr.md` R356). -/
def ctrAdd (c : List Byte) : (m : Nat) → List Byte
  | 0 => c
  | m + 1 => ctrAdd (ctrInc c) m

/-- The encryptions of `n` counter values from `ctr` on, one block after another: the counter is encrypted first and
incremented after (`47_ctr.md` R346). -/
def keystreamBlocks (c : Cipher) : (n : Nat) → (ctr : List Byte) → List Byte
  | 0, _ => []
  | n + 1, ctr => encryptBlock c ctr ++ keystreamBlocks c n (ctrInc ctr)

/-- `Refill`: the unconsumed tail moves to the front, then whole blocks are generated while one fits, which is
`floor((KSBUF - rem) / bs)` of them (`47_ctr.md` R346, R348). -/
def refill (c : Cipher) (st : Stream) : Stream :=
  let rem := st.fill - st.used
  let blocks := (Config.ksbuf - rem) / st.bs
  { st with
    out := st.out.drop st.used ++ keystreamBlocks c blocks st.ctr
    used := 0
    ctr := ctrAdd st.ctr blocks }

/-- `MEM[d+j] <- MEM[s+j] ^ ks[j]` in ascending order, each byte read and then written (`47_ctr.md` R350, `20_memory.md`
R75). -/
def xorBytes : (ks : List Byte) → (s d : Nat) → Memory → Memory
  | [], _, _, m => m
  | k :: ks, s, d, m => xorBytes ks (s + 1) (d + 1) (m.write d (m.read s ^^^ k))

/-- One pass of the consume loop starts with a refill exactly when fewer than `bs` bytes are unconsumed (`47_ctr.md` R350). -/
def refillIfLow (c : Cipher) (st : Stream) : Stream := if st.fill - st.used < st.bs then refill c st else st

/-- The consume loop of `CTRXOR` at byte index `i` of `sl` (`47_ctr.md` R350). `fuel` bounds the passes: `sl` of them are
enough, since every pass consumes a byte (R353; log 10). -/
def consume (c : Cipher) (d s sl : Nat) : (fuel i : Nat) → Stream → Memory → Stream × Memory
  | 0, _, st, m => (st, m)
  | fuel + 1, i, st, m =>
    if i < sl then
      let st := refillIfLow c st
      let n := min (sl - i) (st.fill - st.used)
      consume c d s sl fuel (i + n) { st with used := st.used + n }
        (xorBytes ((st.out.drop st.used).take n) (s + i) (d + i) m)
    else (st, m)

end Sys2Proof.Machine
end

