-- ==== Sys2Proof/Machine/StreamCommands.lean ====
section
/-! DEFINITION. The meanings of `CTRNEW`, `CTRXOR` and `SDROP` (`47_ctr.md` R342 to R354). -/

namespace Sys2Proof.Machine

/-- `CTRNEW s<sid>, c<cid>` (`47_ctr.md` R342): the slot index checks come before the occupancy check
(`60_exceptions.md` R414). -/
def execCtrnew (sid cid : Nat) (s : State) : Host.Outcome State Fault Refusal :=
  if s.nCipher ≤ cid then fails .invalidContext s
  else if s.nStream ≤ sid then fails .invalidContext s
  else
    match s.cipher? cid with
    | none => fails .invalidContext s
    | some none => fails .invalidContext s
    | some (some c) =>
      if s.sl ≠ blockSizeOf c then fails .invalidIVLength s
      else if passesTop s.sa s.sl then fails .addressRange s
      else
        completes (setStream sid
          (some { cid := cid, bs := blockSizeOf c, ctr := memRead s.mem s.sa (blockSizeOf c), out := [], used := 0 }) s)

/-- `CTRXOR` on the valid stream `st`, whose cipher context is `c`: the buffer checks in the order of `47_ctr.md` R350,
then the consume loop. -/
def xorKeyStream (sid : Nat) (st : Stream) (c : Cipher) (s : State) : Host.Outcome State Fault Refusal :=
  if s.dl < s.sl then fails .bufferTooSmall s
  else if passesTop s.sa s.sl || passesTop s.d s.dl then fails .addressRange s
  else if overlapsPartly s.d s.sa s.sl then fails .bufferOverlap s
  else
    let r := consume c s.d s.sa s.sl s.sl 0 st s.mem
    completes (setStream sid (some r.1) { s with mem := r.2 })

/-- `CTRXOR s<sid>` (`47_ctr.md` R350). A valid stream's cipher slot is never `EMPTY` (`10_state.md` R37); in a state that
breaks this, which no run reaches, the use of the empty slot is `InvalidContext` (log 9). -/
def execCtrxor (sid : Nat) (s : State) : Host.Outcome State Fault Refusal :=
  match s.stream? sid with
  | none => fails .invalidContext s
  | some none => fails .invalidContext s
  | some (some st) =>
    match s.cipher? st.cid with
    | none => fails .invalidContext s
    | some none => fails .invalidContext s
    | some (some c) => xorKeyStream sid st c s

/-- `SDROP s<sid>` (`47_ctr.md` R354): dropping an invalid slot is no error. -/
def execSdrop (sid : Nat) (s : State) : Host.Outcome State Fault Refusal :=
  if s.nStream ≤ sid then fails .invalidContext s
  else completes (setStream sid none s)

end Sys2Proof.Machine
end

