-- ==== Sys2Proof/Machine/Dispatch.lean ====
section
/-! DEFINITION. The execution of a decoded command: one arm per command. -/

namespace Sys2Proof.Machine

def exec (i : Instr) (s : State) : Host.Outcome State Fault Refusal :=
  match i with
  | .aeskey cid => Sys2Proof.Machine.execAeskey cid s
  | .deskey cid => Sys2Proof.Machine.execDeskey cid s
  | .tdeskey cid => Sys2Proof.Machine.execTdeskey cid s
  | .blksize cid => Sys2Proof.Machine.execBlksize cid s
  | .enc cid => Sys2Proof.Machine.execEnc cid s
  | .dec cid => Sys2Proof.Machine.execDec cid s
  | .ctrnew sid cid => Sys2Proof.Machine.execCtrnew sid cid s
  | .ctrxor sid => Sys2Proof.Machine.execCtrxor sid s
  | .cdrop cid => Sys2Proof.Machine.execCdrop cid s
  | .sdrop sid => Sys2Proof.Machine.execSdrop sid s

end Sys2Proof.Machine
end

