-- ==== Sys2Proof/Machine/HostPort.lean ====
section
/-! DEFINITION. The host interface: issuing a command (`30_encoding.md` R90), register and memory accesses
(`10_state.md` R31, R39) and the platform's reset (`70_reset_and_hazards.md` R440 to R443). -/

namespace Sys2Proof.Machine

/-- The word `w` is written to `CMD` (`30_encoding.md` R90; steps 1 and 2 of `60_exceptions.md` R414): ignored when
`FATAL` = 1 (R405), else decoded, and executed to completion or ended by `Fatal(InvalidOpcode)` (R409). -/
def issue (w : Word) (s : State) : Host.Outcome State Fault Refusal :=
  if s.status.fatal then .next s
  else
    match decode w with
    | .ok i => exec i s
    | .error _ => fails .invalidOpcode s

/-- A 32-bit write to a register (`10_state.md` R31): `ARG` registers store it, `STATUS`, `RESULT` and `CAP` ignore it. -/
def writeReg (r : Reg) (v : Word) (s : State) : Host.Outcome State Fault Refusal :=
  match r with
  | .cmd => issue v s
  | .argDst => .next { s with argDst := v }
  | .argDlen => .next { s with argDlen := v }
  | .argSrc => .next { s with argSrc := v }
  | .argSlen => .next { s with argSlen := v }
  | .status => .next s
  | .result => .next s
  | .cap => .next s

/-- The number of destination bytes a command may write: `bs` for `ENC` and `DEC`, `ARG_SLEN` for `CTRXOR`, none for the
others (`20_memory.md` R61, `70_reset_and_hazards.md` R443). -/
def dstExtent (i : Instr) (s : State) : Nat :=
  match i with
  | .enc cid => ((s.cipher? cid).join.map blockSizeOf).getD 0
  | .dec cid => ((s.cipher? cid).join.map blockSizeOf).getD 0
  | .ctrxor _ => s.sl
  | .aeskey _ => 0
  | .deskey _ => 0
  | .tdeskey _ => 0
  | .blksize _ => 0
  | .ctrnew _ _ => 0
  | .cdrop _ => 0
  | .sdrop _ => 0

/-- Memory after a command from `old` to `new` was cut short: byte `i` of the `n` bytes at `d` has its new value exactly
when `pick i`, every other byte its old value (`70_reset_and_hazards.md` R443). -/
def tornMemory (pick : Nat → Bool) (d : Nat) (old new : Memory) : (n : Nat) → Memory
  | 0 => old
  | n + 1 =>
    let m := tornMemory pick d old new n
    if pick n then m.write (d + n) (new.read (d + n)) else m

/-- The number of destination bytes at stake when the word `w` is issued: none for an illegal word. -/
def wordExtent (w : Word) (s : State) : Nat :=
  match decode w with
  | .ok i => dstExtent i s
  | .error _ => 0

/-- The platform resets the engine while the command `w` executes (`70_reset_and_hazards.md` R443): the engine state is
the reset state, each destination byte has its old or its new value, chosen by a free value (log 7). -/
def resetDuring (w : Word) (s : State) : Host.Outcome State Fault Refusal :=
  match issue w s with
  | .next t =>
    .next (resetEngine
      { s with
        mem := tornMemory (Config.tornByte s.freeCount) s.d s.mem t.mem (wordExtent w s)
        freeCount := s.freeCount + 1 })
  | .fault r => .fault r
  | .refused r => .refused r

/-- One act of the environment (`00_scope.md` R18). A register access that is not an aligned 32-bit access to one of the
eight offsets is refused (`93_implementation_defined.md` U6). -/
def hostAccess (a : HostAccess) (s : State) : Host.Outcome State Fault Refusal :=
  match a with
  | .regWrite offset width value =>
    match accessedReg offset width with
    | some r => writeReg r value s
    | none => .refused (.undefinedRegisterAccess offset width)
  | .regRead offset width =>
    match accessedReg offset width with
    | some r => .next (observe (.reg offset (readReg s r)) s)
    | none => .refused (.undefinedRegisterAccess offset width)
  | .memWrite addr value => .next { s with mem := s.mem.write addr.toNat value }
  | .memRead addr => .next (observe (.mem addr (s.mem.read addr.toNat)) s)
  | .reset => .next (resetEngine s)
  | .resetDuring command => resetDuring command s

/-- The state in which the word `w` is the next thing the host writes to `CMD`; what was to come still comes after it
(log 2). -/
def withCommand (w : Word) (s : State) : State :=
  { s with inputs := .regWrite Reg.cmd.offset .w32 w :: s.inputs }

end Sys2Proof.Machine
end

