-- ==== Sys2Proof/Machine/Step.lean ====
section
/-! DEFINITION. The step: the next act of the environment is carried out (`00_scope.md` R18). -/

namespace Sys2Proof.Machine

/-- One step: the oldest access to come is taken off the list and carried out; with none to come the engine does nothing
(log 3). -/
def step (s : State) : Host.Outcome State Fault Refusal :=
  match s.inputs with
  | [] => .next s
  | a :: rest => hostAccess a { s with inputs := rest }

/-- `s` with the word `w` of an opcode-table row as the next thing the host writes to `CMD`, which is what the next step
runs (`30_encoding.md` R90; log 2). -/
def State.withFetchWord (s : State) (nbits w : Nat) : State := withCommand (tableWord nbits w) s

end Sys2Proof.Machine
end

