-- ==== Sys2Proof/Machine/Assembler.lean ====
section
/-! DEFINITION. The notation of host programs (`30_encoding.md` R102, R103): each line is one host access, or two for a
pseudo-instruction. -/

namespace Sys2Proof.Machine

/-- `WR <reg>, <value>` (`30_encoding.md` R102). -/
def asmWr (r : Reg) (v : Word) : List HostAccess := [.regWrite r.offset .w32 v]

/-- `RD <reg>` (`30_encoding.md` R102). -/
def asmRd (r : Reg) : List HostAccess := [.regRead r.offset .w32]

/-- A command line: its word written to `CMD` (`30_encoding.md` R102). -/
def asmCmd (i : Instr) : List HostAccess := asmWr .cmd (encode i)

/-- `SRC <addr>, <len>` (`30_encoding.md` R103). -/
def asmSrc (addr len : Word) : List HostAccess := asmWr .argSrc addr ++ asmWr .argSlen len

/-- `DST <addr>, <len>` (`30_encoding.md` R103). -/
def asmDst (addr len : Word) : List HostAccess := asmWr .argDst addr ++ asmWr .argDlen len

/-- The host places bytes in its buffer memory, lowest address first (`10_state.md` R39). -/
def asmLoad : (addr : Nat) → List Byte → List HostAccess
  | _, [] => []
  | a, b :: bs => .memWrite (BitVec.ofNat 32 a) b :: asmLoad (a + 1) bs

end Sys2Proof.Machine
end

