-- ==== Sys2Proof/Safety.lean ====
section
/-! DEFINITION. What counts as a good state: the invariants the spec gives the machine (`10_state.md` R28, R33 to R37;
`47_ctr.md` R356), in the terms the statements use. -/

namespace Sys2Proof.Machine

/-- `FATAL` is set exactly by a code of the fatal class, and `SHORT` only together with `InvalidKeySize`
(`10_state.md` R28, `60_exceptions.md` R402). -/
def Status.wf (st : Status) : Prop :=
  st.fatal = st.code.isFatal ∧ (st.short = true → st.code = .invalidKeySize)

/-- The key lengths of AES (`60_exceptions.md` R406). -/
def legalAesKey (key : List Byte) : Prop := key.length = 16 ∨ key.length = 24 ∨ key.length = 32

/-- The slot holds exactly what a key command builds from some key: "schedules are pure functions of the key; never
mutated after construction" (`10_state.md` R36, `41_aes_keyschedule.md` R153). -/
def Cipher.wf (c : Cipher) : Prop :=
  (∃ key, legalAesKey key ∧ c = aesCipher key) ∨
    (∃ key, key.length = 8 ∧ c = desCipher key) ∨ ∃ key, key.length = 24 ∧ c = tdesCipher key

/-- `KS[k]`, byte `k` of the keystream of cipher context `c` and initial counter `iv` (`47_ctr.md` R356). -/
def keystreamByte (c : Cipher) (iv : List Byte) (k : Nat) : Byte :=
  byteAt (encryptBlock c (ctrAdd iv (k / blockSizeOf c))) (k % blockSizeOf c)

/-- The stream `st` on the cipher context `c` was made with the initial counter `iv` and has consumed `p` bytes: the
invariant of `47_ctr.md` R356, with the bounds of `10_state.md` R37. -/
structure Stream.At (c : Cipher) (iv : List Byte) (p : Nat) (st : Stream) : Prop where
  bs_eq : st.bs = blockSizeOf c
  iv_length : iv.length = blockSizeOf c
  used_le : st.used ≤ st.fill
  fill_le : st.fill ≤ Config.ksbuf
  aligned : (p + (st.fill - st.used)) % blockSizeOf c = 0
  pending : ∀ j, j < st.fill - st.used → byteAt st.out (st.used + j) = keystreamByte c iv (p + j)
  ctr_eq : st.ctr = ctrAdd iv ((p + (st.fill - st.used)) / blockSizeOf c)

/-- A valid stream slot of a machine with the cipher slots `ciphers`: its cipher slot is not `EMPTY` and it is some
stream of it at some position (`10_state.md` R37, `47_ctr.md` R356). -/
def Stream.wf (ciphers : List (Option Cipher)) (st : Stream) : Prop :=
  ∃ c iv p, ciphers[st.cid]? = some (some c) ∧ st.At c iv p

/-- The invariant of the machine. -/
structure State.Inv (s : State) : Prop where
  nCipher_pos : 1 ≤ s.nCipher
  nCipher_le : s.nCipher ≤ Config.maxSlots
  nStream_pos : 1 ≤ s.nStream
  nStream_le : s.nStream ≤ Config.maxSlots
  status : s.status.wf
  mem : s.mem.wf
  ciphers : ∀ c, some c ∈ s.ciphers → c.wf
  streams : ∀ st, some st ∈ s.streams → st.wf s.ciphers

/-- The host's next act is a register access the spec gives no effect (`93_implementation_defined.md` U6): the only way a
step stops. -/
def State.nextAccessUndefined (s : State) : Prop :=
  ∃ offset width rest, accessedReg offset width = none ∧
    (s.inputs = .regRead offset width :: rest ∨ ∃ v, s.inputs = .regWrite offset width v :: rest)

/-! ### The terms of the statements -/

/-- The state after `raise Fatal(code)` (`60_exceptions.md` R405). -/
def State.fatalEnd (code : Code) (s : State) : State :=
  { s with status := { code := code, fatal := true, short := false } }

/-- The state after `raise Recoverable(code)` (`60_exceptions.md` R404, `45_tdes.md` R291). -/
def State.recoverableEnd (code : Code) (short : Bool) (s : State) : State :=
  { s with status := { code := code, fatal := s.status.fatal, short := short } }

/-- The status after `complete()` (`60_exceptions.md` R403). -/
def State.okStatus (s : State) : Status := { code := .ok, fatal := s.status.fatal, short := false }

/-- Is the slot a valid stream bound to `C[cid]` (`46_block_capability.md` R320)? -/
def boundTo (cid : Nat) : Option Stream → Bool
  | none => false
  | some st => st.cid == cid

/-- The stream slots after `DropStreamsOf(cid)` (`46_block_capability.md` R320). -/
def State.streamsWithout (cid : Nat) (s : State) : List (Option Stream) :=
  s.streams.map fun slot => if boundTo cid slot then none else slot

/-- A byte sequence read as a big-endian unsigned integer (`47_ctr.md` R340). -/
def beNat (bs : List Byte) : Nat := bs.foldl (fun acc b => 256 * acc + b.toNat) 0

/-- The extents of a command are identical or disjoint: not partially overlapping (`20_memory.md` R66). -/
def identicalOrDisjoint (d s n : Nat) : Prop := d = s ∨ d + n ≤ s ∨ s + n ≤ d

/-- The cipher slot index a command uses (`30_encoding.md` R93). -/
def cidUsed : Instr → Option Nat
  | .aeskey cid => some cid
  | .deskey cid => some cid
  | .tdeskey cid => some cid
  | .blksize cid => some cid
  | .enc cid => some cid
  | .dec cid => some cid
  | .ctrnew _ cid => some cid
  | .ctrxor _ => none
  | .cdrop cid => some cid
  | .sdrop _ => none

/-- The stream slot index a command uses (`30_encoding.md` R94). -/
def sidUsed : Instr → Option Nat
  | .aeskey _ => none
  | .deskey _ => none
  | .tdeskey _ => none
  | .blksize _ => none
  | .enc _ => none
  | .dec _ => none
  | .ctrnew sid _ => some sid
  | .ctrxor sid => some sid
  | .cdrop _ => none
  | .sdrop sid => some sid

/-- The kind of a cipher slot (`10_state.md` R32): 0 `EMPTY`, 1 `AES`, 2 `DES`, 3 `TDES`. -/
def kindNumber : Option Cipher → Nat
  | none => 0
  | some (.aes _ _ _) => 1
  | some (.des _) => 2
  | some (.tdes _ _ _) => 3

/-- The block size of the cipher slot `cid`, 0 when it is `EMPTY` or out of range. -/
def State.slotBlockSize (s : State) (cid : Nat) : Nat := ((s.cipher? cid).join.map blockSizeOf).getD 0

/-- The number of bytes a block or stream command touches (`20_memory.md` R61, R66). -/
def State.touched (s : State) : Instr → Nat
  | .enc cid => s.slotBlockSize cid
  | .dec cid => s.slotBlockSize cid
  | .ctrxor _ => s.sl
  | .aeskey _ => 0
  | .deskey _ => 0
  | .tdeskey _ => 0
  | .blksize _ => 0
  | .ctrnew _ _ => 0
  | .cdrop _ => 0
  | .sdrop _ => 0

/-- Step 4 of `60_exceptions.md` R414 fails. -/
def State.slotEmpty (s : State) : Instr → Prop
  | .blksize cid => (s.cipher? cid).join = none
  | .enc cid => (s.cipher? cid).join = none
  | .dec cid => (s.cipher? cid).join = none
  | .ctrnew _ cid => (s.cipher? cid).join = none
  | .ctrxor sid => (s.stream? sid).join = none
  | .aeskey _ => False
  | .deskey _ => False
  | .tdeskey _ => False
  | .cdrop _ => False
  | .sdrop _ => False

/-- Step 5 of `60_exceptions.md` R414 fails for a key (R406). -/
def State.wrongKeyLength (s : State) : Instr → Prop
  | .aeskey _ => s.sl ≠ 16 ∧ s.sl ≠ 24 ∧ s.sl ≠ 32
  | .deskey _ => s.sl ≠ 8
  | .tdeskey _ => s.sl ≠ 24
  | .blksize _ => False
  | .enc _ => False
  | .dec _ => False
  | .ctrnew _ _ => False
  | .ctrxor _ => False
  | .cdrop _ => False
  | .sdrop _ => False

/-- Step 5 of `60_exceptions.md` R414 fails for an IV (R407). -/
def State.wrongIVLength (s : State) : Instr → Prop
  | .ctrnew _ cid => s.sl ≠ s.slotBlockSize cid
  | .aeskey _ => False
  | .deskey _ => False
  | .tdeskey _ => False
  | .blksize _ => False
  | .enc _ => False
  | .dec _ => False
  | .ctrxor _ => False
  | .cdrop _ => False
  | .sdrop _ => False

/-- Step 6 of `60_exceptions.md` R414 fails (R408). -/
def State.shortBuffer (s : State) : Instr → Prop
  | .enc cid => s.sl < s.slotBlockSize cid ∨ s.dl < s.slotBlockSize cid
  | .dec cid => s.sl < s.slotBlockSize cid ∨ s.dl < s.slotBlockSize cid
  | .ctrxor _ => s.dl < s.sl
  | .aeskey _ => False
  | .deskey _ => False
  | .tdeskey _ => False
  | .blksize _ => False
  | .ctrnew _ _ => False
  | .cdrop _ => False
  | .sdrop _ => False

/-- Step 7 of `60_exceptions.md` R414 fails: a descriptor the command uses passes the top of memory (R411). -/
def State.extentPastTop (s : State) : Instr → Prop
  | .aeskey _ => 2 ^ 32 < s.sa + s.sl
  | .deskey _ => 2 ^ 32 < s.sa + s.sl
  | .tdeskey _ => 2 ^ 32 < s.sa + s.sl
  | .ctrnew _ _ => 2 ^ 32 < s.sa + s.sl
  | .enc _ => 2 ^ 32 < s.sa + s.sl ∨ 2 ^ 32 < s.d + s.dl
  | .dec _ => 2 ^ 32 < s.sa + s.sl ∨ 2 ^ 32 < s.d + s.dl
  | .ctrxor _ => 2 ^ 32 < s.sa + s.sl ∨ 2 ^ 32 < s.d + s.dl
  | .blksize _ => False
  | .cdrop _ => False
  | .sdrop _ => False

/-- Step 8 of `60_exceptions.md` R414 fails: the touched regions overlap without being identical (R412). -/
def State.partialOverlap (s : State) (i : Instr) : Prop := ¬ identicalOrDisjoint s.d s.sa (s.touched i)

/-- Step 3 of `60_exceptions.md` R414 fails: an index the command uses is out of range (R410). -/
def State.indexOutOfRange (s : State) (i : Instr) : Prop :=
  (∃ cid, cidUsed i = some cid ∧ s.nCipher ≤ cid) ∨ ∃ sid, sidUsed i = some sid ∧ s.nStream ≤ sid

/-- Steps 3 to 8 of `60_exceptions.md` R414, in order, with the error each raises. -/
def State.checks (s : State) (i : Instr) : List (Prop × Code) :=
  [ (s.indexOutOfRange i, .invalidContext), (s.slotEmpty i, .invalidContext), (s.wrongKeyLength i, .invalidKeySize),
    (s.wrongIVLength i, .invalidIVLength), (s.shortBuffer i, .bufferTooSmall), (s.extentPastTop i, .addressRange),
    (s.partialOverlap i, .bufferOverlap) ]

/-- The two states agree on all the host can read from the register block, and on the shape of every slot: its kind,
or its `valid`, `cid` and `bs`. They may differ in schedules, counters, keystream and memory (`10_state.md` R41). -/
def State.sameShape (s s' : State) : Prop :=
  s.argDst = s'.argDst ∧ s.argDlen = s'.argDlen ∧ s.argSrc = s'.argSrc ∧ s.argSlen = s'.argSlen ∧
    s.status = s'.status ∧ s.result = s'.result ∧ s.ciphers.map kindNumber = s'.ciphers.map kindNumber ∧
    s.streams.map (Option.map fun st => (st.cid, st.bs)) = s'.streams.map (Option.map fun st => (st.cid, st.bs))

/-- `code` is the error of the first failing check of a list, `ok` when none fails. -/
def FirstFailing : List (Prop × Code) → Code → Prop
  | [], code => code = .ok
  | (fails, e) :: rest, code => (fails ∧ code = e) ∨ (¬ fails ∧ FirstFailing rest code)

end Sys2Proof.Machine
end

