-- ==== Sys2Proof/Certificates/Slice0/Obligations.lean ====
section
/-! DEFINITION. The statements for the provers. Each docstring names the rule of the spec it formalises. -/

open Sys2Proof Sys2Proof.Machine

/-! ### Encoding and decoding -/

/-- Every well-formed command is what its own word decodes to, for every slot index a word can hold
(`30_encoding.md` R97, R102). -/
def Obligations.DecodeOfEncodeIsIdentity : Prop :=
  ∀ i : Instr, i.wf = true → decode (encode i) = .ok i

/-- A word that decodes is the encoding of what it decodes to: no two words mean one command
(`30_encoding.md` R97, R98). -/
def Obligations.EncodeOfDecodeIsIdentity : Prop :=
  ∀ (w : Word) (i : Instr), decode w = .ok i → i.wf = true ∧ encode i = w

/-- `30_encoding.md` R99, whole: the four causes, the error, the two words named and the count of legal words. -/
def Obligations.IllegalWordsExactly : Prop :=
  (∀ w : Word, (∃ r, decode w = .error r) ↔
    ((w.extractLsb' 0 8).toNat = 0 ∨ 0x0B ≤ (w.extractLsb' 0 8).toNat) ∨
      w.extractLsb' 16 16 ≠ 0 ∨
      ((w.extractLsb' 0 8).toNat ∈ [1, 2, 3, 4, 5, 6, 9] ∧ w.extractLsb' 12 4 ≠ 0) ∨
      ((w.extractLsb' 0 8).toNat ∈ [8, 10] ∧ w.extractLsb' 8 4 ≠ 0)) ∧
  (∀ (w : Word) (r : Illegal) (s : State), decode w = .error r → s.status.fatal = false →
    issue w s = .next (s.fatalEnd .invalidOpcode)) ∧
  (∃ r, decode 0x00000000 = .error r) ∧
  (∃ r, decode 0xFFFFFFFF = .error r) ∧
  ∃ ws : List Word, ws.Nodup ∧ ws.length = 7 * 16 + 256 + 2 * 16 ∧ ws.length = 400 ∧
    ∀ w, w ∈ ws ↔ ∃ i, decode w = .ok i

/-- The match and mask columns of `30_encoding.md` R97, with the index fields of R93 and R94. -/
def Obligations.CommandMatchMaskRows : Prop :=
  ∀ (w : Word) (cid sid : Nat),
    (decode w = .ok (.aeskey cid) ↔ w &&& 0xFFFFF0FF = 0x00000001 ∧ cid = (w.extractLsb' 8 4).toNat) ∧
    (decode w = .ok (.deskey cid) ↔ w &&& 0xFFFFF0FF = 0x00000002 ∧ cid = (w.extractLsb' 8 4).toNat) ∧
    (decode w = .ok (.tdeskey cid) ↔ w &&& 0xFFFFF0FF = 0x00000003 ∧ cid = (w.extractLsb' 8 4).toNat) ∧
    (decode w = .ok (.blksize cid) ↔ w &&& 0xFFFFF0FF = 0x00000004 ∧ cid = (w.extractLsb' 8 4).toNat) ∧
    (decode w = .ok (.enc cid) ↔ w &&& 0xFFFFF0FF = 0x00000005 ∧ cid = (w.extractLsb' 8 4).toNat) ∧
    (decode w = .ok (.dec cid) ↔ w &&& 0xFFFFF0FF = 0x00000006 ∧ cid = (w.extractLsb' 8 4).toNat) ∧
    (decode w = .ok (.ctrnew sid cid) ↔ w &&& 0xFFFF00FF = 0x00000007 ∧
      sid = (w.extractLsb' 12 4).toNat ∧ cid = (w.extractLsb' 8 4).toNat) ∧
    (decode w = .ok (.ctrxor sid) ↔ w &&& 0xFFFF0FFF = 0x00000008 ∧ sid = (w.extractLsb' 12 4).toNat) ∧
    (decode w = .ok (.cdrop cid) ↔ w &&& 0xFFFFF0FF = 0x00000009 ∧ cid = (w.extractLsb' 8 4).toNat) ∧
    (decode w = .ok (.sdrop sid) ↔ w &&& 0xFFFF0FFF = 0x0000000A ∧ sid = (w.extractLsb' 12 4).toNat)

/-- Words written out from the encoding table, one a command; three of them are the worked encodings of
`30_encoding.md` R103, others those of the rules' examples. -/
def Obligations.WrittenOutWordsDecode : Prop :=
  decode 0b0000000000000000_0000_0000_00000001 = .ok (.aeskey 0) ∧
  decode 0b0000000000000000_0000_0001_00000010 = .ok (.deskey 1) ∧
  decode 0b0000000000000000_0000_0010_00000011 = .ok (.tdeskey 2) ∧
  decode 0b0000000000000000_0000_1111_00000100 = .ok (.blksize 15) ∧
  decode 0b0000000000000000_0000_0011_00000101 = .ok (.enc 3) ∧
  decode 0b0000000000000000_0000_0111_00000110 = .ok (.dec 7) ∧
  decode 0b0000000000000000_0001_0010_00000111 = .ok (.ctrnew 1 2) ∧
  decode 0b0000000000000000_0001_0000_00001000 = .ok (.ctrxor 1) ∧
  decode 0b0000000000000000_0000_1000_00001001 = .ok (.cdrop 8) ∧
  decode 0b0000000000000000_0001_0000_00001010 = .ok (.sdrop 1)

/-- `30_encoding.md` R103: `SRC` and `DST` are two register writes each, in either order, and the command lines of R102
write the command's word. -/
def Obligations.PseudoInstructionsExpand : Prop :=
  (∀ (s : State) (a n : Word) (rest : List HostAccess),
    (s.inputs = asmSrc a n ++ rest → core.run 2 s = .next { s with inputs := rest, argSrc := a, argSlen := n }) ∧
    (s.inputs = asmWr .argSlen n ++ asmWr .argSrc a ++ rest →
      core.run 2 s = .next { s with inputs := rest, argSrc := a, argSlen := n }) ∧
    (s.inputs = asmDst a n ++ rest → core.run 2 s = .next { s with inputs := rest, argDst := a, argDlen := n }) ∧
    (s.inputs = asmWr .argDlen n ++ asmWr .argDst a ++ rest →
      core.run 2 s = .next { s with inputs := rest, argDst := a, argDlen := n })) ∧
  (∀ (s : State) (i : Instr) (rest : List HostAccess), s.inputs = asmCmd i ++ rest →
    step s = issue (encode i) { s with inputs := rest }) ∧
  encode (.ctrnew 1 2) = 0x00001207 ∧ encode (.enc 3) = 0x00000305 ∧ encode (.sdrop 1) = 0x0000100A

/-! ### The step and the host's side -/

/-- A step on a `CMD` write runs the decoded command, with nothing around it but taking the access off the list of inputs
(`30_encoding.md` R90, `00_scope.md` R18); the same for a word placed by `withFetchWord`. -/
def Obligations.StepRunsDecodedCommand : Prop :=
  (∀ (s : State) (w : Word) (i : Instr) (rest : List HostAccess), s.inputs = .regWrite 0x00 .w32 w :: rest →
    s.status.fatal = false → decode w = .ok i → step s = exec i { s with inputs := rest }) ∧
  (∀ (s : State) (nbits w : Nat) (i : Instr), s.status.fatal = false → decodeTableWord nbits w = some i →
    step (s.withFetchWord nbits w) = exec i s)

/-- `60_exceptions.md` R409. -/
def Obligations.IllegalWordRaisesInvalidOpcode : Prop :=
  (∀ (s : State) (w : Word) (r : Illegal) (rest : List HostAccess), s.inputs = .regWrite 0x00 .w32 w :: rest →
    s.status.fatal = false → decode w = .error r →
    step s = .next (State.fatalEnd .invalidOpcode { s with inputs := rest })) ∧
  Code.number .invalidOpcode = 4 ∧ Code.isFatal .invalidOpcode = true ∧
  ∀ (i : Instr) (s t : State), exec i s = .next t → t.status.code ≠ .invalidOpcode

/-- The fatal latch of `60_exceptions.md` R405: while `FATAL` = 1 a `CMD` write changes nothing, only reset changes the
status, a context or `RESULT`, `ARG` writes still store, and reset clears the latch. -/
def Obligations.FatalLatchHoldsUntilReset : Prop :=
  (∀ (s : State) (w : Word) (rest : List HostAccess), s.status.fatal = true →
    s.inputs = .regWrite 0x00 .w32 w :: rest → step s = .next { s with inputs := rest }) ∧
  (∀ s t : State, s.status.fatal = true → step s = .next t →
    (∀ rest, s.inputs ≠ .reset :: rest) → (∀ w rest, s.inputs ≠ .resetDuring w :: rest) →
    t.status = s.status ∧ t.ciphers = s.ciphers ∧ t.streams = s.streams ∧ t.result = s.result) ∧
  (∀ (s : State) (v : Word) (rest : List HostAccess), s.status.fatal = true →
    s.inputs = .regWrite 0x0C .w32 v :: rest → step s = .next { s with inputs := rest, argSrc := v }) ∧
  (∀ (s : State) (rest : List HostAccess), s.inputs = .reset :: rest →
    ∃ t, step s = .next t ∧ t.status.fatal = false)

/-- `10_state.md` R31: every access to the register block. -/
def Obligations.RegisterBlockAccesses : Prop :=
  ∀ (s : State) (rest : List HostAccess),
    (∀ v, s.inputs = .regWrite 0x00 .w32 v :: rest → step s = issue v { s with inputs := rest }) ∧
    (∀ v, s.inputs = .regWrite 0x04 .w32 v :: rest → step s = .next { s with inputs := rest, argDst := v }) ∧
    (∀ v, s.inputs = .regWrite 0x08 .w32 v :: rest → step s = .next { s with inputs := rest, argDlen := v }) ∧
    (∀ v, s.inputs = .regWrite 0x0C .w32 v :: rest → step s = .next { s with inputs := rest, argSrc := v }) ∧
    (∀ v, s.inputs = .regWrite 0x10 .w32 v :: rest → step s = .next { s with inputs := rest, argSlen := v }) ∧
    (∀ offset v, offset ∈ [0x14, 0x18, 0x1C] → s.inputs = .regWrite offset .w32 v :: rest →
      step s = .next { s with inputs := rest }) ∧
    (∀ offset v,
      (offset, v) ∈ [(0x00, 0), (0x04, s.argDst), (0x08, s.argDlen), (0x0C, s.argSrc), (0x10, s.argSlen),
        (0x14, s.status.word), (0x18, s.result), (0x1C, s.capWord)] →
      s.inputs = .regRead offset .w32 :: rest →
      step s = .next { s with inputs := rest, observed := .reg offset v :: s.observed }) ∧
    (∀ offset width v, (width ≠ .w32 ∨ offset ∉ [0x00, 0x04, 0x08, 0x0C, 0x10, 0x14, 0x18, 0x1C]) →
      s.inputs = .regWrite offset width v :: rest → step s = .refused (.undefinedRegisterAccess offset width)) ∧
    (∀ offset width, (width ≠ .w32 ∨ offset ∉ [0x00, 0x04, 0x08, 0x0C, 0x10, 0x14, 0x18, 0x1C]) →
      s.inputs = .regRead offset width :: rest → step s = .refused (.undefinedRegisterAccess offset width))

/-- The fields of `STATUS` (`10_state.md` R28), and that no two statuses read alike. -/
def Obligations.StatusWordLayout : Prop :=
  (∀ st : Status,
    (st.word.extractLsb' 0 8).toNat = st.code.number ∧ st.word.getLsbD 8 = st.fatal ∧ st.word.getLsbD 9 = st.short ∧
      st.word.extractLsb' 10 22 = 0) ∧
  (∀ st st' : Status, st.word = st'.word → st = st') ∧
  [Code.ok, .invalidKeySize, .invalidIVLength, .bufferTooSmall, .invalidOpcode, .invalidContext, .addressRange,
    .bufferOverlap].map Code.number = [0, 1, 2, 3, 4, 5, 6, 7]

/-- `10_state.md` R30: the fields of `CAP`, and that it is read only and constant. -/
def Obligations.CapWordLayout : Prop :=
  (∀ s : State, s.nCipher ≤ 16 → s.nStream ≤ 16 →
    (s.capWord.extractLsb' 0 5).toNat = s.nCipher ∧ s.capWord.extractLsb' 5 3 = 0 ∧
      (s.capWord.extractLsb' 8 5).toNat = s.nStream ∧ s.capWord.extractLsb' 13 3 = 0 ∧
      s.capWord.extractLsb' 16 16 = 0x0200) ∧
  (∀ s t : State, step s = .next t → t.capWord = s.capWord) ∧
  (∀ (s : State) (v : Word) (rest : List HostAccess), s.inputs = .regWrite 0x1C .w32 v :: rest →
    step s = .next { s with inputs := rest }) ∧
  State.reset.capWord = 0x02000204

/-- The host's side of buffer memory (`10_state.md` R39, `20_memory.md` R63, R73); that a step with no access to come
changes nothing is the model's choice (log 3). -/
def Obligations.HostMemoryAccesses : Prop :=
  (∀ s : State, s.inputs = [] → step s = .next s) ∧
  (∀ (s : State) (a : Word) (b : Byte) (rest : List HostAccess), s.mem.wf → s.inputs = .memWrite a b :: rest →
    ∃ m : Memory, step s = .next { s with inputs := rest, mem := m } ∧ m.wf ∧ m.read a.toNat = b ∧
      ∀ x, x ≠ a.toNat → m.read x = s.mem.read x) ∧
  (∀ (s : State) (a : Word) (rest : List HostAccess), s.inputs = .memRead a :: rest →
    step s = .next { s with inputs := rest, observed := .mem a (s.mem.read a.toNat) :: s.observed })

/-- The parameters of `00_scope.md` R10 are constants of a machine (`10_state.md` R42). -/
def Obligations.ParametersNeverChange : Prop :=
  ∀ s t : State, step s = .next t → t.nCipher = s.nCipher ∧ t.nStream = s.nStream

/-- A step stops only on a register access the spec gives no effect (`93_implementation_defined.md` U6), by a refusal that
names the access's own offset and width; no command ever stops the machine (`60_exceptions.md` R400). -/
def Obligations.StepStopsOnlyOnUndefinedAccess : Prop :=
  (∀ s : State, (∃ t, step s = .next t) ↔ ¬ s.nextAccessUndefined) ∧
  (∀ (s : State) (offset : Nat) (width : AccessWidth) (rest : List HostAccess), accessedReg offset width = none →
    (s.inputs = .regRead offset width :: rest ∨ ∃ v, s.inputs = .regWrite offset width v :: rest) →
    step s = .refused (.undefinedRegisterAccess offset width)) ∧
  ∀ (i : Instr) (s : State), ∃ t, exec i s = .next t

/-- `10_state.md` R44: what reset leaves, at the machine's start and when the platform resets it later. -/
def Obligations.ResetValues : Prop :=
  (State.reset.argDst = 0 ∧ State.reset.argDlen = 0 ∧ State.reset.argSrc = 0 ∧ State.reset.argSlen = 0 ∧
    State.reset.status.word = 0 ∧ State.reset.result = 0 ∧ State.reset.capWord = 0x02000204 ∧
    (∀ c ∈ State.reset.ciphers, c = none) ∧ (∀ st ∈ State.reset.streams, st = none)) ∧
  ∀ (s : State) (rest : List HostAccess), s.inputs = .reset :: rest →
    ∃ t, step s = .next t ∧ t.argDst = 0 ∧ t.argDlen = 0 ∧ t.argSrc = 0 ∧ t.argSlen = 0 ∧
      t.status = { code := .ok, fatal := false, short := false } ∧ t.result = 0 ∧ t.capWord = s.capWord ∧
      t.ciphers = List.replicate s.nCipher none ∧ t.streams = List.replicate s.nStream none ∧ t.mem = s.mem

/-- `70_reset_and_hazards.md` R443: a reset during the command of the word `w`. The choice between an old and a new byte
is a free value (log 7), so the statement holds whatever it is. -/
def Obligations.ResetDuringCommand : Prop :=
  ∀ (s : State) (w : Word) (rest : List HostAccess), s.mem.wf → s.inputs = .resetDuring w :: rest →
    ∃ t u, step s = .next t ∧ issue w { s with inputs := rest } = .next u ∧
      t.argDst = 0 ∧ t.argDlen = 0 ∧ t.argSrc = 0 ∧ t.argSlen = 0 ∧
      t.status = { code := .ok, fatal := false, short := false } ∧ t.result = 0 ∧
      t.ciphers = List.replicate s.nCipher none ∧ t.streams = List.replicate s.nStream none ∧
      (∀ a, t.mem.read a = s.mem.read a ∨ t.mem.read a = u.mem.read a) ∧
      ∀ a, t.mem.read a ≠ s.mem.read a →
        ∃ i, decode w = .ok i ∧ s.d ≤ a ∧ a < s.d + s.touched i

/-- The invariant of the machine is kept by every step from every state that has it: legal status values, memory in
canonical form, every cipher slot exactly what a key command builds, every stream slot bound to a loaded cipher slot with
the buffer, counter and cursor of `47_ctr.md` R356 (`10_state.md` R28, R33 to R37, `46_block_capability.md` R320). -/
def Obligations.StepKeepsInvariant : Prop := ∀ s t : State, s.Inv → step s = .next t → t.Inv

/-- The invariant holds at reset. -/
def Obligations.ResetStateHasInvariant : Prop := State.reset.Inv

/-! ### Errors -/

/-- `60_exceptions.md` R414: the nine steps in order; the error reported is that of the first failing check. -/
def Obligations.FirstFailingCheckDecides : Prop :=
  ∀ (w : Word) (s : State), s.Inv →
    (s.status.fatal = true → issue w s = .next s) ∧
    (s.status.fatal = false → (∃ r, decode w = .error r) → issue w s = .next (s.fatalEnd .invalidOpcode)) ∧
    (∀ i, s.status.fatal = false → decode w = .ok i →
      ∃ t, issue w s = .next t ∧ FirstFailing (s.checks i) t.status.code ∧
        t.status.fatal = t.status.code.isFatal)

/-- `60_exceptions.md` R415: an error changes nothing but `STATUS`, and which error a command ends with depends only on
the command, the `ARG` registers, the parameters and `kind`, `valid` and `bs` of the slots. -/
def Obligations.ErrorsChangeOnlyStatus : Prop :=
  (∀ (i : Instr) (s t : State), exec i s = .next t → t.status.code ≠ .ok → t = { s with status := t.status }) ∧
  ∀ (i : Instr) (s s' t t' : State), s.Inv → s'.Inv → s.argDst = s'.argDst → s.argDlen = s'.argDlen →
    s.argSrc = s'.argSrc → s.argSlen = s'.argSlen → s.ciphers.map kindNumber = s'.ciphers.map kindNumber →
    s.streams.map (Option.map Stream.bs) = s'.streams.map (Option.map Stream.bs) →
    exec i s = .next t → exec i s' = .next t' → t.status.code = t'.status.code

/-- `60_exceptions.md` R406 and R407: when the two recoverable errors are raised, with `SHORT` of `45_tdes.md` R291, and
that nothing else raises them. -/
def Obligations.ConstructionLengthErrors : Prop :=
  (∀ (cid : Nat) (s : State), cid < s.nCipher →
    (s.sl ∉ [16, 24, 32] → exec (.aeskey cid) s = .next (s.recoverableEnd .invalidKeySize false)) ∧
    (s.sl ≠ 8 → exec (.deskey cid) s = .next (s.recoverableEnd .invalidKeySize false)) ∧
    (s.sl ≠ 24 → exec (.tdeskey cid) s = .next (s.recoverableEnd .invalidKeySize (decide (s.sl < 24))))) ∧
  (∀ (sid cid : Nat) (c : Cipher) (s : State), sid < s.nStream → s.cipher? cid = some (some c) →
    s.sl ≠ blockSizeOf c → exec (.ctrnew sid cid) s = .next (s.recoverableEnd .invalidIVLength false)) ∧
  Code.number .invalidKeySize = 1 ∧ Code.number .invalidIVLength = 2 ∧
  Code.isFatal .invalidKeySize = false ∧ Code.isFatal .invalidIVLength = false ∧
  (∀ (i : Instr) (s t : State), exec i s = .next t → t.status.code = .invalidKeySize → s.wrongKeyLength i) ∧
  (∀ (i : Instr) (s t : State), exec i s = .next t → t.status.code = .invalidIVLength → s.wrongIVLength i)

/-- `60_exceptions.md` R408. -/
def Obligations.BufferTooSmallIsFatal : Prop :=
  (∀ (cid : Nat) (c : Cipher) (s : State), s.cipher? cid = some (some c) →
    (s.sl < blockSizeOf c ∨ s.dl < blockSizeOf c) →
    exec (.enc cid) s = .next (s.fatalEnd .bufferTooSmall) ∧ exec (.dec cid) s = .next (s.fatalEnd .bufferTooSmall)) ∧
  (∀ (sid : Nat) (st : Stream) (s : State), s.Inv → s.stream? sid = some (some st) → s.dl < s.sl →
    exec (.ctrxor sid) s = .next (s.fatalEnd .bufferTooSmall)) ∧
  Code.number .bufferTooSmall = 3 ∧ Code.isFatal .bufferTooSmall = true ∧
  ∀ (i : Instr) (s t : State), exec i s = .next t → t.status.code = .bufferTooSmall → s.shortBuffer i

/-- `60_exceptions.md` R410: out of range, `EMPTY` and invalid slots, and nothing else. -/
def Obligations.InvalidContextIsFatal : Prop :=
  (∀ (i : Instr) (s : State), s.indexOutOfRange i ∨ s.slotEmpty i → exec i s = .next (s.fatalEnd .invalidContext)) ∧
  Code.number .invalidContext = 5 ∧ Code.isFatal .invalidContext = true ∧
  (∀ (i : Instr) (s t : State), s.Inv → exec i s = .next t → t.status.code = .invalidContext →
    s.indexOutOfRange i ∨ s.slotEmpty i) ∧
  (∀ (cid : Nat) (s : State), s.cipher? cid = some none → ∃ t, exec (.cdrop cid) s = .next t ∧ t.status.code = .ok) ∧
  ∀ (sid : Nat) (s : State), s.stream? sid = some none → ∃ t, exec (.sdrop sid) s = .next t ∧ t.status.code = .ok

/-- `60_exceptions.md` R411 and R412: when every earlier check of R414 passes, an extent past the top of memory is
`AddressRange`, else a partial overlap is `BufferOverlap`; neither is raised otherwise. -/
def Obligations.ExtentAndOverlapErrors : Prop :=
  (∀ (i : Instr) (s : State), s.Inv → ¬ s.indexOutOfRange i → ¬ s.slotEmpty i → ¬ s.wrongKeyLength i →
    ¬ s.wrongIVLength i → ¬ s.shortBuffer i →
    (s.extentPastTop i → exec i s = .next (s.fatalEnd .addressRange)) ∧
    (¬ s.extentPastTop i → s.partialOverlap i → exec i s = .next (s.fatalEnd .bufferOverlap))) ∧
  Code.number .addressRange = 6 ∧ Code.number .bufferOverlap = 7 ∧
  Code.isFatal .addressRange = true ∧ Code.isFatal .bufferOverlap = true ∧
  (∀ (i : Instr) (s t : State), exec i s = .next t → t.status.code = .addressRange → s.extentPastTop i) ∧
  (∀ (i : Instr) (s t : State), exec i s = .next t → t.status.code = .bufferOverlap → s.partialOverlap i) ∧
  ∀ (i : Instr) (s : State), s.partialOverlap i ↔
    0 < s.touched i ∧ s.d ≠ s.sa ∧ s.d < s.sa + s.touched i ∧ s.sa < s.d + s.touched i

/-! ### The commands -/

/-- `AESKEY` (`41_aes_keyschedule.md` R154): the three errors in order, and the state after success. -/
def Obligations.AeskeyBuildsSchedules : Prop :=
  ∀ (cid : Nat) (s : State),
    (s.nCipher ≤ cid → exec (.aeskey cid) s = .next (s.fatalEnd .invalidContext)) ∧
    (cid < s.nCipher → s.sl ∉ [16, 24, 32] →
      exec (.aeskey cid) s = .next (s.recoverableEnd .invalidKeySize false)) ∧
    (cid < s.nCipher → s.sl ∈ [16, 24, 32] → 2 ^ 32 < s.sa + s.sl →
      exec (.aeskey cid) s = .next (s.fatalEnd .addressRange)) ∧
    (cid < s.nCipher → s.sl ∈ [16, 24, 32] → s.sa + s.sl ≤ 2 ^ 32 →
      exec (.aeskey cid) s = .next
        { s with
          status := s.okStatus
          ciphers := s.ciphers.set cid (some (.aes (s.sl / 4) (expandKey (memRead s.mem s.sa s.sl))
            (invSchedule (expandKey (memRead s.mem s.sa s.sl)) (s.sl / 4))))
          streams := s.streamsWithout cid })

/-- `DESKEY` (`43_des_keyschedule.md` R226). -/
def Obligations.DeskeyBuildsSubkeys : Prop :=
  ∀ (cid : Nat) (s : State),
    (s.nCipher ≤ cid → exec (.deskey cid) s = .next (s.fatalEnd .invalidContext)) ∧
    (cid < s.nCipher → s.sl ≠ 8 → exec (.deskey cid) s = .next (s.recoverableEnd .invalidKeySize false)) ∧
    (cid < s.nCipher → s.sl = 8 → 2 ^ 32 < s.sa + 8 → exec (.deskey cid) s = .next (s.fatalEnd .addressRange)) ∧
    (cid < s.nCipher → s.sl = 8 → s.sa + 8 ≤ 2 ^ 32 →
      exec (.deskey cid) s = .next
        { s with
          status := s.okStatus
          ciphers := s.ciphers.set cid (some (.des (desSubkeys (memRead s.mem s.sa 8))))
          streams := s.streamsWithout cid })

/-- `TDESKEY` (`45_tdes.md` R290, R291): key 1 is bytes 0 to 7, key 2 bytes 8 to 15, key 3 bytes 16 to 23. -/
def Obligations.TdeskeyBuildsThreeSchedules : Prop :=
  ∀ (cid : Nat) (s : State),
    (s.nCipher ≤ cid → exec (.tdeskey cid) s = .next (s.fatalEnd .invalidContext)) ∧
    (cid < s.nCipher → s.sl < 24 → exec (.tdeskey cid) s = .next (s.recoverableEnd .invalidKeySize true)) ∧
    (cid < s.nCipher → 24 < s.sl → exec (.tdeskey cid) s = .next (s.recoverableEnd .invalidKeySize false)) ∧
    (cid < s.nCipher → s.sl = 24 → 2 ^ 32 < s.sa + 24 → exec (.tdeskey cid) s = .next (s.fatalEnd .addressRange)) ∧
    (cid < s.nCipher → s.sl = 24 → s.sa + 24 ≤ 2 ^ 32 →
      exec (.tdeskey cid) s = .next
        { s with
          status := s.okStatus
          ciphers := s.ciphers.set cid (some (.tdes (desSubkeys (memRead s.mem s.sa 8))
            (desSubkeys (memRead s.mem (s.sa + 8) 8)) (desSubkeys (memRead s.mem (s.sa + 16) 8))))
          streams := s.streamsWithout cid })

/-- `BLKSIZE` (`46_block_capability.md` R312). -/
def Obligations.BlksizeWritesResult : Prop :=
  ∀ (cid : Nat) (s : State),
    (s.nCipher ≤ cid ∨ s.cipher? cid = some none → exec (.blksize cid) s = .next (s.fatalEnd .invalidContext)) ∧
    (∀ nk ek dk, s.cipher? cid = some (some (.aes nk ek dk)) →
      exec (.blksize cid) s = .next { s with status := s.okStatus, result := 16 }) ∧
    (∀ ks, s.cipher? cid = some (some (.des ks)) →
      exec (.blksize cid) s = .next { s with status := s.okStatus, result := 8 }) ∧
    (∀ ks1 ks2 ks3, s.cipher? cid = some (some (.tdes ks1 ks2 ks3)) →
      exec (.blksize cid) s = .next { s with status := s.okStatus, result := 8 })

/-- `ENC` and `DEC` (`46_block_capability.md` R314, R316): the errors in order; on success the first block of the
destination holds the transformed first block of the source, every other byte and all other state is as before. -/
def Obligations.EncAndDecTransformOneBlock : Prop :=
  ∀ (cid : Nat) (s : State) (i : Instr) (f : Cipher → List Byte → List Byte),
    (i = .enc cid ∧ f = encryptBlock) ∨ (i = .dec cid ∧ f = decryptBlock) →
    (s.nCipher ≤ cid ∨ s.cipher? cid = some none → exec i s = .next (s.fatalEnd .invalidContext)) ∧
    ∀ c, s.cipher? cid = some (some c) →
      (s.sl < blockSizeOf c ∨ s.dl < blockSizeOf c → exec i s = .next (s.fatalEnd .bufferTooSmall)) ∧
      (blockSizeOf c ≤ s.sl → blockSizeOf c ≤ s.dl → (2 ^ 32 < s.sa + s.sl ∨ 2 ^ 32 < s.d + s.dl) →
        exec i s = .next (s.fatalEnd .addressRange)) ∧
      (blockSizeOf c ≤ s.sl → blockSizeOf c ≤ s.dl → s.sa + s.sl ≤ 2 ^ 32 → s.d + s.dl ≤ 2 ^ 32 →
        (s.d ≠ s.sa ∧ s.d < s.sa + blockSizeOf c ∧ s.sa < s.d + blockSizeOf c) →
        exec i s = .next (s.fatalEnd .bufferOverlap)) ∧
      (s.mem.wf → blockSizeOf c ≤ s.sl → blockSizeOf c ≤ s.dl → s.sa + s.sl ≤ 2 ^ 32 → s.d + s.dl ≤ 2 ^ 32 →
        identicalOrDisjoint s.d s.sa (blockSizeOf c) →
        ∃ m : Memory, exec i s = .next { s with status := s.okStatus, mem := m } ∧
          memRead m s.d (blockSizeOf c) = f c (memRead s.mem s.sa (blockSizeOf c)) ∧
          ∀ a, a < s.d ∨ s.d + blockSizeOf c ≤ a → m.read a = s.mem.read a)

/-- `CTRNEW` (`47_ctr.md` R342). -/
def Obligations.CtrnewMakesFreshStream : Prop :=
  ∀ (sid cid : Nat) (s : State),
    (s.nCipher ≤ cid ∨ s.nStream ≤ sid ∨ s.cipher? cid = some none →
      exec (.ctrnew sid cid) s = .next (s.fatalEnd .invalidContext)) ∧
    ∀ c, s.cipher? cid = some (some c) → sid < s.nStream →
      (s.sl ≠ blockSizeOf c → exec (.ctrnew sid cid) s = .next (s.recoverableEnd .invalidIVLength false)) ∧
      (s.sl = blockSizeOf c → 2 ^ 32 < s.sa + blockSizeOf c →
        exec (.ctrnew sid cid) s = .next (s.fatalEnd .addressRange)) ∧
      (s.sl = blockSizeOf c → s.sa + blockSizeOf c ≤ 2 ^ 32 →
        exec (.ctrnew sid cid) s = .next
          { s with
            status := s.okStatus
            streams := s.streams.set sid (some
              { cid := cid, bs := blockSizeOf c, ctr := memRead s.mem s.sa (blockSizeOf c), out := [], used := 0 }) })

/-- `CDROP` (`46_block_capability.md` R318) and `SDROP` (`47_ctr.md` R354), on occupied and on empty slots alike. -/
def Obligations.DropsEmptySlots : Prop :=
  (∀ (cid : Nat) (s : State),
    (s.nCipher ≤ cid → exec (.cdrop cid) s = .next (s.fatalEnd .invalidContext)) ∧
    (cid < s.nCipher → exec (.cdrop cid) s = .next
      { s with status := s.okStatus, ciphers := s.ciphers.set cid none, streams := s.streamsWithout cid }) ∧
    (s.Inv → s.cipher? cid = some none → exec (.cdrop cid) s = .next { s with status := s.okStatus })) ∧
  ∀ (sid : Nat) (s : State),
    (s.nStream ≤ sid → exec (.sdrop sid) s = .next (s.fatalEnd .invalidContext)) ∧
    (sid < s.nStream → exec (.sdrop sid) s = .next
      { s with status := s.okStatus, streams := s.streams.set sid none }) ∧
    (s.stream? sid = some none → exec (.sdrop sid) s = .next { s with status := s.okStatus })

/-- No command writes an `ARG` register or the environment's side, only a completing `BLKSIZE` writes `RESULT`
(`10_state.md` R24 to R29), and `STATUS` is rewritten as R28 says. -/
def Obligations.RegistersFrame : Prop :=
  ∀ (i : Instr) (s t : State), exec i s = .next t →
    t.argDst = s.argDst ∧ t.argDlen = s.argDlen ∧ t.argSrc = s.argSrc ∧ t.argSlen = s.argSlen ∧
    t.inputs = s.inputs ∧ t.observed = s.observed ∧ t.freeCount = s.freeCount ∧
    ((∀ cid, i ≠ .blksize cid) ∨ t.status.code ≠ .ok → t.result = s.result) ∧
    t.status.fatal = (s.status.fatal || t.status.code.isFatal) ∧
    (t.status.short = true → t.status.code = .invalidKeySize ∧ ∃ cid, i = .tdeskey cid)

/-- `10_state.md` R36 and `46_block_capability.md` R324: a command changes a cipher slot only if it is a key command or a
`CDROP` that names that slot. -/
def Obligations.CipherSlotsFrame : Prop :=
  (∀ (i : Instr) (s t : State) (j : Nat), exec i s = .next t → t.cipher? j ≠ s.cipher? j →
    i = .aeskey j ∨ i = .deskey j ∨ i = .tdeskey j ∨ i = .cdrop j) ∧
  ∀ (i : Instr) (s t : State) (cid sid : Nat), exec i s = .next t →
    i ∈ [.enc cid, .dec cid, .blksize cid, .ctrnew sid cid, .ctrxor sid] → t.ciphers = s.ciphers

/-- The stream slots a command changes (`10_state.md` R38, `46_block_capability.md` R320, R322): its own slot, or, for a
completing key command or `CDROP`, the slots bound to the cipher slot it names, which become invalid. -/
def Obligations.StreamSlotsFrame : Prop :=
  ∀ (i : Instr) (s t : State) (j : Nat), exec i s = .next t → t.stream? j ≠ s.stream? j →
    t.status.code = .ok ∧
    ((∃ cid, i = .ctrnew j cid) ∨ i = .ctrxor j ∨ i = .sdrop j ∨
      ∃ cid st, (i = .aeskey cid ∨ i = .deskey cid ∨ i = .tdeskey cid ∨ i = .cdrop cid) ∧
        s.stream? j = some (some st) ∧ st.cid = cid ∧ t.stream? j = some none)

/-- Memory outside the bytes a command stores to is unchanged (`20_memory.md` R61, R63, R65): `ENC` and `DEC` store to
the `bs` bytes at `ARG_DST`, `CTRXOR` to the `ARG_SLEN` bytes there, no other command stores. -/
def Obligations.MemoryFrame : Prop :=
  (∀ (i : Instr) (s t : State), exec i s = .next t →
    (∀ cid sid, i ∉ [.enc cid, .dec cid, .ctrxor sid]) → ∀ a, t.mem.read a = s.mem.read a) ∧
  (∀ (cid : Nat) (c : Cipher) (i : Instr) (s t : State), i = .enc cid ∨ i = .dec cid → exec i s = .next t →
    s.cipher? cid = some (some c) → ∀ a, a < s.d ∨ s.d + blockSizeOf c ≤ a → t.mem.read a = s.mem.read a) ∧
  (∀ (cid : Nat) (i : Instr) (s t : State), i = .enc cid ∨ i = .dec cid → exec i s = .next t →
    (∀ c, s.cipher? cid ≠ some (some c)) → ∀ a, t.mem.read a = s.mem.read a) ∧
  (∀ (sid : Nat) (s t : State), exec (.ctrxor sid) s = .next t →
    ∀ a, a < s.d ∨ s.d + s.sl ≤ a → t.mem.read a = s.mem.read a)

/-- A command ignores the `ARG` registers it does not read (`30_encoding.md` R96, R97). -/
def Obligations.UnreadArgRegistersIgnored : Prop :=
  ∀ (s t : State) (i : Instr) (dst dlen src slen : Word), exec i s = .next t →
    (∀ cid sid, i ∈ [.aeskey cid, .deskey cid, .tdeskey cid, .ctrnew sid cid, .blksize cid, .cdrop cid, .sdrop sid] →
      exec i { s with argDst := dst, argDlen := dlen } = .next { t with argDst := dst, argDlen := dlen }) ∧
    (∀ cid sid, i ∈ [.blksize cid, .cdrop cid, .sdrop sid] →
      exec i { s with argSrc := src, argSlen := slen } = .next { t with argSrc := src, argSlen := slen })

/-- Key material is not read out (`10_state.md` R41, `20_memory.md` R61): in two states that differ only in the contents
of schedules, counters and keystream buffers, a command leaves the same registers, the same shape of every slot and the
same memory, but for the destination bytes of `ENC`, `DEC` and `CTRXOR`; and every register reads the same. -/
def Obligations.KeyMaterialIsNotReadOut : Prop :=
  (∀ (i : Instr) (s s' t t' : State), s.Inv → s'.Inv → s.sameShape s' → s.mem = s'.mem →
    exec i s = .next t → exec i s' = .next t' →
    t.sameShape t' ∧ ∀ a, a < s.d ∨ s.d + s.touched i ≤ a → t.mem.read a = t'.mem.read a) ∧
  ∀ (s s' : State) (r : Reg), s.sameShape s' → readReg s r = readReg s' r

/-! ### The cipher units -/

/-- `40_gf256.md` R124: the laws of `GMul`. -/
def Obligations.GmulFieldLaws : Prop :=
  (∀ a : Byte, gmul a 0 = 0 ∧ gmul 0 a = 0 ∧ gmul a 1 = a ∧ gmul 1 a = a ∧ gmul a 2 = xtime a) ∧
  (∀ a b : Byte, gmul a b = gmul b a) ∧
  (∀ a b c : Byte, gmul a (gmul b c) = gmul (gmul a b) c) ∧
  (∀ a b c : Byte, gmul a (b ^^^ c) = gmul a b ^^^ gmul a c) ∧
  ∀ a : Byte, a ≠ 0 → ∃ b, b ≠ 0 ∧ gmul a b = 1 ∧ ∀ b', b' ≠ 0 → gmul a b' = 1 → b' = b

/-- The AES tables are what they are defined as (`41_aes_keyschedule.md` R140, R142, R143): the S-box is the affine map
of the field inverse, a bijection without fixed point, the inverse S-box its inverse, the round constants powers of `x`. -/
def Obligations.AesTablesMeetTheirDefinitions : Prop :=
  (∀ a b : Byte, (a = 0 ∧ b = 0) ∨ (a ≠ 0 ∧ gmul a b = 1) →
    sbox a = b ^^^ b.rotateLeft 1 ^^^ b.rotateLeft 2 ^^^ b.rotateLeft 3 ^^^ b.rotateLeft 4 ^^^ 0x63) ∧
  (∀ a : Byte, sbox a ≠ a ∧ invSbox (sbox a) = a ∧ sbox (invSbox a) = a) ∧
  rcon 1 = 1 ∧ ∀ j, 1 ≤ j → j < 10 → rcon (j + 1) = xtime (rcon j)

/-- Laws of `MixWord` and `InvMixWord` (`41_aes_keyschedule.md` R146, `42_aes_rounds.md` R194): inverse to each other,
linear over exclusive or, and a word of four equal bytes stays as it is. -/
def Obligations.MixWordLaws : Prop :=
  (∀ w : Word, invMixWord (mixWord w) = w ∧ mixWord (invMixWord w) = w) ∧
  (∀ v w : Word, mixWord (v ^^^ w) = mixWord v ^^^ mixWord w ∧ invMixWord (v ^^^ w) = invMixWord v ^^^ invMixWord w) ∧
  ∀ b : Byte, mixWord (be32 b b b b) = be32 b b b b ∧ invMixWord (be32 b b b b) = be32 b b b b

/-- `41_aes_keyschedule.md` R150: the forward schedule word by word, for each of the three key lengths. -/
def Obligations.ExpandKeyRecurrence : Prop :=
  ∀ (key : List Byte) (nk : Nat), nk ∈ [4, 6, 8] → key.length = 4 * nk →
    (expandKey key).length = 4 * (nk + 7) ∧
    (∀ i, i < nk → schedWord (expandKey key) i =
      be32 (byteAt key (4 * i)) (byteAt key (4 * i + 1)) (byteAt key (4 * i + 2)) (byteAt key (4 * i + 3))) ∧
    (∀ i, nk ≤ i → i < 4 * (nk + 7) → i % nk = 0 →
      schedWord (expandKey key) i = schedWord (expandKey key) (i - nk) ^^^
        (subWord ((schedWord (expandKey key) (i - 1)).rotateLeft 8) ^^^ be32 (rcon (i / nk)) 0 0 0)) ∧
    (∀ i, nk ≤ i → i < 4 * (nk + 7) → nk = 8 → i % nk = 4 →
      schedWord (expandKey key) i = schedWord (expandKey key) (i - nk) ^^^ subWord (schedWord (expandKey key) (i - 1))) ∧
    (∀ i, nk ≤ i → i < 4 * (nk + 7) → i % nk ≠ 0 → ¬ (nk = 8 ∧ i % nk = 4) →
      schedWord (expandKey key) i = schedWord (expandKey key) (i - nk) ^^^ schedWord (expandKey key) (i - 1)) ∧
    4 * (nk + 7) - nk ∈ [40, 46, 52] ∧ (4 * (nk + 7) - 1) / nk ∈ [10, 8, 7]

/-- `41_aes_keyschedule.md` R152: the inverse schedule word by word. -/
def Obligations.InvScheduleWords : Prop :=
  ∀ (w : List Word) (nk : Nat), nk ∈ [4, 6, 8] → w.length = 4 * (nk + 7) →
    (invSchedule w nk).length = 4 * (nk + 7) ∧
    (∀ j c, c < 4 → j = 0 ∨ j = nk + 6 →
      schedWord (invSchedule w nk) (4 * j + c) = schedWord w (4 * (nk + 6 - j) + c)) ∧
    (∀ j c, c < 4 → 0 < j → j < nk + 6 →
      schedWord (invSchedule w nk) (4 * j + c) = invMixWord (schedWord w (4 * (nk + 6 - j) + c)))

/-- `42_aes_rounds.md` R186 and R192: the byte moves of `ShiftRows` and `InvShiftRows` on a block, that they undo each
other, and that `InvShiftRows` commutes with `InvSubBytes`. -/
def Obligations.ShiftRowsMovesBytes : Prop :=
  (∀ (blk : List Byte) (i : Nat), blk.length = 16 → i < 16 →
    byteAt (storeState (shiftRows (loadState blk))) i =
      byteAt blk ([0, 5, 10, 15, 4, 9, 14, 3, 8, 13, 2, 7, 12, 1, 6, 11].getD i 0) ∧
    byteAt (storeState (invShiftRows (loadState blk))) i =
      byteAt blk ([0, 13, 10, 7, 4, 1, 14, 11, 8, 5, 2, 15, 12, 9, 6, 3].getD i 0)) ∧
  (∀ s : AesState, invShiftRows (shiftRows s) = s ∧ shiftRows (invShiftRows s) = s ∧
    invShiftRows (invSubBytes s) = invSubBytes (invShiftRows s)) ∧
  ∀ w : Word, shiftRows ⟨w, w, w, w⟩ = ⟨w, w, w, w⟩

/-- `42_aes_rounds.md` R200: AES decryption undoes encryption and the other way round, for every key of every length. -/
def Obligations.AesRoundTrip : Prop :=
  ∀ (key blk : List Byte) (nk : Nat), nk ∈ [4, 6, 8] → key.length = 4 * nk → blk.length = 16 →
    aesDecryptBlock nk (invSchedule (expandKey key) nk) (aesEncryptBlock nk (expandKey key) blk) = blk ∧
    aesEncryptBlock nk (expandKey key) (aesDecryptBlock nk (invSchedule (expandKey key) nk) blk) = blk

/-- `44_des_feistel.md` R252: the Final Permutation is the inverse of the Initial Permutation, with its
example; `00_scope.md` R12 says what a permutation table does. -/
def Obligations.FinalPermutationInvertsInitial : Prop :=
  (∀ v : DWord, perm 64 (perm 64 v ip : DWord) fp = v ∧ perm 64 (perm 64 v fp : DWord) ip = v) ∧
  (perm 64 (0x0A4CD99543423234 : DWord) fp : DWord) = 0x85E813540F0AB405 ∧
  ∀ (n m j : Nat) (v : BitVec n) (table : List Nat), table.length = m → j < m →
    (∀ k ∈ table, 1 ≤ k ∧ k ≤ n) → (perm m v table).getMsbD j = v.getMsbD (table.getD j 0 - 1)

/-- `44_des_feistel.md` R255: S-box addressing. -/
def Obligations.SBoxAddressing : Prop :=
  (∀ (x : BitVec 48) (j : Nat), j < 8 →
    (sBoxes x).extractLsb' (28 - 4 * j) 4 =
      (([s1, s2, s3, s4, s5, s6, s7, s8].getD j []).getD
        (2 * (x.getMsbD (6 * j)).toNat + (x.getMsbD (6 * j + 5)).toNat) []).getD
        (8 * (x.getMsbD (6 * j + 1)).toNat + 4 * (x.getMsbD (6 * j + 2)).toNat +
          2 * (x.getMsbD (6 * j + 3)).toNat + (x.getMsbD (6 * j + 4)).toNat) 0) ∧
  sBoxes 0 = 0xEFA72C4D ∧ sBoxes 0x6117BA866527 = 0x5C82B597

/-- `43_des_keyschedule.md` R224: the rotations accumulate, and each subkey is `PC2` of the rotated halves, stored with 16
zero bits above it. -/
def Obligations.SubkeysAccumulateRotations : Prop :=
  ∀ (key : List Byte), key.length = 8 →
    (desSubkeys key).length = 16 ∧
    ∀ i, i < 16 → (desSubkeys key).getD i 0 =
      (perm 48
        ((((perm 56 (be64 key) pc1 : BitVec 56).extractLsb' 28 28).rotateLeft ((rot.take (i + 1)).sum) ++
          ((perm 56 (be64 key) pc1 : BitVec 56).extractLsb' 0 28).rotateLeft ((rot.take (i + 1)).sum) :
          BitVec 56)) pc2 : BitVec 48).setWidth 64

/-- The parity bits of a DES key have no effect (`43_des_keyschedule.md` R220), and bits 63:48 of a stored subkey are 0
(`10_state.md` R34). -/
def Obligations.ParityBitsIgnored : Prop :=
  (∀ key key' : List Byte, key.length = 8 → key'.length = 8 →
    (∀ i, i < 8 → byteAt key i &&& 0xFE = byteAt key' i &&& 0xFE) → desSubkeys key = desSubkeys key') ∧
  ∀ (key : List Byte) (i : Nat), ((desSubkeys key).getD i 0).extractLsb' 48 16 = 0

/-- `44_des_feistel.md` R260: DES decryption undoes encryption and the other way round, for every schedule. -/
def Obligations.DesRoundTrip : Prop :=
  ∀ (ks : List DWord) (blk : List Byte), blk.length = 8 →
    desCrypt ks (desCrypt ks blk false) true = blk ∧ desCrypt ks (desCrypt ks blk true) false = blk

/-- `45_tdes.md` R294: the laws of Triple-DES. -/
def Obligations.TripleDesLaws : Prop :=
  ∀ (ks1 ks2 ks3 : List DWord) (blk : List Byte), blk.length = 8 →
    tdesDecryptBlock ks1 ks2 ks3 (tdesEncryptBlock ks1 ks2 ks3 blk) = blk ∧
    tdesEncryptBlock ks1 ks2 ks3 (tdesDecryptBlock ks1 ks2 ks3 blk) = blk ∧
    tdesEncryptBlock ks1 ks1 ks3 blk = desCrypt ks3 blk false ∧
    tdesEncryptBlock ks1 ks1 ks1 blk = desCrypt ks1 blk false

/-- `46_block_capability.md` R311: blocks keep their length and the two functions undo each other, for every context a key
command can build. -/
def Obligations.BlockRoundTrip : Prop :=
  ∀ (c : Cipher) (blk : List Byte), c.wf → blk.length = blockSizeOf c →
    (encryptBlock c blk).length = blockSizeOf c ∧ (decryptBlock c blk).length = blockSizeOf c ∧
    decryptBlock c (encryptBlock c blk) = blk ∧ encryptBlock c (decryptBlock c blk) = blk

/-- On the machine: an in-place `ENC` that completes, then `DEC` with the same descriptors, gives all of memory back, and
the other way round (`46_block_capability.md` R311, R314, R316). -/
def Obligations.EncThenDecRestoresMemory : Prop :=
  ∀ (cid : Nat) (s t : State), s.Inv → s.argDst = s.argSrc → t.status.code = .ok →
    (exec (.enc cid) s = .next t → exec (.dec cid) t = .next { s with status := s.okStatus }) ∧
    (exec (.dec cid) s = .next t → exec (.enc cid) t = .next { s with status := s.okStatus })

/-! ### Counter mode -/

/-- `47_ctr.md` R340: the counter is a big-endian unsigned integer, incremented modulo `2^(8*bs)` over its whole width. -/
def Obligations.CtrIncIsModular : Prop :=
  ∀ ctr : List Byte, (ctrInc ctr).length = ctr.length ∧ beNat (ctrInc ctr) = (beNat ctr + 1) % 2 ^ (8 * ctr.length)

/-- `47_ctr.md` R348: the state after a refill. -/
def Obligations.RefillState : Prop :=
  ∀ (c : Cipher) (st : Stream), st.bs = blockSizeOf c → st.used ≤ st.fill → st.fill ≤ 512 →
    st.fill - st.used < st.bs →
    (refill c st).used = 0 ∧
    (refill c st).fill = (st.fill - st.used) + st.bs * ((512 - (st.fill - st.used)) / st.bs) ∧
    (refill c st).fill ≤ 512 ∧ 512 - (refill c st).fill < st.bs ∧
    (st.fill - st.used = 0 → (refill c st).fill = 512) ∧
    (refill c st).ctr = ctrAdd st.ctr ((512 - (st.fill - st.used)) / st.bs) ∧
    (refill c st).cid = st.cid ∧ (refill c st).bs = st.bs ∧
    (∀ j, j < st.fill - st.used → byteAt (refill c st).out j = byteAt st.out (st.used + j)) ∧
    ∀ b j, b < (512 - (st.fill - st.used)) / st.bs → j < st.bs →
      byteAt (refill c st).out ((st.fill - st.used) + st.bs * b + j) = byteAt (encryptBlock c (ctrAdd st.ctr b)) j

/-- `47_ctr.md` R356: a new stream is at position 0 of the keystream of its cipher context and IV; a `CTRXOR` at
position `p` writes `src[i] ^ KS[p + i]`, changes no other byte, and leaves the stream at position `p + sl`. -/
def Obligations.StreamConsumesKeystream : Prop :=
  (∀ (sid cid : Nat) (c : Cipher) (s : State), s.cipher? cid = some (some c) → sid < s.nStream →
    s.sl = blockSizeOf c → s.sa + s.sl ≤ 2 ^ 32 →
    ∃ t st, exec (.ctrnew sid cid) s = .next t ∧ t.stream? sid = some (some st) ∧ st.cid = cid ∧
      st.At c (memRead s.mem s.sa s.sl) 0) ∧
  ∀ (sid p : Nat) (st : Stream) (c : Cipher) (iv : List Byte) (s : State), s.mem.wf →
    s.stream? sid = some (some st) → s.cipher? st.cid = some (some c) → st.At c iv p →
    s.sl ≤ s.dl → s.sa + s.sl ≤ 2 ^ 32 → s.d + s.dl ≤ 2 ^ 32 → identicalOrDisjoint s.d s.sa s.sl →
    ∃ (m : Memory) (st' : Stream),
      exec (.ctrxor sid) s = .next { s with status := s.okStatus, mem := m, streams := s.streams.set sid (some st') } ∧
      st'.cid = st.cid ∧ st'.At c iv (p + s.sl) ∧
      (∀ i, i < s.sl → m.read (s.d + i) = s.mem.read (s.sa + i) ^^^ keystreamByte c iv (p + i)) ∧
      ∀ a, a < s.d ∨ s.d + s.sl ≤ a → m.read a = s.mem.read a

/-- The hidden state after `CTRXOR` (`47_ctr.md` R346, R350, R358): with `rem` unconsumed bytes on entry, at most one
refill with `rem` moved bytes comes first, and every later one starts from an empty buffer. -/
def Obligations.CtrxorHiddenState : Prop :=
  ∀ (sid p rem first blocks : Nat) (st st' : Stream) (c : Cipher) (iv : List Byte) (s t : State),
    s.stream? sid = some (some st) → s.cipher? st.cid = some (some c) → st.At c iv p →
    exec (.ctrxor sid) s = .next t → t.status.code = .ok → t.stream? sid = some (some st') → 0 < s.sl →
    rem = st.fill - st.used →
    blocks = (if rem < st.bs then (512 - rem) / st.bs else 0) → first = rem + st.bs * blocks →
    st'.cid = st.cid ∧ st'.bs = st.bs ∧
    (s.sl ≤ first → st.bs ≤ rem →
      st' = { st with used := st.used + s.sl }) ∧
    (s.sl ≤ first → rem < st.bs →
      st'.fill = first ∧ st'.used = s.sl ∧ st'.ctr = ctrAdd st.ctr blocks ∧
        ∀ j, j < st'.fill → byteAt st'.out j = keystreamByte c iv (p + j)) ∧
    (first < s.sl →
      st'.fill = 512 ∧ st'.used = s.sl - first - 512 * ((s.sl - first - 1) / 512) ∧
        st'.ctr = ctrAdd st.ctr (blocks + ((s.sl - first - 1) / 512 + 1) * (512 / st.bs)) ∧
        ∀ j, j < st'.fill → byteAt st'.out j = keystreamByte c iv (p + s.sl - st'.used + j))

/-- Chunking and prefix (`47_ctr.md` R357): one `CTRXOR` of `a + b` bytes leaves memory as a `CTRXOR` of `a` bytes and
one of `b` bytes on the next addresses do, and a shorter `CTRXOR` gives a prefix of the output. -/
def Obligations.CtrxorChunkingAndPrefix : Prop :=
  ∀ (sid a b : Nat) (s t : State), s.Inv → s.sl = a + b → exec (.ctrxor sid) s = .next t → t.status.code = .ok →
    ∃ t1 t2,
      exec (.ctrxor sid) { s with argSlen := BitVec.ofNat 32 a, argDlen := BitVec.ofNat 32 a } = .next t1 ∧
      exec (.ctrxor sid)
        { t1 with
          argSrc := BitVec.ofNat 32 (s.sa + a)
          argSlen := BitVec.ofNat 32 b
          argDst := BitVec.ofNat 32 (s.d + a)
          argDlen := BitVec.ofNat 32 b } = .next t2 ∧
      t1.status.code = .ok ∧ t2.status.code = .ok ∧ t2.mem = t.mem ∧
      ∀ i, i < a → t1.mem.read (s.d + i) = t.mem.read (s.d + i)

/-- Self-inverse (`47_ctr.md` R357): two streams with equal cipher context contents and IV, both fresh; the second, fed
the first one's output, gives the first one's input back, wherever it is put. -/
def Obligations.CtrxorIsSelfInverse : Prop :=
  ∀ (sid sid' : Nat) (st st' : Stream) (c : Cipher) (iv : List Byte) (dst dlen : Word) (s t : State), s.Inv →
    sid ≠ sid' → s.stream? sid = some (some st) → s.stream? sid' = some (some st') →
    s.cipher? st.cid = some (some c) → s.cipher? st'.cid = some (some c) → st.At c iv 0 → st'.At c iv 0 →
    exec (.ctrxor sid) s = .next t → t.status.code = .ok →
    s.sl ≤ dlen.toNat → dst.toNat + dlen.toNat ≤ 2 ^ 32 → identicalOrDisjoint dst.toNat s.d s.sl →
    ∃ u, exec (.ctrxor sid') { t with argSrc := s.argDst, argDst := dst, argDlen := dlen } = .next u ∧
      u.status.code = .ok ∧ ∀ i, i < s.sl → u.mem.read (dst.toNat + i) = s.mem.read (s.sa + i)

/-- `CTRXOR` of length 0 does nothing but complete (`47_ctr.md` R352); that the declared destination must still lie below
the top of memory is the model's reading of R411 (log 18). -/
def Obligations.CtrxorOfNothingOnlyCompletes : Prop :=
  ∀ (sid : Nat) (s : State), s.Inv → s.sl = 0 →
    (s.stream? sid = none ∨ s.stream? sid = some none → exec (.ctrxor sid) s = .next (s.fatalEnd .invalidContext)) ∧
    ∀ st, s.stream? sid = some (some st) → s.d + s.dl ≤ 2 ^ 32 →
      exec (.ctrxor sid) s = .next { s with status := s.okStatus }
end

