-- ==== Sys2Proof/Laws/State.lean ====
section
/-! SUPPORT. One lemma per field per update of State, true by `rfl`, so that no proof unfolds a record update. -/

namespace Sys2Proof.Machine

@[simp] theorem raise_argDst (code : Code) (short : Bool) (s : State) : (raise code short s).argDst = s.argDst := rfl
@[simp] theorem raise_argDlen (code : Code) (short : Bool) (s : State) : (raise code short s).argDlen = s.argDlen := rfl
@[simp] theorem raise_argSrc (code : Code) (short : Bool) (s : State) : (raise code short s).argSrc = s.argSrc := rfl
@[simp] theorem raise_argSlen (code : Code) (short : Bool) (s : State) : (raise code short s).argSlen = s.argSlen := rfl
@[simp] theorem raise_status (code : Code) (short : Bool) (s : State) : (raise code short s).status = ({ code := code, fatal := s.status.fatal || code.isFatal, short := short } : Status) := rfl
@[simp] theorem raise_result (code : Code) (short : Bool) (s : State) : (raise code short s).result = s.result := rfl
@[simp] theorem raise_ciphers (code : Code) (short : Bool) (s : State) : (raise code short s).ciphers = s.ciphers := rfl
@[simp] theorem raise_streams (code : Code) (short : Bool) (s : State) : (raise code short s).streams = s.streams := rfl
@[simp] theorem raise_mem (code : Code) (short : Bool) (s : State) : (raise code short s).mem = s.mem := rfl
@[simp] theorem raise_inputs (code : Code) (short : Bool) (s : State) : (raise code short s).inputs = s.inputs := rfl
@[simp] theorem raise_observed (code : Code) (short : Bool) (s : State) : (raise code short s).observed = s.observed := rfl
@[simp] theorem raise_freeCount (code : Code) (short : Bool) (s : State) : (raise code short s).freeCount = s.freeCount := rfl

@[simp] theorem complete_argDst (s : State) : (complete s).argDst = s.argDst := rfl
@[simp] theorem complete_argDlen (s : State) : (complete s).argDlen = s.argDlen := rfl
@[simp] theorem complete_argSrc (s : State) : (complete s).argSrc = s.argSrc := rfl
@[simp] theorem complete_argSlen (s : State) : (complete s).argSlen = s.argSlen := rfl
@[simp] theorem complete_status (s : State) : (complete s).status = ({ code := .ok, fatal := s.status.fatal, short := false } : Status) := rfl
@[simp] theorem complete_result (s : State) : (complete s).result = s.result := rfl
@[simp] theorem complete_ciphers (s : State) : (complete s).ciphers = s.ciphers := rfl
@[simp] theorem complete_streams (s : State) : (complete s).streams = s.streams := rfl
@[simp] theorem complete_mem (s : State) : (complete s).mem = s.mem := rfl
@[simp] theorem complete_inputs (s : State) : (complete s).inputs = s.inputs := rfl
@[simp] theorem complete_observed (s : State) : (complete s).observed = s.observed := rfl
@[simp] theorem complete_freeCount (s : State) : (complete s).freeCount = s.freeCount := rfl

@[simp] theorem setCipher_argDst (cid : Nat) (c : Option Cipher) (s : State) : (setCipher cid c s).argDst = s.argDst := rfl
@[simp] theorem setCipher_argDlen (cid : Nat) (c : Option Cipher) (s : State) : (setCipher cid c s).argDlen = s.argDlen := rfl
@[simp] theorem setCipher_argSrc (cid : Nat) (c : Option Cipher) (s : State) : (setCipher cid c s).argSrc = s.argSrc := rfl
@[simp] theorem setCipher_argSlen (cid : Nat) (c : Option Cipher) (s : State) : (setCipher cid c s).argSlen = s.argSlen := rfl
@[simp] theorem setCipher_status (cid : Nat) (c : Option Cipher) (s : State) : (setCipher cid c s).status = s.status := rfl
@[simp] theorem setCipher_result (cid : Nat) (c : Option Cipher) (s : State) : (setCipher cid c s).result = s.result := rfl
@[simp] theorem setCipher_ciphers (cid : Nat) (c : Option Cipher) (s : State) : (setCipher cid c s).ciphers = s.ciphers.set cid c := rfl
@[simp] theorem setCipher_streams (cid : Nat) (c : Option Cipher) (s : State) : (setCipher cid c s).streams = s.streams := rfl
@[simp] theorem setCipher_mem (cid : Nat) (c : Option Cipher) (s : State) : (setCipher cid c s).mem = s.mem := rfl
@[simp] theorem setCipher_inputs (cid : Nat) (c : Option Cipher) (s : State) : (setCipher cid c s).inputs = s.inputs := rfl
@[simp] theorem setCipher_observed (cid : Nat) (c : Option Cipher) (s : State) : (setCipher cid c s).observed = s.observed := rfl
@[simp] theorem setCipher_freeCount (cid : Nat) (c : Option Cipher) (s : State) : (setCipher cid c s).freeCount = s.freeCount := rfl

@[simp] theorem setStream_argDst (sid : Nat) (st : Option Stream) (s : State) : (setStream sid st s).argDst = s.argDst := rfl
@[simp] theorem setStream_argDlen (sid : Nat) (st : Option Stream) (s : State) : (setStream sid st s).argDlen = s.argDlen := rfl
@[simp] theorem setStream_argSrc (sid : Nat) (st : Option Stream) (s : State) : (setStream sid st s).argSrc = s.argSrc := rfl
@[simp] theorem setStream_argSlen (sid : Nat) (st : Option Stream) (s : State) : (setStream sid st s).argSlen = s.argSlen := rfl
@[simp] theorem setStream_status (sid : Nat) (st : Option Stream) (s : State) : (setStream sid st s).status = s.status := rfl
@[simp] theorem setStream_result (sid : Nat) (st : Option Stream) (s : State) : (setStream sid st s).result = s.result := rfl
@[simp] theorem setStream_ciphers (sid : Nat) (st : Option Stream) (s : State) : (setStream sid st s).ciphers = s.ciphers := rfl
@[simp] theorem setStream_streams (sid : Nat) (st : Option Stream) (s : State) : (setStream sid st s).streams = s.streams.set sid st := rfl
@[simp] theorem setStream_mem (sid : Nat) (st : Option Stream) (s : State) : (setStream sid st s).mem = s.mem := rfl
@[simp] theorem setStream_inputs (sid : Nat) (st : Option Stream) (s : State) : (setStream sid st s).inputs = s.inputs := rfl
@[simp] theorem setStream_observed (sid : Nat) (st : Option Stream) (s : State) : (setStream sid st s).observed = s.observed := rfl
@[simp] theorem setStream_freeCount (sid : Nat) (st : Option Stream) (s : State) : (setStream sid st s).freeCount = s.freeCount := rfl

@[simp] theorem dropStreamsOf_argDst (cid : Nat) (s : State) : (dropStreamsOf cid s).argDst = s.argDst := rfl
@[simp] theorem dropStreamsOf_argDlen (cid : Nat) (s : State) : (dropStreamsOf cid s).argDlen = s.argDlen := rfl
@[simp] theorem dropStreamsOf_argSrc (cid : Nat) (s : State) : (dropStreamsOf cid s).argSrc = s.argSrc := rfl
@[simp] theorem dropStreamsOf_argSlen (cid : Nat) (s : State) : (dropStreamsOf cid s).argSlen = s.argSlen := rfl
@[simp] theorem dropStreamsOf_status (cid : Nat) (s : State) : (dropStreamsOf cid s).status = s.status := rfl
@[simp] theorem dropStreamsOf_result (cid : Nat) (s : State) : (dropStreamsOf cid s).result = s.result := rfl
@[simp] theorem dropStreamsOf_ciphers (cid : Nat) (s : State) : (dropStreamsOf cid s).ciphers = s.ciphers := rfl
@[simp] theorem dropStreamsOf_streams (cid : Nat) (s : State) : (dropStreamsOf cid s).streams = s.streams.map fun slot => slot.filter fun st => st.cid != cid := rfl
@[simp] theorem dropStreamsOf_mem (cid : Nat) (s : State) : (dropStreamsOf cid s).mem = s.mem := rfl
@[simp] theorem dropStreamsOf_inputs (cid : Nat) (s : State) : (dropStreamsOf cid s).inputs = s.inputs := rfl
@[simp] theorem dropStreamsOf_observed (cid : Nat) (s : State) : (dropStreamsOf cid s).observed = s.observed := rfl
@[simp] theorem dropStreamsOf_freeCount (cid : Nat) (s : State) : (dropStreamsOf cid s).freeCount = s.freeCount := rfl

@[simp] theorem observe_argDst (o : Observation) (s : State) : (observe o s).argDst = s.argDst := rfl
@[simp] theorem observe_argDlen (o : Observation) (s : State) : (observe o s).argDlen = s.argDlen := rfl
@[simp] theorem observe_argSrc (o : Observation) (s : State) : (observe o s).argSrc = s.argSrc := rfl
@[simp] theorem observe_argSlen (o : Observation) (s : State) : (observe o s).argSlen = s.argSlen := rfl
@[simp] theorem observe_status (o : Observation) (s : State) : (observe o s).status = s.status := rfl
@[simp] theorem observe_result (o : Observation) (s : State) : (observe o s).result = s.result := rfl
@[simp] theorem observe_ciphers (o : Observation) (s : State) : (observe o s).ciphers = s.ciphers := rfl
@[simp] theorem observe_streams (o : Observation) (s : State) : (observe o s).streams = s.streams := rfl
@[simp] theorem observe_mem (o : Observation) (s : State) : (observe o s).mem = s.mem := rfl
@[simp] theorem observe_inputs (o : Observation) (s : State) : (observe o s).inputs = s.inputs := rfl
@[simp] theorem observe_observed (o : Observation) (s : State) : (observe o s).observed = o :: s.observed := rfl
@[simp] theorem observe_freeCount (o : Observation) (s : State) : (observe o s).freeCount = s.freeCount := rfl

@[simp] theorem resetEngine_argDst (s : State) : (resetEngine s).argDst = 0 := rfl
@[simp] theorem resetEngine_argDlen (s : State) : (resetEngine s).argDlen = 0 := rfl
@[simp] theorem resetEngine_argSrc (s : State) : (resetEngine s).argSrc = 0 := rfl
@[simp] theorem resetEngine_argSlen (s : State) : (resetEngine s).argSlen = 0 := rfl
@[simp] theorem resetEngine_status (s : State) : (resetEngine s).status = ({ code := .ok, fatal := false, short := false } : Status) := rfl
@[simp] theorem resetEngine_result (s : State) : (resetEngine s).result = 0 := rfl
@[simp] theorem resetEngine_ciphers (s : State) : (resetEngine s).ciphers = List.replicate s.nCipher none := rfl
@[simp] theorem resetEngine_streams (s : State) : (resetEngine s).streams = List.replicate s.nStream none := rfl
@[simp] theorem resetEngine_mem (s : State) : (resetEngine s).mem = s.mem := rfl
@[simp] theorem resetEngine_inputs (s : State) : (resetEngine s).inputs = s.inputs := rfl
@[simp] theorem resetEngine_observed (s : State) : (resetEngine s).observed = s.observed := rfl
@[simp] theorem resetEngine_freeCount (s : State) : (resetEngine s).freeCount = s.freeCount := rfl

@[simp] theorem raise_d (code : Code) (short : Bool) (s : State) : (raise code short s).d = s.d := rfl
@[simp] theorem complete_d (s : State) : (complete s).d = s.d := rfl
@[simp] theorem setCipher_d (cid : Nat) (c : Option Cipher) (s : State) : (setCipher cid c s).d = s.d := rfl
@[simp] theorem setStream_d (sid : Nat) (st : Option Stream) (s : State) : (setStream sid st s).d = s.d := rfl
@[simp] theorem dropStreamsOf_d (cid : Nat) (s : State) : (dropStreamsOf cid s).d = s.d := rfl
@[simp] theorem observe_d (o : Observation) (s : State) : (observe o s).d = s.d := rfl
@[simp] theorem raise_dl (code : Code) (short : Bool) (s : State) : (raise code short s).dl = s.dl := rfl
@[simp] theorem complete_dl (s : State) : (complete s).dl = s.dl := rfl
@[simp] theorem setCipher_dl (cid : Nat) (c : Option Cipher) (s : State) : (setCipher cid c s).dl = s.dl := rfl
@[simp] theorem setStream_dl (sid : Nat) (st : Option Stream) (s : State) : (setStream sid st s).dl = s.dl := rfl
@[simp] theorem dropStreamsOf_dl (cid : Nat) (s : State) : (dropStreamsOf cid s).dl = s.dl := rfl
@[simp] theorem observe_dl (o : Observation) (s : State) : (observe o s).dl = s.dl := rfl
@[simp] theorem raise_sa (code : Code) (short : Bool) (s : State) : (raise code short s).sa = s.sa := rfl
@[simp] theorem complete_sa (s : State) : (complete s).sa = s.sa := rfl
@[simp] theorem setCipher_sa (cid : Nat) (c : Option Cipher) (s : State) : (setCipher cid c s).sa = s.sa := rfl
@[simp] theorem setStream_sa (sid : Nat) (st : Option Stream) (s : State) : (setStream sid st s).sa = s.sa := rfl
@[simp] theorem dropStreamsOf_sa (cid : Nat) (s : State) : (dropStreamsOf cid s).sa = s.sa := rfl
@[simp] theorem observe_sa (o : Observation) (s : State) : (observe o s).sa = s.sa := rfl
@[simp] theorem raise_sl (code : Code) (short : Bool) (s : State) : (raise code short s).sl = s.sl := rfl
@[simp] theorem complete_sl (s : State) : (complete s).sl = s.sl := rfl
@[simp] theorem setCipher_sl (cid : Nat) (c : Option Cipher) (s : State) : (setCipher cid c s).sl = s.sl := rfl
@[simp] theorem setStream_sl (sid : Nat) (st : Option Stream) (s : State) : (setStream sid st s).sl = s.sl := rfl
@[simp] theorem dropStreamsOf_sl (cid : Nat) (s : State) : (dropStreamsOf cid s).sl = s.sl := rfl
@[simp] theorem observe_sl (o : Observation) (s : State) : (observe o s).sl = s.sl := rfl

@[simp] theorem raise_nCipher (code : Code) (short : Bool) (s : State) : (raise code short s).nCipher = s.nCipher := by simp [State.nCipher]
@[simp] theorem raise_nStream (code : Code) (short : Bool) (s : State) : (raise code short s).nStream = s.nStream := by simp [State.nStream]
@[simp] theorem complete_nCipher (s : State) : (complete s).nCipher = s.nCipher := by simp [State.nCipher]
@[simp] theorem complete_nStream (s : State) : (complete s).nStream = s.nStream := by simp [State.nStream]
@[simp] theorem setCipher_nCipher (cid : Nat) (c : Option Cipher) (s : State) : (setCipher cid c s).nCipher = s.nCipher := by simp [State.nCipher]
@[simp] theorem setCipher_nStream (cid : Nat) (c : Option Cipher) (s : State) : (setCipher cid c s).nStream = s.nStream := by simp [State.nStream]
@[simp] theorem setStream_nCipher (sid : Nat) (st : Option Stream) (s : State) : (setStream sid st s).nCipher = s.nCipher := by simp [State.nCipher]
@[simp] theorem setStream_nStream (sid : Nat) (st : Option Stream) (s : State) : (setStream sid st s).nStream = s.nStream := by simp [State.nStream]
@[simp] theorem dropStreamsOf_nCipher (cid : Nat) (s : State) : (dropStreamsOf cid s).nCipher = s.nCipher := by simp [State.nCipher]
@[simp] theorem dropStreamsOf_nStream (cid : Nat) (s : State) : (dropStreamsOf cid s).nStream = s.nStream := by simp [State.nStream]
@[simp] theorem observe_nCipher (o : Observation) (s : State) : (observe o s).nCipher = s.nCipher := by simp [State.nCipher]
@[simp] theorem observe_nStream (o : Observation) (s : State) : (observe o s).nStream = s.nStream := by simp [State.nStream]
@[simp] theorem resetEngine_nCipher (s : State) : (resetEngine s).nCipher = s.nCipher := by simp [State.nCipher]
@[simp] theorem resetEngine_nStream (s : State) : (resetEngine s).nStream = s.nStream := by simp [State.nStream]

end Sys2Proof.Machine
end

