-- ==== Sys2Proof/Laws/Memory.lean ====
section
/-! SUPPORT. Buffer memory: what a read after a write gives, and that every operation keeps the canonical form. -/

namespace Sys2Proof.Machine

/-! ### One byte -/

@[simp] theorem read_nil (a : Nat) : Memory.read [] a = unlistedByte a := rfl

theorem read_cons (k : Nat) (v : Byte) (rest : Memory) (a : Nat) :
    Memory.read ((k, v) :: rest) a = if a = k then v else Memory.read rest a := rfl

theorem read_push_other {a x : Nat} (b : Byte) (rest : Memory) (h : x ≠ a) :
    Memory.read (Memory.push a b rest) x = Memory.read rest x := by
  unfold Memory.push
  split <;> simp [read_cons, h]

/-- An address below every listed one, or listed nowhere, reads as an unlisted byte. -/
theorem read_of_not_mem {m : Memory} {a : Nat} (h : ∀ c ∈ m, c.1 ≠ a) : m.read a = unlistedByte a := by
  induction m with
  | nil => rfl
  | cons c rest ih =>
    obtain ⟨k, v⟩ := c
    have hk : a ≠ k := fun e => h (k, v) (by simp) e.symm
    rw [read_cons, if_neg hk]
    exact ih fun c hc => h c (List.mem_cons_of_mem _ hc)

theorem read_push_same {a : Nat} (b : Byte) {rest : Memory} (h : ∀ c ∈ rest, a < c.1) :
    Memory.read (Memory.push a b rest) a = b := by
  unfold Memory.push
  split
  · next hb => rw [hb]; exact read_of_not_mem fun c hc => Nat.ne_of_gt (h c hc)
  · simp [read_cons]

/-- A write leaves every other byte alone (`20_memory.md` R63). -/
theorem read_write_other (m : Memory) {a x : Nat} (b : Byte) (h : x ≠ a) :
    (m.write a b).read x = m.read x := by
  induction m with
  | nil => exact read_push_other b [] h
  | cons c rest ih =>
    obtain ⟨k, v⟩ := c
    unfold Memory.write
    split
    · exact read_push_other b _ h
    · split
      · next hk => rw [read_push_other b rest h, read_cons, if_neg (hk ▸ h)]
      · rw [read_cons, read_cons, ih]

theorem Memory.wf.tail {c : Host.Cell} {m : Memory} (h : Memory.wf (c :: m)) : Memory.wf m :=
  ⟨(List.pairwise_cons.1 h.1).2, fun x hx => h.2 x (List.mem_cons_of_mem _ hx)⟩

theorem Memory.wf.head_lt {c : Host.Cell} {m : Memory} (h : Memory.wf (c :: m)) : ∀ x ∈ m, c.1 < x.1 :=
  (List.pairwise_cons.1 h.1).1

/-- A read after a write to the same address gives the value written (`20_memory.md` R63). -/
theorem read_write_same {m : Memory} (hm : Memory.wf m) (a : Nat) (b : Byte) : (m.write a b).read a = b := by
  induction m with
  | nil => exact read_push_same b (by simp)
  | cons c rest ih =>
    obtain ⟨k, v⟩ := c
    have hlt := hm.head_lt
    unfold Memory.write
    split
    · next h =>
      refine read_push_same b fun c hc => ?_
      rcases List.mem_cons.1 hc with rfl | hc
      · exact h
      · exact Nat.lt_trans h (hlt c hc)
    · split
      · next h => exact read_push_same b fun c hc => h ▸ hlt c hc
      · next h => rw [read_cons, if_neg h]; exact ih hm.tail

theorem read_write {m : Memory} (hm : Memory.wf m) (a x : Nat) (b : Byte) :
    (m.write a b).read x = if x = a then b else m.read x := by
  split
  · next h => rw [h]; exact read_write_same hm a b
  · next h => exact read_write_other m b h

/-! ### The canonical form -/

theorem wf_nil : Memory.wf [] := ⟨List.Pairwise.nil, fun _ h => nomatch h⟩

theorem wf_push {a : Nat} {b : Byte} {rest : Memory} (hr : Memory.wf rest) (ha : a < Config.memSize ∨ b = unlistedByte a)
    (h : ∀ c ∈ rest, a < c.1) : Memory.wf (Memory.push a b rest) := by
  unfold Memory.push
  split
  · exact hr
  · next hb =>
    refine ⟨List.pairwise_cons.2 ⟨h, hr.1⟩, fun c hc => ?_⟩
    rcases List.mem_cons.1 hc with rfl | hc
    · exact ⟨ha.resolve_right hb, hb⟩
    · exact hr.2 c hc

theorem mem_write_addr {m : Memory} {a : Nat} {b : Byte} {c : Host.Cell} (h : c ∈ m.write a b) :
    c.1 = a ∨ ∃ x ∈ m, x.1 = c.1 := by
  induction m with
  | nil =>
    unfold Memory.write Memory.push at h
    split at h
    · simp at h
    · simp at h; exact .inl (by rw [h])
  | cons d rest ih =>
    obtain ⟨k, v⟩ := d
    unfold Memory.write at h
    split at h
    · unfold Memory.push at h
      split at h
      · exact .inr ⟨c, h, rfl⟩
      · rcases List.mem_cons.1 h with rfl | h
        · exact .inl rfl
        · exact .inr ⟨c, h, rfl⟩
    · split at h
      · unfold Memory.push at h
        split at h
        · exact .inr ⟨c, List.mem_cons_of_mem _ h, rfl⟩
        · rcases List.mem_cons.1 h with rfl | h
          · exact .inl rfl
          · exact .inr ⟨c, List.mem_cons_of_mem _ h, rfl⟩
      · rcases List.mem_cons.1 h with rfl | h
        · exact .inr ⟨_, List.mem_cons_self .., rfl⟩
        · rcases ih h with h | ⟨x, hx, e⟩
          · exact .inl h
          · exact .inr ⟨x, List.mem_cons_of_mem _ hx, e⟩

/-- A write keeps the canonical form. Outside the address space only the write of an unlisted byte does. -/
theorem wf_write {m : Memory} (hm : Memory.wf m) {a : Nat} {b : Byte}
    (ha : a < Config.memSize ∨ b = unlistedByte a) : Memory.wf (m.write a b) := by
  induction m with
  | nil => exact wf_push wf_nil ha (by simp)
  | cons c rest ih =>
    obtain ⟨k, v⟩ := c
    have hlt := hm.head_lt
    unfold Memory.write
    split
    · next h =>
      refine wf_push hm ha fun c hc => ?_
      rcases List.mem_cons.1 hc with rfl | hc
      · exact h
      · exact Nat.lt_trans h (hlt c hc)
    · split
      · next h => exact wf_push hm.tail ha fun c hc => h ▸ hlt c hc
      · next h1 h2 =>
        have hw := ih hm.tail
        refine ⟨List.pairwise_cons.2 ⟨fun c hc => ?_, hw.1⟩, fun c hc => ?_⟩
        · rcases mem_write_addr hc with h | ⟨x, hx, e⟩
          · omega
          · exact e ▸ hlt x hx
        · rcases List.mem_cons.1 hc with rfl | hc
          · exact hm.2 _ (List.mem_cons_self ..)
          · exact hw.2 c hc

theorem wf_write_of_lt {m : Memory} (hm : Memory.wf m) {a : Nat} (b : Byte) (ha : a < Config.memSize) :
    Memory.wf (m.write a b) := wf_write hm (.inl ha)

/-- Nothing is listed outside the address space. -/
theorem read_outside {m : Memory} (hm : Memory.wf m) {a : Nat} (ha : Config.memSize ≤ a) :
    m.read a = unlistedByte a :=
  read_of_not_mem fun c hc e => by have := (hm.2 c hc).1; omega

/-- In canonical form, equal contents are equal data. -/
theorem eq_of_read_eq {m m' : Memory} (hm : Memory.wf m) (hm' : Memory.wf m') (h : ∀ a, m.read a = m'.read a) :
    m = m' := by
  induction m generalizing m' with
  | nil =>
    cases m' with
    | nil => rfl
    | cons c rest =>
      obtain ⟨k, v⟩ := c
      have := h k
      rw [read_nil, read_cons, if_pos rfl] at this
      exact absurd this.symm (hm'.2 (k, v) (List.mem_cons_self ..)).2
  | cons c rest ih =>
    obtain ⟨k, v⟩ := c
    have hv := (hm.2 (k, v) (List.mem_cons_self ..)).2
    have hk : Memory.read ((k, v) :: rest) k = v := by rw [read_cons, if_pos rfl]
    cases m' with
    | nil => exact absurd (by simpa [hk] using h k) hv
    | cons c' rest' =>
      obtain ⟨k', v'⟩ := c'
      have hv' := (hm'.2 (k', v') (List.mem_cons_self ..)).2
      have hk' : Memory.read ((k', v') :: rest') k' = v' := by rw [read_cons, if_pos rfl]
      have hkk : k = k' := by
        rcases Nat.lt_trichotomy k k' with hlt | he | hgt
        · refine absurd ?_ hv
          have hr : Memory.read ((k', v') :: rest') k = unlistedByte k := read_of_not_mem fun x hx => by
            rcases List.mem_cons.1 hx with rfl | hx
            · exact Nat.ne_of_gt hlt
            · exact Nat.ne_of_gt (Nat.lt_trans hlt (hm'.head_lt x hx))
          rw [← hk, h k, hr]
        · exact he
        · refine absurd ?_ hv'
          have hr : Memory.read ((k, v) :: rest) k' = unlistedByte k' := read_of_not_mem fun x hx => by
            rcases List.mem_cons.1 hx with rfl | hx
            · exact Nat.ne_of_gt hgt
            · exact Nat.ne_of_gt (Nat.lt_trans hgt (hm.head_lt x hx))
          rw [← hk', ← h k', hr]
      subst hkk
      have hvv : v = v' := by rw [← hk, h k, hk']
      subst hvv
      congr 1
      refine ih hm.tail hm'.tail fun a => ?_
      by_cases ha : a = k
      · subst ha
        rw [read_of_not_mem fun x hx => Nat.ne_of_gt (hm.head_lt x hx),
          read_of_not_mem fun x hx => Nat.ne_of_gt (hm'.head_lt x hx)]
      · have := h a
        rwa [read_cons, read_cons, if_neg ha, if_neg ha] at this

/-! ### Extents -/

@[simp] theorem length_memRead (m : Memory) (a n : Nat) : (memRead m a n).length = n := by simp [memRead]

/-- `B[i] = MEM[a + i]` (`20_memory.md` R62). -/
theorem byteAt_memRead (m : Memory) (a : Nat) {n i : Nat} (h : i < n) : byteAt (memRead m a n) i = m.read (a + i) := by
  simp [byteAt, memRead, h]

/-- The first bytes of an extent. -/
theorem memRead_take (m : Memory) (a : Nat) {n k : Nat} (h : k ≤ n) : (memRead m a n).take k = memRead m a k := by
  simp [memRead, ← List.map_take, List.take_range, Nat.min_eq_left h]

/-- The bytes of an extent from the `k`-th on. -/
theorem memRead_drop (m : Memory) (a n k : Nat) : (memRead m a n).drop k = memRead m (a + k) (n - k) := by
  apply List.ext_getElem
  · simp
  · intro i h1 h2
    simp [memRead, Nat.add_assoc]

theorem wf_memWrite {m : Memory} (hm : Memory.wf m) {a : Nat} {bs : List Byte} (h : a + bs.length ≤ Config.memSize) :
    Memory.wf (memWrite m a bs) := by
  induction bs generalizing m a with
  | nil => exact hm
  | cons b bs ih =>
    simp only [List.length_cons] at h
    exact ih (wf_write_of_lt hm b (by omega)) (by omega)

/-- Bytes outside the extent keep their values (`20_memory.md` R63). -/
theorem read_memWrite_outside (m : Memory) (a : Nat) (bs : List Byte) {x : Nat} (h : x < a ∨ a + bs.length ≤ x) :
    (memWrite m a bs).read x = m.read x := by
  induction bs generalizing m a with
  | nil => rfl
  | cons b bs ih =>
    simp only [List.length_cons] at h
    rw [memWrite, ih _ _ (by omega), read_write_other m b (by omega)]

/-- `MEM[a + i] <- B[i]` (`20_memory.md` R63). -/
theorem read_memWrite_inside {m : Memory} (hm : Memory.wf m) {a : Nat} {bs : List Byte}
    (hr : a + bs.length ≤ Config.memSize) {i : Nat} (hi : i < bs.length) :
    (memWrite m a bs).read (a + i) = byteAt bs i := by
  induction bs generalizing m a i with
  | nil => simp at hi
  | cons b bs ih =>
    simp only [List.length_cons] at hr hi
    have hw := wf_write_of_lt hm b (a := a) (by omega)
    rw [memWrite]
    cases i with
    | zero => rw [read_memWrite_outside _ _ _ (by omega), Nat.add_zero, read_write_same hm]; rfl
    | succ i =>
      have := ih hw (a := a + 1) (by omega) (i := i) (by omega)
      rw [show a + (i + 1) = a + 1 + i by omega, this]; rfl

end Sys2Proof.Machine
end

