-- ==== Sys2Proof/Laws/Bytes.lean ====
section
/-! SUPPORT. Packing and unpacking of bytes, and what a permutation table does (`00_scope.md` R12, R13). -/

namespace Sys2Proof.Machine

/-! ### Words of four bytes -/

@[simp] theorem byteOf_be32_0 (a b c d : Byte) : byteOf (be32 a b c d) 0 = a := by
  simp only [byteOf, be32]
  ext i hi
  simp
  grind

@[simp] theorem byteOf_be32_1 (a b c d : Byte) : byteOf (be32 a b c d) 1 = b := by
  simp only [byteOf, be32]
  ext i hi
  simp
  grind

@[simp] theorem byteOf_be32_2 (a b c d : Byte) : byteOf (be32 a b c d) 2 = c := by
  simp only [byteOf, be32]
  ext i hi
  simp
  grind

@[simp] theorem byteOf_be32_3 (a b c d : Byte) : byteOf (be32 a b c d) 3 = d := by
  simp only [byteOf, be32]
  ext i hi
  simp
  grind

/-- A word is its four bytes, most significant first (`00_scope.md` R13). -/
@[simp] theorem be32_byteOf (w : Word) : be32 (byteOf w 0) (byteOf w 1) (byteOf w 2) (byteOf w 3) = w := by
  simp only [byteOf, be32]
  ext i hi
  simp
  grind

@[simp] theorem byteOf_xor (v w : Word) (k : Nat) : byteOf (v ^^^ w) k = byteOf v k ^^^ byteOf w k := by
  simp [byteOf, BitVec.extractLsb'_xor]

theorem be32_xor (a b c d a' b' c' d' : Byte) :
    be32 a b c d ^^^ be32 a' b' c' d' = be32 (a ^^^ a') (b ^^^ b') (c ^^^ c') (d ^^^ d') := by
  rw [← be32_byteOf (be32 a b c d ^^^ be32 a' b' c' d')]
  simp

/-- A word is determined by its four bytes. -/
theorem word_ext {v w : Word} (h0 : byteOf v 0 = byteOf w 0) (h1 : byteOf v 1 = byteOf w 1)
    (h2 : byteOf v 2 = byteOf w 2) (h3 : byteOf v 3 = byteOf w 3) : v = w := by
  rw [← be32_byteOf v, ← be32_byteOf w, h0, h1, h2, h3]

/-! ### Byte sequences -/

@[simp] theorem byteAt_cons_zero (b : Byte) (bs : List Byte) : byteAt (b :: bs) 0 = b := rfl

@[simp] theorem byteAt_cons_succ (b : Byte) (bs : List Byte) (i : Nat) : byteAt (b :: bs) (i + 1) = byteAt bs i := by
  simp [byteAt]

theorem byteAt_append_left {xs : List Byte} (ys : List Byte) {i : Nat} (h : i < xs.length) :
    byteAt (xs ++ ys) i = byteAt xs i := by
  simp [byteAt, List.getElem?_append, h]

theorem byteAt_append_right (xs ys : List Byte) (i : Nat) : byteAt (xs ++ ys) (xs.length + i) = byteAt ys i := by
  simp [byteAt, List.getElem?_append_right]

theorem byteAt_drop (xs : List Byte) (k i : Nat) : byteAt (xs.drop k) i = byteAt xs (k + i) := by
  simp [byteAt]

theorem byteAt_take {xs : List Byte} {k i : Nat} (h : i < k) : byteAt (xs.take k) i = byteAt xs i := by
  simp [byteAt, h]

/-- Byte sequences of one length are equal when their bytes are. -/
theorem bytes_ext {xs ys : List Byte} (hl : xs.length = ys.length) (h : ∀ i, i < xs.length → byteAt xs i = byteAt ys i) :
    xs = ys := by
  refine List.ext_getElem hl fun i h1 h2 => ?_
  have := h i h1
  simpa [byteAt, h1, h2] using this

/-! ### DES values -/

@[simp] theorem length_bytes64 (w : DWord) : (bytes64 w).length = 8 := by simp [bytes64]

theorem append_halves (v : DWord) : (v.extractLsb' 32 32 ++ v.extractLsb' 0 32 : DWord) = v := by
  apply BitVec.eq_of_getLsbD_eq
  intro i hi
  rw [BitVec.getLsbD_append]
  split <;> simp <;> grind

theorem byteOf_high (v : DWord) {k : Nat} (h : k < 4) : byteOf (v.extractLsb' 32 32) k = v.extractLsb' (56 - 8 * k) 8 := by
  ext i hi
  simp [byteOf]
  grind

theorem byteOf_low (v : DWord) (k : Nat) : byteOf (v.extractLsb' 0 32) k = v.extractLsb' (24 - 8 * k) 8 := by
  ext i hi
  simp [byteOf]

@[simp] theorem high_append (a b : Word) : (a ++ b : DWord).extractLsb' 32 32 = a := by
  apply BitVec.eq_of_getLsbD_eq
  intro i hi
  simp
  grind

@[simp] theorem low_append (a b : Word) : (a ++ b : DWord).extractLsb' 0 32 = b := by
  apply BitVec.eq_of_getLsbD_eq
  intro i hi
  simp
  grind

theorem byteAt_bytes64 (w : DWord) {i : Nat} (h : i < 8) : byteAt (bytes64 w) i = w.extractLsb' (56 - 8 * i) 8 := by
  simp [byteAt, bytes64, h]

theorem bytes64_eq (w : DWord) : bytes64 w = wordBytes (w.extractLsb' 32 32) ++ wordBytes (w.extractLsb' 0 32) := by
  simp [bytes64, wordBytes, byteOf_high, byteOf_low, List.range_succ]

theorem wordAt_append_left (w : Word) (bs : List Byte) : wordAt (wordBytes w ++ bs) 0 = w := by
  simp [wordAt, wordBytes]

theorem wordAt_append_right (w : Word) (bs : List Byte) (i : Nat) : wordAt (wordBytes w ++ bs) (i + 4) = wordAt bs i := by
  simp only [wordAt, wordBytes, List.cons_append, List.nil_append, show i + 4 + 1 = (i + 1) + 4 by omega,
    show i + 4 + 2 = (i + 2) + 4 by omega, show i + 4 + 3 = (i + 3) + 4 by omega]
  simp only [byteAt_cons_succ]

/-- Storing and loading a 64-bit value gives it back (`44_des_feistel.md` R250). -/
@[simp] theorem be64_bytes64 (w : DWord) : be64 (bytes64 w) = w := by
  rw [bytes64_eq, be64, wordAt_append_left, show (4 : Nat) = 0 + 4 from rfl, wordAt_append_right,
   ← List.append_nil (wordBytes (BitVec.extractLsb' 0 32 w)), wordAt_append_left, append_halves]

/-- Loading and storing an 8-byte block gives it back (`44_des_feistel.md` R250). -/
theorem bytes64_be64 {bs : List Byte} (h : bs.length = 8) : bytes64 (be64 bs) = bs := by
  match bs, h with
  | [b0, b1, b2, b3, b4, b5, b6, b7], _ =>
    rw [bytes64_eq, be64, high_append, low_append]
    simp [wordAt, wordBytes]

/-! ### Permutation tables -/

theorem testBit_horner (f : Nat → Bool) (table : List Nat) (acc i : Nat) :
    (table.foldl (fun acc k => 2 * acc + (f k).toNat) acc).testBit i =
      if i < table.length then f (table.getD (table.length - 1 - i) 0)
      else acc.testBit (i - table.length) := by
  induction table generalizing acc i with
  | nil => simp
  | cons k rest ih =>
    rw [List.foldl_cons, ih]
    by_cases h : i < rest.length
    · obtain ⟨m, hm⟩ : ∃ m, rest.length - i = m + 1 := ⟨rest.length - i - 1, by omega⟩
      simp only [h, List.length_cons, if_true, show i < rest.length + 1 by omega,
        show rest.length + 1 - 1 - i = m + 1 by omega, show rest.length - 1 - i = m by omega, List.getD_cons_succ]
    · by_cases h2 : i = rest.length
      · subst h2
        cases hf : f k <;> simp [hf, Nat.testBit, Nat.shiftRight_zero]
      · simp only [h, if_false, List.length_cons, show ¬ i < rest.length + 1 by omega]
        obtain ⟨m, rfl⟩ : ∃ m, i = rest.length + 1 + m := ⟨i - (rest.length + 1), by omega⟩
        rw [show rest.length + 1 + m - rest.length = m + 1 by omega,
          show rest.length + 1 + m - (rest.length + 1) = m by omega, Nat.testBit_succ]
        congr 1
        cases f k
        · simp
        · simp; omega

/-- Position `j` of `perm(v, n, T)`, counted from 0 at the most significant end, is `dbit(v, n, T[j])`
(`00_scope.md` R12). -/
theorem getMsbD_perm {n : Nat} (v : BitVec n) (table : List Nat) {m : Nat} (hm : table.length = m) {j : Nat}
    (hj : j < m) : (perm m v table).getMsbD j = dbit v (table.getD j 0) := by
  subst hm
  simp only [perm, BitVec.getMsbD, BitVec.getLsbD_ofNat, testBit_horner]
  simp only [hj, decide_true, Bool.true_and, show table.length - 1 - j < table.length by omega, if_true,
    show table.length - 1 - (table.length - 1 - j) = j by omega]

/-- The bit a position names, 1 the most significant (`00_scope.md` R12). -/
theorem dbit_eq_getMsbD {n : Nat} (v : BitVec n) {k : Nat} (h1 : 1 ≤ k) (h2 : k ≤ n) : dbit v k = v.getMsbD (k - 1) := by
  simp only [dbit, BitVec.getMsbD, BitVec.testBit_toNat, show k - 1 < n by omega, decide_true, Bool.true_and]
  congr 1
  omega

end Sys2Proof.Machine
end

