-- ==== Sys2Proof/Laws/Ops.lean ====
section
/-! SUPPORT. One lemma per shared operation that says everything it can do: its errors in the order they are checked, and
its success. Proofs about commands cite these instead of unfolding the operations. -/

namespace Sys2Proof.Machine

/-! ### Ending a command -/

@[simp] theorem fails_eq (code : Code) (s : State) : fails code s = .next (raise code false s) := rfl

@[simp] theorem completes_eq (s : State) : completes s = .next (complete s) := rfl

theorem raise_eq_fatalEnd {code : Code} (h : code.isFatal = true) (s : State) : raise code false s = s.fatalEnd code := by
  simp [raise, State.fatalEnd, h]

theorem raise_eq_recoverableEnd {code : Code} (h : code.isFatal = false) (short : Bool) (s : State) :
    raise code short s = s.recoverableEnd code short := by
  simp [raise, State.recoverableEnd, h]

theorem complete_eq_okStatus (s : State) : complete s = { s with status := s.okStatus } := rfl

theorem dropStreamsOf_eq (cid : Nat) (s : State) : dropStreamsOf cid s = { s with streams := s.streamsWithout cid } := by
  have h : ∀ slot : Option Stream, (slot.filter fun st => st.cid != cid) = if boundTo cid slot then none else slot := by
    intro slot
    cases slot with
    | none => rfl
    | some st => by_cases hc : st.cid = cid <;> simp [boundTo, Option.filter, hc]
  simp [dropStreamsOf, State.streamsWithout, h]

/-! ### Operand forms -/

theorem passesTop_eq_true {a n : Nat} : passesTop a n = true ↔ 2 ^ 32 < a + n := by
  simp [passesTop, Config.memSize]

theorem passesTop_eq_false {a n : Nat} : passesTop a n = false ↔ a + n ≤ 2 ^ 32 := by
  simp [passesTop, Config.memSize]

theorem overlapsPartly_eq_false {d s n : Nat} : overlapsPartly d s n = false ↔ identicalOrDisjoint d s n := by
  simp [overlapsPartly, identicalOrDisjoint]
  omega

theorem overlapsPartly_eq_true {d s n : Nat} : overlapsPartly d s n = true ↔ ¬ identicalOrDisjoint d s n := by
  rw [← overlapsPartly_eq_false]; simp

theorem blockSizeOf_cases (c : Cipher) : blockSizeOf c = 16 ∨ blockSizeOf c = 8 := by
  cases c <;> simp [blockSizeOf]

theorem blockSizeOf_pos (c : Cipher) : 0 < blockSizeOf c := by
  rcases blockSizeOf_cases c with h | h <;> omega

/-- A slot index is in range exactly when the slot is there (`30_encoding.md` R93). -/
theorem cipher?_eq_none {s : State} {cid : Nat} : s.cipher? cid = none ↔ s.nCipher ≤ cid := by
  simp [State.cipher?, State.nCipher]

theorem stream?_eq_none {s : State} {sid : Nat} : s.stream? sid = none ↔ s.nStream ≤ sid := by
  simp [State.stream?, State.nStream]

theorem lt_nCipher_of_cipher? {s : State} {cid : Nat} {c : Option Cipher} (h : s.cipher? cid = some c) :
    cid < s.nCipher := by
  have : ¬ s.nCipher ≤ cid := fun hn => by simp [cipher?_eq_none.2 hn] at h
  omega

theorem lt_nStream_of_stream? {s : State} {sid : Nat} {st : Option Stream} (h : s.stream? sid = some st) :
    sid < s.nStream := by
  have : ¬ s.nStream ≤ sid := fun hn => by simp [stream?_eq_none.2 hn] at h
  omega

theorem cipher?_mem {s : State} {cid : Nat} {c : Option Cipher} (h : s.cipher? cid = some c) : c ∈ s.ciphers :=
  List.mem_of_getElem? h

theorem stream?_mem {s : State} {sid : Nat} {st : Option Stream} (h : s.stream? sid = some st) : st ∈ s.streams :=
  List.mem_of_getElem? h

/-- The slot an index names holds no object: out of range, or `EMPTY` (`60_exceptions.md` R410). -/
theorem cipher?_join_eq_none {s : State} {cid : Nat} :
    (s.cipher? cid).join = none ↔ s.nCipher ≤ cid ∨ s.cipher? cid = some none := by
  rw [← cipher?_eq_none]
  rcases s.cipher? cid with _ | _ | c <;> simp

theorem stream?_join_eq_none {s : State} {sid : Nat} :
    (s.stream? sid).join = none ↔ s.nStream ≤ sid ∨ s.stream? sid = some none := by
  rw [← stream?_eq_none]
  rcases s.stream? sid with _ | _ | st <;> simp

@[simp] theorem slotBlockSize_eq {s : State} {cid : Nat} {c : Cipher} (h : s.cipher? cid = some (some c)) :
    s.slotBlockSize cid = blockSizeOf c := by
  simp [State.slotBlockSize, h]

/-- Writing a slot's own contents back changes nothing. -/
theorem set_getElem?_self {α : Type} {l : List α} {i : Nat} {a : α} (h : l[i]? = some a) : l.set i a = l := by
  obtain ⟨hi, rfl⟩ := List.getElem?_eq_some_iff.1 h
  exact List.set_getElem_self hi

/-- In a state with the invariant no stream is bound to an `EMPTY` slot (`10_state.md` R37). -/
theorem streamsWithout_of_empty {s : State} (hi : s.Inv) {cid : Nat} (h : s.cipher? cid = some none) :
    s.streamsWithout cid = s.streams := by
  unfold State.streamsWithout
  conv_rhs => rw [← List.map_id s.streams]
  refine List.map_congr_left fun slot hs => ?_
  cases slot with
  | none => rfl
  | some st =>
    obtain ⟨c, iv, p, hc, _⟩ := hi.streams st hs
    have : st.cid ≠ cid := by rintro rfl; simp [State.cipher?, hc] at h
    simp [boundTo, this]

/-! ### Blocks keep their length -/

@[simp] theorem length_storeState (s : AesState) : (storeState s).length = 16 := by simp [storeState, wordBytes]

@[simp] theorem length_aesEncryptBlock (nk : Nat) (ek : List Word) (blk : List Byte) :
    (aesEncryptBlock nk ek blk).length = 16 := length_storeState _

@[simp] theorem length_aesDecryptBlock (nk : Nat) (dk : List Word) (blk : List Byte) :
    (aesDecryptBlock nk dk blk).length = 16 := length_storeState _

@[simp] theorem length_desCrypt (ks : List DWord) (blk : List Byte) (decrypt : Bool) :
    (desCrypt ks blk decrypt).length = 8 := length_bytes64 _

@[simp] theorem length_encryptBlock (c : Cipher) (blk : List Byte) : (encryptBlock c blk).length = blockSizeOf c := by
  cases c <;> simp [encryptBlock, blockSizeOf, tdesEncryptBlock]

@[simp] theorem length_decryptBlock (c : Cipher) (blk : List Byte) : (decryptBlock c blk).length = blockSizeOf c := by
  cases c <;> simp [decryptBlock, blockSizeOf, tdesDecryptBlock]

/-! ### The shared commands -/

/-- What the three key commands can do. -/
theorem keyCommand_cases (legal short : Nat → Bool) (build : List Byte → Cipher) (cid : Nat) (s : State) :
    (s.nCipher ≤ cid ∧ keyCommand legal short build cid s = .next (raise .invalidContext false s)) ∨
    (cid < s.nCipher ∧ legal s.sl = false ∧
      keyCommand legal short build cid s = .next (raise .invalidKeySize (short s.sl) s)) ∨
    (cid < s.nCipher ∧ legal s.sl = true ∧ 2 ^ 32 < s.sa + s.sl ∧
      keyCommand legal short build cid s = .next (raise .addressRange false s)) ∨
    (cid < s.nCipher ∧ legal s.sl = true ∧ s.sa + s.sl ≤ 2 ^ 32 ∧
      keyCommand legal short build cid s =
        .next (complete (setCipher cid (some (build (memRead s.mem s.sa s.sl))) (dropStreamsOf cid s)))) := by
  unfold keyCommand
  split
  · exact .inl ⟨by assumption, rfl⟩
  · split
    · exact .inr (.inl ⟨by omega, by assumption, rfl⟩)
    · next h1 h2 =>
      split
      · next h3 => exact .inr (.inr (.inl ⟨by omega, by simpa using h2, passesTop_eq_true.1 h3, rfl⟩))
      · next h3 => exact .inr (.inr (.inr ⟨by omega, by simpa using h2, passesTop_eq_false.1 (by simpa using h3), rfl⟩))

/-- What `ENC` and `DEC` can do. -/
theorem blockCommand_cases (f : Cipher → List Byte → List Byte) (cid : Nat) (s : State) :
    ((s.cipher? cid).join = none ∧ blockCommand f cid s = .next (raise .invalidContext false s)) ∨
    ∃ c, s.cipher? cid = some (some c) ∧
      (((s.sl < blockSizeOf c ∨ s.dl < blockSizeOf c) ∧ blockCommand f cid s = .next (raise .bufferTooSmall false s)) ∨
      (blockSizeOf c ≤ s.sl ∧ blockSizeOf c ≤ s.dl ∧ (2 ^ 32 < s.sa + s.sl ∨ 2 ^ 32 < s.d + s.dl) ∧
        blockCommand f cid s = .next (raise .addressRange false s)) ∨
      (blockSizeOf c ≤ s.sl ∧ blockSizeOf c ≤ s.dl ∧ s.sa + s.sl ≤ 2 ^ 32 ∧ s.d + s.dl ≤ 2 ^ 32 ∧
        ¬ identicalOrDisjoint s.d s.sa (blockSizeOf c) ∧
        blockCommand f cid s = .next (raise .bufferOverlap false s)) ∨
      (blockSizeOf c ≤ s.sl ∧ blockSizeOf c ≤ s.dl ∧ s.sa + s.sl ≤ 2 ^ 32 ∧ s.d + s.dl ≤ 2 ^ 32 ∧
        identicalOrDisjoint s.d s.sa (blockSizeOf c) ∧
        blockCommand f cid s = .next
          (complete { s with mem := memWrite s.mem s.d (f c (memRead s.mem s.sa (blockSizeOf c))) }))) := by
  unfold blockCommand
  rcases h : s.cipher? cid with _ | _ | c
  · exact .inl ⟨rfl, rfl⟩
  · exact .inl ⟨rfl, rfl⟩
  · refine .inr ⟨c, rfl, ?_⟩
    dsimp only
    by_cases h1 : s.sl < blockSizeOf c ∨ s.dl < blockSizeOf c
    · exact .inl ⟨h1, by rw [if_pos h1, fails_eq]⟩
    rw [if_neg h1]
    obtain ⟨ha, hb⟩ : blockSizeOf c ≤ s.sl ∧ blockSizeOf c ≤ s.dl := by omega
    by_cases h2 : (passesTop s.sa s.sl || passesTop s.d s.dl) = true
    · refine .inr (.inl ⟨ha, hb, ?_, by rw [if_pos h2, fails_eq]⟩)
      simpa only [Bool.or_eq_true, passesTop_eq_true] using h2
    rw [if_neg h2]
    simp only [Bool.or_eq_true, passesTop_eq_true, not_or, Nat.not_lt] at h2
    by_cases h3 : overlapsPartly s.d s.sa (blockSizeOf c) = true
    · exact .inr (.inr (.inl ⟨ha, hb, h2.1, h2.2, overlapsPartly_eq_true.1 h3, by rw [if_pos h3, fails_eq]⟩))
    · refine .inr (.inr (.inr ⟨ha, hb, h2.1, h2.2, overlapsPartly_eq_false.1 (by simpa using h3), ?_⟩))
      rw [if_neg h3, completes_eq]

/-- What `BLKSIZE` can do. -/
theorem execBlksize_cases (cid : Nat) (s : State) :
    ((s.cipher? cid).join = none ∧ execBlksize cid s = .next (raise .invalidContext false s)) ∨
    ∃ c, s.cipher? cid = some (some c) ∧
      execBlksize cid s = .next (complete { s with result := BitVec.ofNat 32 (blockSizeOf c) }) := by
  unfold execBlksize
  rcases h : s.cipher? cid with _ | _ | c
  · exact .inl ⟨rfl, rfl⟩
  · exact .inl ⟨rfl, rfl⟩
  · exact .inr ⟨c, rfl, rfl⟩

/-- What `CDROP` can do. -/
theorem execCdrop_cases (cid : Nat) (s : State) :
    (s.nCipher ≤ cid ∧ execCdrop cid s = .next (raise .invalidContext false s)) ∨
    (cid < s.nCipher ∧ execCdrop cid s = .next (complete (setCipher cid none (dropStreamsOf cid s)))) := by
  unfold execCdrop
  split
  · exact .inl ⟨by assumption, rfl⟩
  · exact .inr ⟨by omega, rfl⟩

/-- What `SDROP` can do. -/
theorem execSdrop_cases (sid : Nat) (s : State) :
    (s.nStream ≤ sid ∧ execSdrop sid s = .next (raise .invalidContext false s)) ∨
    (sid < s.nStream ∧ execSdrop sid s = .next (complete (setStream sid none s))) := by
  unfold execSdrop
  split
  · exact .inl ⟨by assumption, rfl⟩
  · exact .inr ⟨by omega, rfl⟩

/-- What `CTRNEW` can do. -/
theorem execCtrnew_cases (sid cid : Nat) (s : State) :
    ((s.nStream ≤ sid ∨ (s.cipher? cid).join = none) ∧
      execCtrnew sid cid s = .next (raise .invalidContext false s)) ∨
    ∃ c, s.cipher? cid = some (some c) ∧ sid < s.nStream ∧
      ((s.sl ≠ blockSizeOf c ∧ execCtrnew sid cid s = .next (raise .invalidIVLength false s)) ∨
      (s.sl = blockSizeOf c ∧ 2 ^ 32 < s.sa + s.sl ∧ execCtrnew sid cid s = .next (raise .addressRange false s)) ∨
      (s.sl = blockSizeOf c ∧ s.sa + s.sl ≤ 2 ^ 32 ∧
        execCtrnew sid cid s = .next (complete (setStream sid (some
          { cid := cid, bs := blockSizeOf c, ctr := memRead s.mem s.sa (blockSizeOf c), out := [], used := 0 }) s)))) := by
  unfold execCtrnew
  by_cases h1 : s.nCipher ≤ cid
  · exact .inl ⟨.inr (by simp [cipher?_eq_none.2 h1]), by rw [if_pos h1, fails_eq]⟩
  rw [if_neg h1]
  by_cases h2 : s.nStream ≤ sid
  · exact .inl ⟨.inl h2, by rw [if_pos h2, fails_eq]⟩
  rw [if_neg h2]
  rcases h : s.cipher? cid with _ | _ | c
  · exact .inl ⟨.inr rfl, rfl⟩
  · exact .inl ⟨.inr rfl, rfl⟩
  · refine .inr ⟨c, rfl, by omega, ?_⟩
    dsimp only
    by_cases h3 : s.sl ≠ blockSizeOf c
    · exact .inl ⟨h3, by rw [if_pos h3, fails_eq]⟩
    rw [if_neg h3]
    by_cases h4 : passesTop s.sa s.sl = true
    · exact .inr (.inl ⟨by omega, passesTop_eq_true.1 h4, by rw [if_pos h4, fails_eq]⟩)
    · exact .inr (.inr ⟨by omega, passesTop_eq_false.1 (by simpa using h4), by rw [if_neg h4, completes_eq]⟩)

/-- What `CTRXOR` on a valid stream can do. -/
theorem xorKeyStream_cases (sid : Nat) (st : Stream) (c : Cipher) (s : State) :
    (s.dl < s.sl ∧ xorKeyStream sid st c s = .next (raise .bufferTooSmall false s)) ∨
    (s.sl ≤ s.dl ∧ (2 ^ 32 < s.sa + s.sl ∨ 2 ^ 32 < s.d + s.dl) ∧
      xorKeyStream sid st c s = .next (raise .addressRange false s)) ∨
    (s.sl ≤ s.dl ∧ s.sa + s.sl ≤ 2 ^ 32 ∧ s.d + s.dl ≤ 2 ^ 32 ∧ ¬ identicalOrDisjoint s.d s.sa s.sl ∧
      xorKeyStream sid st c s = .next (raise .bufferOverlap false s)) ∨
    (s.sl ≤ s.dl ∧ s.sa + s.sl ≤ 2 ^ 32 ∧ s.d + s.dl ≤ 2 ^ 32 ∧ identicalOrDisjoint s.d s.sa s.sl ∧
      xorKeyStream sid st c s = .next (complete (setStream sid
        (some (consume c s.d s.sa s.sl s.sl 0 st s.mem).1)
        { s with mem := (consume c s.d s.sa s.sl s.sl 0 st s.mem).2 }))) := by
  unfold xorKeyStream
  by_cases h1 : s.dl < s.sl
  · exact .inl ⟨h1, by rw [if_pos h1, fails_eq]⟩
  rw [if_neg h1]
  by_cases h2 : (passesTop s.sa s.sl || passesTop s.d s.dl) = true
  · refine .inr (.inl ⟨by omega, ?_, by rw [if_pos h2, fails_eq]⟩)
    simpa only [Bool.or_eq_true, passesTop_eq_true] using h2
  rw [if_neg h2]
  simp only [Bool.or_eq_true, passesTop_eq_true, not_or, Nat.not_lt] at h2
  by_cases h3 : overlapsPartly s.d s.sa s.sl = true
  · exact .inr (.inr (.inl ⟨by omega, h2.1, h2.2, overlapsPartly_eq_true.1 h3, by rw [if_pos h3, fails_eq]⟩))
  · refine .inr (.inr (.inr ⟨by omega, h2.1, h2.2, overlapsPartly_eq_false.1 (by simpa using h3), ?_⟩))
    rw [if_neg h3, completes_eq]

/-- What `CTRXOR` can do: the stream slot or its cipher slot holds no object, or the stream is used. -/
theorem execCtrxor_cases (sid : Nat) (s : State) :
    ((s.stream? sid).join = none ∧ execCtrxor sid s = .next (raise .invalidContext false s)) ∨
    ∃ st, s.stream? sid = some (some st) ∧
      (((s.cipher? st.cid).join = none ∧ execCtrxor sid s = .next (raise .invalidContext false s)) ∨
      ∃ c, s.cipher? st.cid = some (some c) ∧ execCtrxor sid s = xorKeyStream sid st c s) := by
  unfold execCtrxor
  rcases h : s.stream? sid with _ | _ | st
  · exact .inl ⟨rfl, rfl⟩
  · exact .inl ⟨rfl, rfl⟩
  · refine .inr ⟨st, rfl, ?_⟩
    dsimp only
    rcases h2 : s.cipher? st.cid with _ | _ | c
    · exact .inl ⟨rfl, rfl⟩
    · exact .inl ⟨rfl, rfl⟩
    · exact .inr ⟨c, rfl, rfl⟩

end Sys2Proof.Machine
end

