-- ==== Sys2Proof/Laws/Counter.lean ====
section
/-! SUPPORT. The counter, the keystream and the consume loop (`47_ctr.md` R340 to R356): what one refill, one copy and the
whole loop do. -/

namespace Sys2Proof.Machine

/-! ### The counter -/

@[simp] theorem length_incFromLast (bs : List Byte) : (incFromLast bs).length = bs.length := by
  induction bs with
  | nil => rfl
  | cons b bs ih => unfold incFromLast; split <;> simp [ih]

@[simp] theorem length_ctrInc (ctr : List Byte) : (ctrInc ctr).length = ctr.length := by simp [ctrInc]

@[simp] theorem length_ctrAdd (ctr : List Byte) (m : Nat) : (ctrAdd ctr m).length = ctr.length := by
  induction m generalizing ctr with
  | zero => rfl
  | succ m ih => simp [ctrAdd, ih]

@[simp] theorem ctrAdd_zero (ctr : List Byte) : ctrAdd ctr 0 = ctr := rfl

/-- `(iv (+) m) (+) n = iv (+) (m + n)` (`47_ctr.md` R356). -/
theorem ctrAdd_add (ctr : List Byte) (m n : Nat) : ctrAdd ctr (m + n) = ctrAdd (ctrAdd ctr m) n := by
  induction m generalizing ctr with
  | zero => simp
  | succ m ih => rw [show m + 1 + n = (m + n) + 1 by omega, ctrAdd, ih]; rfl

/-! ### The keystream -/

@[simp] theorem length_keystreamBlocks (c : Cipher) (n : Nat) (ctr : List Byte) :
    (keystreamBlocks c n ctr).length = n * blockSizeOf c := by
  induction n generalizing ctr with
  | zero => simp [keystreamBlocks]
  | succ n ih => simp [keystreamBlocks, ih, Nat.succ_mul, Nat.add_comm]

/-- Block `b` of the generated bytes is the encryption of counter `ctr (+) b` (`47_ctr.md` R346). -/
theorem byteAt_keystreamBlocks (c : Cipher) {n : Nat} (ctr : List Byte) {b j : Nat} (hb : b < n)
    (hj : j < blockSizeOf c) :
    byteAt (keystreamBlocks c n ctr) (blockSizeOf c * b + j) = byteAt (encryptBlock c (ctrAdd ctr b)) j := by
  induction n generalizing ctr b with
  | zero => omega
  | succ n ih =>
    rw [keystreamBlocks]
    cases b with
    | zero => rw [Nat.mul_zero, Nat.zero_add, byteAt_append_left _ (by simpa using hj), ctrAdd_zero]
    | succ b =>
      have := byteAt_append_right (encryptBlock c ctr) (keystreamBlocks c n (ctrInc ctr)) (blockSizeOf c * b + j)
      rw [length_encryptBlock] at this
      rw [show blockSizeOf c * (b + 1) + j = blockSizeOf c + (blockSizeOf c * b + j) by rw [Nat.mul_succ]; omega, this,
        ih _ (by omega)]
      rfl

/-- The keystream from block `m` on is the keystream of the counter advanced by `m`. -/
theorem keystreamByte_ctrAdd (c : Cipher) (iv : List Byte) (m k : Nat) :
    keystreamByte c (ctrAdd iv m) k = keystreamByte c iv (m * blockSizeOf c + k) := by
  have hpos := blockSizeOf_pos c
  unfold keystreamByte
  rw [← ctrAdd_add, Nat.mul_comm m, Nat.mul_add_div hpos, Nat.mul_add_mod]

/-- The generated bytes are keystream (`47_ctr.md` R356). -/
theorem byteAt_keystreamBlocks_eq (c : Cipher) {n : Nat} (ctr : List Byte) {k : Nat} (h : k < n * blockSizeOf c) :
    byteAt (keystreamBlocks c n ctr) k = keystreamByte c ctr k := by
  have hpos := blockSizeOf_pos c
  have hb : k / blockSizeOf c < n := by rw [Nat.div_lt_iff_lt_mul hpos]; exact h
  have := byteAt_keystreamBlocks c ctr hb (Nat.mod_lt k hpos)
  rw [Nat.div_add_mod] at this
  exact this

/-! ### Refill -/

@[simp] theorem refill_used (c : Cipher) (st : Stream) : (refill c st).used = 0 := rfl
@[simp] theorem refill_cid (c : Cipher) (st : Stream) : (refill c st).cid = st.cid := rfl
@[simp] theorem refill_bs (c : Cipher) (st : Stream) : (refill c st).bs = st.bs := rfl
@[simp] theorem refill_ctr (c : Cipher) (st : Stream) :
    (refill c st).ctr = ctrAdd st.ctr ((Config.ksbuf - (st.fill - st.used)) / st.bs) := rfl
@[simp] theorem refillIfLow_cid (c : Cipher) (st : Stream) : (refillIfLow c st).cid = st.cid := by
  unfold refillIfLow; split <;> rfl
@[simp] theorem refillIfLow_bs (c : Cipher) (st : Stream) : (refillIfLow c st).bs = st.bs := by
  unfold refillIfLow; split <;> rfl

/-- `fill = rem + bs * floor((KSBUF - rem) / bs)` (`47_ctr.md` R348). -/
theorem refill_fill {c : Cipher} {st : Stream} (hbs : st.bs = blockSizeOf c) :
    (refill c st).fill = (st.fill - st.used) + st.bs * ((512 - (st.fill - st.used)) / st.bs) := by
  simp [refill, Stream.fill, Config.ksbuf, hbs, Nat.mul_comm]

theorem refill_fill_le {c : Cipher} {st : Stream} (hbs : st.bs = blockSizeOf c) (hf : st.fill ≤ 512) :
    (refill c st).fill ≤ 512 ∧ 512 - (refill c st).fill < st.bs := by
  have hpos := hbs ▸ blockSizeOf_pos c
  have h1 := Nat.div_add_mod (512 - (st.fill - st.used)) st.bs
  have h2 := Nat.mod_lt (512 - (st.fill - st.used)) hpos
  rw [refill_fill hbs]
  omega

/-- The unconsumed tail moves to the front (`47_ctr.md` R346). -/
theorem refill_tail (c : Cipher) (st : Stream) {j : Nat} (h : j < st.fill - st.used) :
    byteAt (refill c st).out j = byteAt st.out (st.used + j) := by
  have hl : j < (st.out.drop st.used).length := by simpa [Stream.fill] using h
  simp only [refill]
  rw [byteAt_append_left _ hl, byteAt_drop]

/-- The bytes after the tail are the generated blocks (`47_ctr.md` R346). -/
theorem refill_generated (c : Cipher) (st : Stream) (k : Nat) :
    byteAt (refill c st).out ((st.fill - st.used) + k) =
      byteAt (keystreamBlocks c ((Config.ksbuf - (st.fill - st.used)) / st.bs) st.ctr) k := by
  have hl : (st.out.drop st.used).length = st.fill - st.used := by simp [Stream.fill]
  simp only [refill]
  rw [← hl, byteAt_append_right]

/-- A refill keeps the invariant of `47_ctr.md` R356 at the same position. -/
theorem Stream.At.refill {c : Cipher} {iv : List Byte} {p : Nat} {st : Stream} (h : st.At c iv p) :
    (refill c st).At c iv p := by
  have hpos := blockSizeOf_pos c
  have hfill := refill_fill h.bs_eq
  have hle := refill_fill_le h.bs_eq h.fill_le
  generalize hr : st.fill - st.used = rem at hfill
  generalize hn : (512 - rem) / st.bs = n at hfill
  have hal := h.aligned
  rw [hr] at hal
  obtain ⟨q, hq⟩ : ∃ q, p + rem = q * blockSizeOf c := ⟨_, (Nat.div_mul_cancel (Nat.dvd_of_mod_eq_zero hal)).symm⟩
  have hctr := h.ctr_eq
  rw [hr, hq, Nat.mul_div_cancel _ hpos] at hctr
  have hbs := h.bs_eq
  have hp' : p + (Machine.refill c st).fill = (q + n) * blockSizeOf c := by
    rw [hfill, hbs, ← Nat.add_assoc, hq, Nat.add_mul, Nat.mul_comm n]
  refine ⟨by simpa using hbs, h.iv_length, by simp, hle.1, ?_, ?_, ?_⟩
  · simp only [refill_used, Nat.sub_zero, hp', Nat.mul_mod_left]
  · intro j hj
    simp only [refill_used, Nat.sub_zero, Nat.zero_add] at hj ⊢
    by_cases hjr : j < rem
    · rw [refill_tail c st (by omega)]
      exact h.pending j (by omega)
    · obtain ⟨k, rfl⟩ : ∃ k, j = rem + k := ⟨j - rem, by omega⟩
      have := refill_generated c st k
      simp only [Config.ksbuf, hr, hn] at this
      rw [this, byteAt_keystreamBlocks_eq c _ (by rw [Nat.mul_comm, ← hbs]; omega), hctr, keystreamByte_ctrAdd,
        ← hq, Nat.add_assoc]
  · simp only [refill_used, Nat.sub_zero, refill_ctr, Config.ksbuf, hr, hn, hp', Nat.mul_div_cancel _ hpos]
    rw [hctr, ctrAdd_add]

/-- After the refill test at least one block is unconsumed (`47_ctr.md` R353). -/
theorem bs_le_refillIfLow {c : Cipher} {st : Stream} (hbs : st.bs = blockSizeOf c) (hf : st.fill ≤ 512) :
    st.bs ≤ (refillIfLow c st).fill - (refillIfLow c st).used := by
  unfold refillIfLow
  split
  · have := refill_fill_le hbs hf
    have hb : st.bs ≤ 16 := by rcases blockSizeOf_cases c with h | h <;> omega
    rw [refill_used]
    omega
  · omega

theorem Stream.At.refillIfLow {c : Cipher} {iv : List Byte} {p : Nat} {st : Stream} (h : st.At c iv p) :
    (refillIfLow c st).At c iv p := by
  unfold Machine.refillIfLow
  split
  · exact h.refill
  · exact h

/-- Consuming `n` unconsumed bytes moves the position by `n` (`47_ctr.md` R350). -/
theorem Stream.At.advance {c : Cipher} {iv : List Byte} {p n : Nat} {st : Stream} (h : st.At c iv p)
    (hn : n ≤ st.fill - st.used) : Stream.At c iv (p + n) { st with used := st.used + n } := by
  have hu := h.used_le
  have hrem : p + n + (st.fill - (st.used + n)) = p + (st.fill - st.used) := by omega
  refine ⟨h.bs_eq, h.iv_length, ?_, h.fill_le, ?_, ?_, ?_⟩
  · show st.used + n ≤ st.fill
    omega
  · show (p + n + (st.fill - (st.used + n))) % _ = 0
    rw [hrem]; exact h.aligned
  · intro j hj
    have := h.pending (n + j) (by change j < st.fill - (st.used + n) at hj; omega)
    show byteAt st.out (st.used + n + j) = _
    rw [Nat.add_assoc, this, Nat.add_assoc]
  · show st.ctr = ctrAdd iv ((p + n + (st.fill - (st.used + n))) / _)
    rw [hrem]; exact h.ctr_eq

/-- A stream just made is at position 0 (`47_ctr.md` R342). -/
theorem Stream.At.fresh {c : Cipher} {iv : List Byte} (h : iv.length = blockSizeOf c) (cid : Nat) :
    Stream.At c iv 0 { cid := cid, bs := blockSizeOf c, ctr := iv, out := [], used := 0 } where
  bs_eq := rfl
  iv_length := h
  used_le := by simp [Stream.fill]
  fill_le := by simp [Stream.fill]
  aligned := by simp [Stream.fill]
  pending := by simp [Stream.fill]
  ctr_eq := by simp [Stream.fill]

/-! ### The copy loop -/

theorem read_xorBytes_outside (ks : List Byte) (s d : Nat) (m : Memory) {a : Nat} (h : a < d ∨ d + ks.length ≤ a) :
    (xorBytes ks s d m).read a = m.read a := by
  induction ks generalizing s d m with
  | nil => rfl
  | cons k ks ih =>
    simp only [List.length_cons] at h
    rw [xorBytes, ih _ _ _ (by omega), read_write_other m _ (by omega)]

theorem wf_xorBytes {ks : List Byte} {s d : Nat} {m : Memory} (hm : Memory.wf m) (h : d + ks.length ≤ Config.memSize) :
    Memory.wf (xorBytes ks s d m) := by
  induction ks generalizing s d m with
  | nil => exact hm
  | cons k ks ih =>
    simp only [List.length_cons] at h
    exact ih (wf_write_of_lt hm _ (by omega)) (by omega)

/-- `MEM[d+i] <- MEM[s+i] ^ ks[i]`, with the source bytes those of before (`47_ctr.md` R350). -/
theorem read_xorBytes_inside {ks : List Byte} {s d : Nat} {m : Memory} (hm : Memory.wf m)
    (hr : d + ks.length ≤ Config.memSize) (ho : identicalOrDisjoint d s ks.length) {i : Nat} (hi : i < ks.length) :
    (xorBytes ks s d m).read (d + i) = m.read (s + i) ^^^ byteAt ks i := by
  induction ks generalizing s d m i with
  | nil => simp at hi
  | cons k ks ih =>
    simp only [List.length_cons, identicalOrDisjoint] at hr hi ho
    rw [xorBytes]
    cases i with
    | zero => rw [read_xorBytes_outside _ _ _ _ (by omega), Nat.add_zero, read_write_same hm, Nat.add_zero]; rfl
    | succ i =>
      have hw := wf_write_of_lt hm (a := d) (m.read s ^^^ k) (by omega)
      have := ih hw (s := s + 1) (d := d + 1) (by omega) (by simp only [identicalOrDisjoint]; omega) (i := i) (by omega)
      rw [show d + (i + 1) = d + 1 + i by omega, this, read_write_other m _ (by omega),
        show s + 1 + i = s + (i + 1) by omega, byteAt_cons_succ]

/-! ### The consume loop -/

theorem consume_zero (c : Cipher) (d s sl i : Nat) (st : Stream) (m : Memory) :
    consume c d s sl 0 i st m = (st, m) := rfl

theorem consume_done (c : Cipher) {d s sl fuel i : Nat} (st : Stream) (m : Memory) (h : sl ≤ i) :
    consume c d s sl fuel i st m = (st, m) := by
  cases fuel with
  | zero => rfl
  | succ fuel => rw [consume, if_neg (by omega)]

/-- One pass of the loop (`47_ctr.md` R350). -/
theorem consume_pass (c : Cipher) {d s sl i : Nat} (fuel : Nat) (st : Stream) (m : Memory) (h : i < sl) :
    consume c d s sl (fuel + 1) i st m =
      consume c d s sl fuel (i + min (sl - i) ((refillIfLow c st).fill - (refillIfLow c st).used))
        { refillIfLow c st with
          used := (refillIfLow c st).used + min (sl - i) ((refillIfLow c st).fill - (refillIfLow c st).used) }
        (xorBytes (((refillIfLow c st).out.drop (refillIfLow c st).used).take
          (min (sl - i) ((refillIfLow c st).fill - (refillIfLow c st).used))) (s + i) (d + i) m) := by
  rw [consume, if_pos h]

/-- The keystream bytes one pass takes. -/
theorem length_pending (st : Stream) {n : Nat} (h : n ≤ st.fill - st.used) :
    ((st.out.drop st.used).take n).length = n := by
  simp only [Stream.fill] at h
  simp [h]

/-- The loop never touches a byte outside the destination (`47_ctr.md` R353). -/
theorem read_consume_outside (c : Cipher) (d s sl fuel i : Nat) (st : Stream) (m : Memory) {a : Nat}
    (h : a < d + i ∨ d + sl ≤ a) : (consume c d s sl fuel i st m).2.read a = m.read a := by
  induction fuel generalizing i st m with
  | zero => rfl
  | succ fuel ih =>
    by_cases hi : i < sl
    · rw [consume_pass c fuel st m hi, ih _ _ _ (by omega), read_xorBytes_outside]
      rw [length_pending _ (by omega)]
      omega
    · rw [consume_done c st m (by omega)]

theorem wf_consume (c : Cipher) {d s sl : Nat} (fuel i : Nat) (st : Stream) {m : Memory} (hm : Memory.wf m)
    (h : d + sl ≤ Config.memSize) : Memory.wf (consume c d s sl fuel i st m).2 := by
  induction fuel generalizing i st m with
  | zero => exact hm
  | succ fuel ih =>
    by_cases hi : i < sl
    · rw [consume_pass c fuel st m hi]
      refine ih _ _ (wf_xorBytes hm ?_)
      rw [length_pending _ (by omega)]
      omega
    · rw [consume_done c st m (by omega)]; exact hm

@[simp] theorem consume_cid (c : Cipher) (d s sl fuel i : Nat) (st : Stream) (m : Memory) :
    (consume c d s sl fuel i st m).1.cid = st.cid := by
  induction fuel generalizing i st m with
  | zero => rfl
  | succ fuel ih =>
    by_cases hi : i < sl
    · rw [consume_pass c fuel st m hi, ih]; simp
    · rw [consume_done c st m (by omega)]

@[simp] theorem consume_bs (c : Cipher) (d s sl fuel i : Nat) (st : Stream) (m : Memory) :
    (consume c d s sl fuel i st m).1.bs = st.bs := by
  induction fuel generalizing i st m with
  | zero => rfl
  | succ fuel ih =>
    by_cases hi : i < sl
    · rw [consume_pass c fuel st m hi, ih]; simp
    · rw [consume_done c st m (by omega)]

/-- The bytes one pass takes are keystream at the stream's position. -/
theorem byteAt_pending {c : Cipher} {iv : List Byte} {p n : Nat} {st : Stream} (h : st.At c iv p)
    (hn : n ≤ st.fill - st.used) {j : Nat} (hj : j < n) :
    byteAt ((st.out.drop st.used).take n) j = keystreamByte c iv (p + j) := by
  rw [byteAt_take hj, byteAt_drop]
  exact h.pending j (by omega)

/-- What the loop does to a stream at position `p`, from byte index `i` on (`47_ctr.md` R356). -/
theorem consume_At {c : Cipher} {iv : List Byte} {d s sl : Nat} (fuel : Nat) {i p : Nat} {st : Stream} {m : Memory}
    (h : st.At c iv p) (hf : sl - i ≤ fuel) (hi : i ≤ sl) :
    (consume c d s sl fuel i st m).1.At c iv (p + (sl - i)) := by
  induction fuel generalizing i p st m with
  | zero => rw [consume_zero, show sl - i = 0 by omega]; exact h
  | succ fuel ih =>
    by_cases hlt : i < sl
    · have hr := h.refillIfLow
      have hbs := bs_le_refillIfLow h.bs_eq h.fill_le
      have hpos := h.bs_eq ▸ blockSizeOf_pos c
      rw [consume_pass c fuel st m hlt]
      generalize hn : min (sl - i) ((refillIfLow c st).fill - (refillIfLow c st).used) = n
      have := ih (hr.advance (n := n) (by omega)) (i := i + n) (m := xorBytes (((refillIfLow c st).out.drop
        (refillIfLow c st).used).take n) (s + i) (d + i) m) (by omega) (by omega)
      rwa [show p + n + (sl - (i + n)) = p + (sl - i) by omega] at this
    · rw [consume_done c st m (by omega), show sl - i = 0 by omega]; exact h

/-- `dst[k] = src[k] ^ KS[p + k]` (`47_ctr.md` R356). -/
theorem read_consume_inside {c : Cipher} {iv : List Byte} {d s sl : Nat} (fuel : Nat) {i p : Nat} {st : Stream}
    {m : Memory} (h : st.At c iv p) (hm : Memory.wf m) (hd : d + sl ≤ Config.memSize)
    (ho : identicalOrDisjoint d s sl) (hf : sl - i ≤ fuel) {k : Nat} (hk : i ≤ k) (hk' : k < sl) :
    (consume c d s sl fuel i st m).2.read (d + k) = m.read (s + k) ^^^ keystreamByte c iv (p + (k - i)) := by
  induction fuel generalizing i p st m with
  | zero => omega
  | succ fuel ih =>
    simp only [identicalOrDisjoint] at ho
    have hr := h.refillIfLow
    have hbs := bs_le_refillIfLow h.bs_eq h.fill_le
    have hpos := h.bs_eq ▸ blockSizeOf_pos c
    rw [consume_pass c fuel st m (by omega)]
    generalize hn : min (sl - i) ((refillIfLow c st).fill - (refillIfLow c st).used) = n
    have hlen := length_pending (refillIfLow c st) (n := n) (by omega)
    have hw : Memory.wf (xorBytes (((refillIfLow c st).out.drop (refillIfLow c st).used).take n) (s + i) (d + i) m) :=
      wf_xorBytes hm (by rw [hlen]; omega)
    by_cases hkn : k < i + n
    · rw [read_consume_outside _ _ _ _ _ _ _ _ (by omega)]
      obtain ⟨j, rfl⟩ : ∃ j, k = i + j := ⟨k - i, by omega⟩
      rw [← Nat.add_assoc, read_xorBytes_inside hm (by rw [hlen]; omega)
        (by rw [hlen]; simp only [identicalOrDisjoint]; omega) (by rw [hlen]; omega),
        byteAt_pending hr (by omega) (by omega), Nat.add_assoc, show i + j - i = j by omega]
    · rw [ih (hr.advance (n := n) (by omega)) hw (i := i + n) (by omega) (by omega),
        read_xorBytes_outside _ _ _ _ (by rw [hlen]; omega), show p + n + (k - (i + n)) = p + (k - i) by omega]

end Sys2Proof.Machine
end

