-- ==== Sys2Proof/Laws/Exec.lean ====
section
/-! SUPPORT. What the execution of a command can do, once for all ten commands: it raises one error, or it completes with
one effect. -/

namespace Sys2Proof.Machine

/-- `u` is `s` with the effect of the completing command `i`, before `complete()`, and the checks that let it complete. -/
def Effect (s u : State) : Instr → Prop
  | .aeskey cid => cid < s.nCipher ∧ (s.sl = 16 ∨ s.sl = 24 ∨ s.sl = 32) ∧ s.sa + s.sl ≤ 2 ^ 32 ∧
      u = setCipher cid (some (aesCipher (memRead s.mem s.sa s.sl))) (dropStreamsOf cid s)
  | .deskey cid => cid < s.nCipher ∧ s.sl = 8 ∧ s.sa + s.sl ≤ 2 ^ 32 ∧
      u = setCipher cid (some (desCipher (memRead s.mem s.sa s.sl))) (dropStreamsOf cid s)
  | .tdeskey cid => cid < s.nCipher ∧ s.sl = 24 ∧ s.sa + s.sl ≤ 2 ^ 32 ∧
      u = setCipher cid (some (tdesCipher (memRead s.mem s.sa s.sl))) (dropStreamsOf cid s)
  | .blksize cid => ∃ c, s.cipher? cid = some (some c) ∧ u = { s with result := BitVec.ofNat 32 (blockSizeOf c) }
  | .enc cid => ∃ c, s.cipher? cid = some (some c) ∧ blockSizeOf c ≤ s.sl ∧ blockSizeOf c ≤ s.dl ∧
      s.sa + s.sl ≤ 2 ^ 32 ∧ s.d + s.dl ≤ 2 ^ 32 ∧ identicalOrDisjoint s.d s.sa (blockSizeOf c) ∧
      u = { s with mem := memWrite s.mem s.d (encryptBlock c (memRead s.mem s.sa (blockSizeOf c))) }
  | .dec cid => ∃ c, s.cipher? cid = some (some c) ∧ blockSizeOf c ≤ s.sl ∧ blockSizeOf c ≤ s.dl ∧
      s.sa + s.sl ≤ 2 ^ 32 ∧ s.d + s.dl ≤ 2 ^ 32 ∧ identicalOrDisjoint s.d s.sa (blockSizeOf c) ∧
      u = { s with mem := memWrite s.mem s.d (decryptBlock c (memRead s.mem s.sa (blockSizeOf c))) }
  | .ctrnew sid cid => ∃ c, s.cipher? cid = some (some c) ∧ sid < s.nStream ∧ s.sl = blockSizeOf c ∧
      s.sa + s.sl ≤ 2 ^ 32 ∧
      u = setStream sid (some
        { cid := cid, bs := blockSizeOf c, ctr := memRead s.mem s.sa (blockSizeOf c), out := [], used := 0 }) s
  | .ctrxor sid => ∃ st c, s.stream? sid = some (some st) ∧ s.cipher? st.cid = some (some c) ∧ s.sl ≤ s.dl ∧
      s.sa + s.sl ≤ 2 ^ 32 ∧ s.d + s.dl ≤ 2 ^ 32 ∧ identicalOrDisjoint s.d s.sa s.sl ∧
      u = setStream sid (some (consume c s.d s.sa s.sl s.sl 0 st s.mem).1)
        { s with mem := (consume c s.d s.sa s.sl s.sl 0 st s.mem).2 }
  | .cdrop cid => cid < s.nCipher ∧ u = setCipher cid none (dropStreamsOf cid s)
  | .sdrop sid => sid < s.nStream ∧ u = setStream sid none s

/-- Why the command `i` ends with the error `code` and the bit `short` (`60_exceptions.md` R406 to R412). -/
def Reason (s : State) (i : Instr) (code : Code) (short : Bool) : Prop :=
  (code = .invalidContext ∧ short = false ∧
    (s.indexOutOfRange i ∨ s.slotEmpty i ∨
      ∃ sid st, i = .ctrxor sid ∧ s.stream? sid = some (some st) ∧ (s.cipher? st.cid).join = none)) ∨
  (code = .invalidKeySize ∧ ¬ s.indexOutOfRange i ∧ s.wrongKeyLength i ∧
    (short = true ↔ (∃ cid, i = .tdeskey cid) ∧ s.sl < 24)) ∨
  (code = .invalidIVLength ∧ short = false ∧ ¬ s.indexOutOfRange i ∧ ¬ s.slotEmpty i ∧ s.wrongIVLength i) ∨
  (code = .bufferTooSmall ∧ short = false ∧ ¬ s.indexOutOfRange i ∧ ¬ s.slotEmpty i ∧ s.shortBuffer i) ∨
  (code = .addressRange ∧ short = false ∧ ¬ s.indexOutOfRange i ∧ ¬ s.slotEmpty i ∧ ¬ s.wrongKeyLength i ∧
    ¬ s.wrongIVLength i ∧ ¬ s.shortBuffer i ∧ s.extentPastTop i) ∨
  (code = .bufferOverlap ∧ short = false ∧ ¬ s.indexOutOfRange i ∧ ¬ s.slotEmpty i ∧ ¬ s.wrongKeyLength i ∧
    ¬ s.wrongIVLength i ∧ ¬ s.shortBuffer i ∧ ¬ s.extentPastTop i ∧ s.partialOverlap i)

/-- The two ways a command ends: the state after it, and why. -/
def Ends (s : State) (i : Instr) (t : State) : Prop :=
  (∃ code short, t = raise code short s ∧ Reason s i code short) ∨ ∃ u, t = complete u ∧ Effect s u i

theorem indexOutOfRange_cid {s : State} {i : Instr} {cid : Nat} (hc : cidUsed i = some cid) (hs : sidUsed i = none) :
    s.indexOutOfRange i ↔ s.nCipher ≤ cid := by
  simp [State.indexOutOfRange, hc, hs]

theorem indexOutOfRange_sid {s : State} {i : Instr} {sid : Nat} (hc : cidUsed i = none) (hs : sidUsed i = some sid) :
    s.indexOutOfRange i ↔ s.nStream ≤ sid := by
  simp [State.indexOutOfRange, hc, hs]

theorem ends_aeskey (cid : Nat) (s : State) : ∃ t, exec (.aeskey cid) s = .next t ∧ Ends s (.aeskey cid) t := by
  have hx : s.indexOutOfRange (.aeskey cid) ↔ s.nCipher ≤ cid := indexOutOfRange_cid rfl rfl
  simp only [exec, execAeskey]
  rcases keyCommand_cases (fun n => n == 16 || n == 24 || n == 32) (fun _ => false) aesCipher cid s with
    ⟨h1, h⟩ | ⟨h1, h2, h⟩ | ⟨h1, h2, h3, h⟩ | ⟨h1, h2, h3, h⟩
  · exact ⟨_, h, .inl ⟨_, _, rfl, .inl ⟨rfl, rfl, .inl (hx.2 h1)⟩⟩⟩
  · refine ⟨_, h, .inl ⟨_, _, rfl, .inr (.inl ⟨rfl, by rw [hx]; omega, ?_, by simp⟩)⟩⟩
    simpa [State.wrongKeyLength, and_assoc] using h2
  · refine ⟨_, h, .inl ⟨_, _, rfl, .inr (.inr (.inr (.inr (.inl
      ⟨rfl, rfl, by rw [hx]; omega, id, ?_, id, id, h3⟩))))⟩⟩
    simp at h2
    simp only [State.wrongKeyLength]
    omega
  · refine ⟨_, h, .inr ⟨_, rfl, h1, ?_, h3, rfl⟩⟩
    simpa [or_assoc] using h2

theorem ends_deskey (cid : Nat) (s : State) : ∃ t, exec (.deskey cid) s = .next t ∧ Ends s (.deskey cid) t := by
  have hx : s.indexOutOfRange (.deskey cid) ↔ s.nCipher ≤ cid := indexOutOfRange_cid rfl rfl
  simp only [exec, execDeskey]
  rcases keyCommand_cases (fun n => n == 8) (fun _ => false) desCipher cid s with
    ⟨h1, h⟩ | ⟨h1, h2, h⟩ | ⟨h1, h2, h3, h⟩ | ⟨h1, h2, h3, h⟩
  · exact ⟨_, h, .inl ⟨_, _, rfl, .inl ⟨rfl, rfl, .inl (hx.2 h1)⟩⟩⟩
  · refine ⟨_, h, .inl ⟨_, _, rfl, .inr (.inl ⟨rfl, by rw [hx]; omega, ?_, by simp⟩)⟩⟩
    simpa [State.wrongKeyLength] using h2
  · refine ⟨_, h, .inl ⟨_, _, rfl, .inr (.inr (.inr (.inr (.inl
      ⟨rfl, rfl, by rw [hx]; omega, id, ?_, id, id, h3⟩))))⟩⟩
    simpa [State.wrongKeyLength] using h2
  · exact ⟨_, h, .inr ⟨_, rfl, h1, by simpa using h2, h3, rfl⟩⟩

theorem ends_tdeskey (cid : Nat) (s : State) : ∃ t, exec (.tdeskey cid) s = .next t ∧ Ends s (.tdeskey cid) t := by
  have hx : s.indexOutOfRange (.tdeskey cid) ↔ s.nCipher ≤ cid := indexOutOfRange_cid rfl rfl
  simp only [exec, execTdeskey]
  rcases keyCommand_cases (fun n => n == 24) (fun n => decide (n < 24)) tdesCipher cid s with
    ⟨h1, h⟩ | ⟨h1, h2, h⟩ | ⟨h1, h2, h3, h⟩ | ⟨h1, h2, h3, h⟩
  · exact ⟨_, h, .inl ⟨_, _, rfl, .inl ⟨rfl, rfl, .inl (hx.2 h1)⟩⟩⟩
  · refine ⟨_, h, .inl ⟨_, _, rfl, .inr (.inl ⟨rfl, by rw [hx]; omega, ?_, by simp⟩)⟩⟩
    simpa [State.wrongKeyLength] using h2
  · refine ⟨_, h, .inl ⟨_, _, rfl, .inr (.inr (.inr (.inr (.inl
      ⟨rfl, rfl, by rw [hx]; omega, id, ?_, id, id, h3⟩))))⟩⟩
    simpa [State.wrongKeyLength] using h2
  · exact ⟨_, h, .inr ⟨_, rfl, h1, by simpa using h2, h3, rfl⟩⟩

theorem ends_blksize (cid : Nat) (s : State) : ∃ t, exec (.blksize cid) s = .next t ∧ Ends s (.blksize cid) t := by
  rcases execBlksize_cases cid s with ⟨h1, h⟩ | ⟨c, h1, h⟩
  · exact ⟨_, h, .inl ⟨_, _, rfl, .inl ⟨rfl, rfl, .inr (.inl h1)⟩⟩⟩
  · exact ⟨_, h, .inr ⟨_, rfl, c, h1, rfl⟩⟩

/-- `ENC` and `DEC` end alike. -/
theorem ends_block {i : Instr} {cid : Nat} (hi : i = .enc cid ∨ i = .dec cid) (f : Cipher → List Byte → List Byte)
    (s : State) :
    ∃ t, blockCommand f cid s = .next t ∧
      ((∃ code short, t = raise code short s ∧ Reason s i code short) ∨
      ∃ c, s.cipher? cid = some (some c) ∧ blockSizeOf c ≤ s.sl ∧ blockSizeOf c ≤ s.dl ∧
        s.sa + s.sl ≤ 2 ^ 32 ∧ s.d + s.dl ≤ 2 ^ 32 ∧ identicalOrDisjoint s.d s.sa (blockSizeOf c) ∧
        t = complete { s with mem := memWrite s.mem s.d (f c (memRead s.mem s.sa (blockSizeOf c))) }) := by
  rcases blockCommand_cases f cid s with ⟨h1, h⟩ | ⟨c, hc, H⟩
  · refine ⟨_, h, .inl ⟨_, _, rfl, .inl ⟨rfl, rfl, .inr (.inl ?_)⟩⟩⟩
    rcases hi with rfl | rfl <;> exact h1
  · have hx : ¬ s.indexOutOfRange i := by
      have := lt_nCipher_of_cipher? hc
      rcases hi with rfl | rfl <;> rw [indexOutOfRange_cid rfl rfl] <;> omega
    have he : ¬ s.slotEmpty i := by rcases hi with rfl | rfl <;> simp [State.slotEmpty, hc]
    have hk : ¬ s.wrongKeyLength i := by rcases hi with rfl | rfl <;> simp [State.wrongKeyLength]
    have hv : ¬ s.wrongIVLength i := by rcases hi with rfl | rfl <;> simp [State.wrongIVLength]
    have hb : s.shortBuffer i ↔ s.sl < blockSizeOf c ∨ s.dl < blockSizeOf c := by
      rcases hi with rfl | rfl <;> simp [State.shortBuffer, hc]
    have ht : s.extentPastTop i ↔ 2 ^ 32 < s.sa + s.sl ∨ 2 ^ 32 < s.d + s.dl := by
      rcases hi with rfl | rfl <;> rfl
    have ho : s.partialOverlap i ↔ ¬ identicalOrDisjoint s.d s.sa (blockSizeOf c) := by
      rcases hi with rfl | rfl <;> simp [State.partialOverlap, State.touched, hc]
    rcases H with ⟨h1, h⟩ | ⟨h1, h2, h3, h⟩ | ⟨h1, h2, h3, h4, h5, h⟩ | ⟨h1, h2, h3, h4, h5, h⟩
    · exact ⟨_, h, .inl ⟨_, _, rfl, .inr (.inr (.inr (.inl ⟨rfl, rfl, hx, he, hb.2 h1⟩)))⟩⟩
    · exact ⟨_, h, .inl ⟨_, _, rfl, .inr (.inr (.inr (.inr (.inl
        ⟨rfl, rfl, hx, he, hk, hv, by rw [hb]; omega, ht.2 h3⟩))))⟩⟩
    · exact ⟨_, h, .inl ⟨_, _, rfl, .inr (.inr (.inr (.inr (.inr
        ⟨rfl, rfl, hx, he, hk, hv, by rw [hb]; omega, by rw [ht]; omega, ho.2 h5⟩))))⟩⟩
    · exact ⟨_, h, .inr ⟨c, hc, h1, h2, h3, h4, h5, rfl⟩⟩

theorem ends_enc (cid : Nat) (s : State) : ∃ t, exec (.enc cid) s = .next t ∧ Ends s (.enc cid) t := by
  obtain ⟨t, h, H | ⟨c, hc, h1, h2, h3, h4, h5, rfl⟩⟩ := ends_block (.inl rfl) encryptBlock s
  · exact ⟨t, h, .inl H⟩
  · exact ⟨_, h, .inr ⟨_, rfl, c, hc, h1, h2, h3, h4, h5, rfl⟩⟩

theorem ends_dec (cid : Nat) (s : State) : ∃ t, exec (.dec cid) s = .next t ∧ Ends s (.dec cid) t := by
  obtain ⟨t, h, H | ⟨c, hc, h1, h2, h3, h4, h5, rfl⟩⟩ := ends_block (.inr rfl) decryptBlock s
  · exact ⟨t, h, .inl H⟩
  · exact ⟨_, h, .inr ⟨_, rfl, c, hc, h1, h2, h3, h4, h5, rfl⟩⟩

theorem ends_ctrnew (sid cid : Nat) (s : State) :
    ∃ t, exec (.ctrnew sid cid) s = .next t ∧ Ends s (.ctrnew sid cid) t := by
  rcases execCtrnew_cases sid cid s with ⟨h1, h⟩ | ⟨c, hc, hs, H⟩
  · refine ⟨_, h, .inl ⟨_, _, rfl, .inl ⟨rfl, rfl, ?_⟩⟩⟩
    rcases h1 with h1 | h1
    · exact .inl (.inr ⟨sid, rfl, h1⟩)
    · exact .inr (.inl h1)
  · have hx : ¬ s.indexOutOfRange (.ctrnew sid cid) := by
      have := lt_nCipher_of_cipher? hc
      simp only [State.indexOutOfRange, cidUsed, sidUsed, Option.some.injEq, exists_eq_left']
      omega
    have he : ¬ s.slotEmpty (.ctrnew sid cid) := by simp [State.slotEmpty, hc]
    have hv : s.wrongIVLength (.ctrnew sid cid) ↔ s.sl ≠ blockSizeOf c := by simp [State.wrongIVLength, hc]
    rcases H with ⟨h1, h⟩ | ⟨h1, h2, h⟩ | ⟨h1, h2, h⟩
    · exact ⟨_, h, .inl ⟨_, _, rfl, .inr (.inr (.inl ⟨rfl, rfl, hx, he, hv.2 h1⟩))⟩⟩
    · exact ⟨_, h, .inl ⟨_, _, rfl, .inr (.inr (.inr (.inr (.inl
        ⟨rfl, rfl, hx, he, id, by rw [hv]; omega, id, h2⟩))))⟩⟩
    · exact ⟨_, h, .inr ⟨_, rfl, c, hc, hs, h1, h2, rfl⟩⟩

theorem ends_ctrxor (sid : Nat) (s : State) : ∃ t, exec (.ctrxor sid) s = .next t ∧ Ends s (.ctrxor sid) t := by
  simp only [exec]
  rcases execCtrxor_cases sid s with ⟨h1, h⟩ | ⟨st, hs, ⟨h1, h⟩ | ⟨c, hc, hr⟩⟩
  · exact ⟨_, h, .inl ⟨_, _, rfl, .inl ⟨rfl, rfl, .inr (.inl h1)⟩⟩⟩
  · exact ⟨_, h, .inl ⟨_, _, rfl, .inl ⟨rfl, rfl, .inr (.inr ⟨sid, st, rfl, hs, h1⟩)⟩⟩⟩
  · have hx : ¬ s.indexOutOfRange (.ctrxor sid) := by
      have := lt_nStream_of_stream? hs
      rw [indexOutOfRange_sid rfl rfl]; omega
    have he : ¬ s.slotEmpty (.ctrxor sid) := by simp [State.slotEmpty, hs]
    rw [hr]
    rcases xorKeyStream_cases sid st c s with ⟨h1, h⟩ | ⟨h1, h2, h⟩ | ⟨h1, h2, h3, h4, h⟩ | ⟨h1, h2, h3, h4, h⟩
    · exact ⟨_, h, .inl ⟨_, _, rfl, .inr (.inr (.inr (.inl ⟨rfl, rfl, hx, he, h1⟩)))⟩⟩
    · exact ⟨_, h, .inl ⟨_, _, rfl, .inr (.inr (.inr (.inr (.inl
        ⟨rfl, rfl, hx, he, id, id, Nat.not_lt.2 h1, h2⟩))))⟩⟩
    · exact ⟨_, h, .inl ⟨_, _, rfl, .inr (.inr (.inr (.inr (.inr
        ⟨rfl, rfl, hx, he, id, id, Nat.not_lt.2 h1, by simp only [State.extentPastTop]; omega, h4⟩))))⟩⟩
    · exact ⟨_, h, .inr ⟨_, rfl, st, c, hs, hc, h1, h2, h3, h4, rfl⟩⟩

theorem ends_cdrop (cid : Nat) (s : State) : ∃ t, exec (.cdrop cid) s = .next t ∧ Ends s (.cdrop cid) t := by
  have hx : s.indexOutOfRange (.cdrop cid) ↔ s.nCipher ≤ cid := indexOutOfRange_cid rfl rfl
  rcases execCdrop_cases cid s with ⟨h1, h⟩ | ⟨h1, h⟩
  · exact ⟨_, h, .inl ⟨_, _, rfl, .inl ⟨rfl, rfl, .inl (hx.2 h1)⟩⟩⟩
  · exact ⟨_, h, .inr ⟨_, rfl, h1, rfl⟩⟩

theorem ends_sdrop (sid : Nat) (s : State) : ∃ t, exec (.sdrop sid) s = .next t ∧ Ends s (.sdrop sid) t := by
  have hx : s.indexOutOfRange (.sdrop sid) ↔ s.nStream ≤ sid := indexOutOfRange_sid rfl rfl
  rcases execSdrop_cases sid s with ⟨h1, h⟩ | ⟨h1, h⟩
  · exact ⟨_, h, .inl ⟨_, _, rfl, .inl ⟨rfl, rfl, .inl (hx.2 h1)⟩⟩⟩
  · exact ⟨_, h, .inr ⟨_, rfl, h1, rfl⟩⟩

/-- Every command answers a next state, by an error with its reason or by completing with its effect. -/
theorem exec_ends (i : Instr) (s : State) : ∃ t, exec i s = .next t ∧ Ends s i t := by
  cases i with
  | aeskey cid => exact ends_aeskey cid s
  | deskey cid => exact ends_deskey cid s
  | tdeskey cid => exact ends_tdeskey cid s
  | blksize cid => exact ends_blksize cid s
  | enc cid => exact ends_enc cid s
  | dec cid => exact ends_dec cid s
  | ctrnew sid cid => exact ends_ctrnew sid cid s
  | ctrxor sid => exact ends_ctrxor sid s
  | cdrop cid => exact ends_cdrop cid s
  | sdrop sid => exact ends_sdrop sid s

/-- Inversion: a next state of a command is one of its two kinds of end. -/
theorem ends_of_exec {i : Instr} {s t : State} (h : exec i s = .next t) : Ends s i t := by
  obtain ⟨t', h', H⟩ := exec_ends i s
  rw [h] at h'
  cases h'
  exact H

end Sys2Proof.Machine
end

