-- ==== Sys2Proof/Laws/HostPort.lean ====
section
/-! SUPPORT. Memory stays in canonical form through commands and resets, and what a reset during a command leaves. -/

namespace Sys2Proof.Machine

/-- The memory of `State.reset` has the canonical form. -/
theorem reset_mem_wf : State.reset.mem.wf := wf_nil

/-- A command keeps the canonical form of memory, in every state that has it. -/
theorem wf_of_exec {i : Instr} {s t : State} (hm : s.mem.wf) (h : exec i s = .next t) : t.mem.wf := by
  rcases ends_of_exec h with ⟨code, short, rfl, -⟩ | ⟨u, rfl, he⟩
  · exact hm
  · cases i with
    | aeskey cid => obtain ⟨-, -, -, rfl⟩ := he; exact hm
    | deskey cid => obtain ⟨-, -, -, rfl⟩ := he; exact hm
    | tdeskey cid => obtain ⟨-, -, -, rfl⟩ := he; exact hm
    | blksize cid => obtain ⟨c, -, rfl⟩ := he; exact hm
    | enc cid =>
      obtain ⟨c, -, -, hdl, -, hd, -, rfl⟩ := he
      exact wf_memWrite hm (by simp only [length_encryptBlock, Config.memSize]; omega)
    | dec cid =>
      obtain ⟨c, -, -, hdl, -, hd, -, rfl⟩ := he
      exact wf_memWrite hm (by simp only [length_decryptBlock, Config.memSize]; omega)
    | ctrnew sid cid => obtain ⟨c, -, -, -, -, rfl⟩ := he; exact hm
    | ctrxor sid =>
      obtain ⟨st, c, -, -, hdl, -, hd, -, rfl⟩ := he
      exact wf_consume _ _ _ _ hm (by simp only [Config.memSize]; omega)
    | cdrop cid => obtain ⟨-, rfl⟩ := he; exact hm
    | sdrop sid => obtain ⟨-, rfl⟩ := he; exact hm

/-- A word written to `CMD` has a next state. -/
theorem issue_next (w : Word) (s : State) : ∃ t, issue w s = .next t := by
  unfold issue
  split
  · exact ⟨s, rfl⟩
  · split
    · obtain ⟨t, h, -⟩ := exec_ends ‹Instr› s
      exact ⟨t, h⟩
    · exact ⟨_, rfl⟩

/-- The next state of a word written to `CMD`: ignored, an executed command, or an illegal word. -/
theorem issue_cases {w : Word} {s t : State} (h : issue w s = .next t) :
    (s.status.fatal = true ∧ t = s) ∨
      (s.status.fatal = false ∧ ∃ i, decode w = .ok i ∧ exec i s = .next t) ∨
      (s.status.fatal = false ∧ (∃ r, decode w = .error r) ∧ t = s.fatalEnd .invalidOpcode) := by
  unfold issue at h
  split at h
  · next hf => cases h; exact .inl ⟨hf, rfl⟩
  · next hf =>
    rw [Bool.not_eq_true] at hf
    split at h
    · next i hi => exact .inr (.inl ⟨hf, i, hi, h⟩)
    · next r hr => cases h; exact .inr (.inr ⟨hf, ⟨r, hr⟩, raise_eq_fatalEnd rfl s⟩)

theorem wf_of_issue {w : Word} {s t : State} (hm : s.mem.wf) (h : issue w s = .next t) : t.mem.wf := by
  rcases issue_cases h with ⟨-, rfl⟩ | ⟨-, i, -, he⟩ | ⟨-, -, rfl⟩
  · exact hm
  · exact wf_of_exec hm he
  · exact hm

/-- Memory after a command cut short stays canonical, and each byte is the old one, or the new one inside the extent. -/
theorem tornMemory_spec (pick : Nat → Bool) (d : Nat) {old new : Memory} (ho : old.wf) (hn : new.wf) (n : Nat) :
    (tornMemory pick d old new n).wf ∧
      ∀ a, (tornMemory pick d old new n).read a = old.read a ∨
        ((tornMemory pick d old new n).read a = new.read a ∧ d ≤ a ∧ a < d + n) := by
  induction n with
  | zero => exact ⟨ho, fun a => .inl rfl⟩
  | succ n ih =>
    obtain ⟨hw, hr⟩ := ih
    have hr' : ∀ a, (tornMemory pick d old new n).read a = old.read a ∨
        ((tornMemory pick d old new n).read a = new.read a ∧ d ≤ a ∧ a < d + (n + 1)) := fun a =>
      (hr a).imp_right fun h => ⟨h.1, h.2.1, by omega⟩
    simp only [tornMemory]
    split
    · refine ⟨wf_write hw ?_, fun a => ?_⟩
      · rcases Nat.lt_or_ge (d + n) Config.memSize with h | h
        · exact .inl h
        · exact .inr (read_outside hn h)
      · rw [read_write hw]
        split
        · next h => subst h; exact .inr ⟨rfl, by omega, by omega⟩
        · exact hr' a
    · exact ⟨hw, hr'⟩

end Sys2Proof.Machine
end

