-- ==== Sys2Proof/Laws/PerInstr.lean ====
section
/-! SUPPORT. Per-command facts about the encoding: the fields of the word of a well-formed command. -/

namespace Sys2Proof.Laws.EncodeFields

/-- The word of a well-formed command has the command's `OPC` in bits 7:0 and `RSV` = 0 (`30_encoding.md` R92, R95,
R97). -/
def Statement (i : Instr) : Prop := i.wf = true → opcOf (encode i) = i.opc ∧ rsvOf (encode i) = 0

/-- The fields of a word built from small field values. -/
theorem fields_commandWord {opc cid sid : Nat} (ho : opc < 256) (hc : cid < 16) (hs : sid < 16) :
    opcOf (commandWord opc cid sid) = opc ∧ cidOf (commandWord opc cid sid) = cid ∧
      sidOf (commandWord opc cid sid) = sid ∧ rsvOf (commandWord opc cid sid) = 0 := by
  simp only [opcOf, cidOf, sidOf, rsvOf, commandWord, BitVec.toNat_ofNat]
  omega

/-- Commands that name at most one slot. -/
theorem of_commandWord {i : Instr} {cid sid : Nat} (he : encode i = commandWord i.opc cid sid) (ho : i.opc < 256)
    (hc : cid < 16) (hs : sid < 16) : opcOf (encode i) = i.opc ∧ rsvOf (encode i) = 0 :=
  he ▸ ⟨(fields_commandWord ho hc hs).1, (fields_commandWord ho hc hs).2.2.2⟩

theorem aeskey (cid : Nat) : Statement (.aeskey cid) := fun h =>
  of_commandWord rfl (by simp [Instr.opc]) (of_decide_eq_true h) (by decide)

theorem deskey (cid : Nat) : Statement (.deskey cid) := fun h =>
  of_commandWord rfl (by simp [Instr.opc]) (of_decide_eq_true h) (by decide)

theorem tdeskey (cid : Nat) : Statement (.tdeskey cid) := fun h =>
  of_commandWord rfl (by simp [Instr.opc]) (of_decide_eq_true h) (by decide)

theorem blksize (cid : Nat) : Statement (.blksize cid) := fun h =>
  of_commandWord rfl (by simp [Instr.opc]) (of_decide_eq_true h) (by decide)

theorem enc (cid : Nat) : Statement (.enc cid) := fun h =>
  of_commandWord rfl (by simp [Instr.opc]) (of_decide_eq_true h) (by decide)

theorem dec (cid : Nat) : Statement (.dec cid) := fun h =>
  of_commandWord rfl (by simp [Instr.opc]) (of_decide_eq_true h) (by decide)

theorem ctrnew (sid cid : Nat) : Statement (.ctrnew sid cid) := fun h => by
  simp only [Instr.wf, Bool.and_eq_true, decide_eq_true_eq] at h
  exact of_commandWord rfl (by simp [Instr.opc]) h.2 h.1

theorem ctrxor (sid : Nat) : Statement (.ctrxor sid) := fun h =>
  of_commandWord rfl (by simp [Instr.opc]) (by decide) (of_decide_eq_true h)

theorem cdrop (cid : Nat) : Statement (.cdrop cid) := fun h =>
  of_commandWord rfl (by simp [Instr.opc]) (of_decide_eq_true h) (by decide)

theorem sdrop (sid : Nat) : Statement (.sdrop sid) := fun h =>
  of_commandWord rfl (by simp [Instr.opc]) (by decide) (of_decide_eq_true h)

end Sys2Proof.Laws.EncodeFields
end

