-- ==== Sys2Proof/Tests/Slice0.lean ====
section
/-! SUPPORT. Tests from the spec's worked examples (each names its rule), the WellFormed smoke, and for every statement
with hypotheses a witness that meets them, clause by clause (`witness_<Name>`). -/

namespace Sys2Proof.Tests

open Sys2Proof Sys2Proof.Machine

set_option Elab.async false

/-! ### Well-formed and decoded -/

theorem test_wf_refuses_large_index :
    (Instr.aeskey 16).wf = false ∧ (Instr.deskey 16).wf = false ∧ (Instr.tdeskey 16).wf = false ∧
    (Instr.blksize 16).wf = false ∧ (Instr.enc 16).wf = false ∧ (Instr.dec 16).wf = false ∧
    (Instr.ctrnew 16 0).wf = false ∧ (Instr.ctrnew 0 16).wf = false ∧ (Instr.ctrxor 16).wf = false ∧
    (Instr.cdrop 16).wf = false ∧ (Instr.sdrop 16).wf = false := by decide

/-- One word a command, written out as `RSV SID CID OPC` from `30_encoding.md` R91 and the `OPC` column of R97. -/
theorem test_decode_words :
    decodeTableWord 32 0b0000000000000000_0000_0101_00000001 = some (.aeskey 5) ∧
    decodeTableWord 32 0b0000000000000000_0000_0000_00000010 = some (.deskey 0) ∧
    decodeTableWord 32 0b0000000000000000_0000_1111_00000011 = some (.tdeskey 15) ∧
    decodeTableWord 32 0b0000000000000000_0000_0001_00000100 = some (.blksize 1) ∧
    decodeTableWord 32 0b0000000000000000_0000_0011_00000101 = some (.enc 3) ∧
    decodeTableWord 32 0b0000000000000000_0000_1000_00000110 = some (.dec 8) ∧
    decodeTableWord 32 0b0000000000000000_0001_0010_00000111 = some (.ctrnew 1 2) ∧
    decodeTableWord 32 0b0000000000000000_1111_0000_00001000 = some (.ctrxor 15) ∧
    decodeTableWord 32 0b0000000000000000_0000_0100_00001001 = some (.cdrop 4) ∧
    decodeTableWord 32 0b0000000000000000_0001_0000_00001010 = some (.sdrop 1) := by decide

/-- `30_encoding.md` R99: (a), (b), (c), (d) and the two words it names. -/
theorem test_decode_illegal :
    decodeTableWord 32 0x00000000 = none ∧ decodeTableWord 32 0x0000000B = none ∧
    decodeTableWord 32 0x00010005 = none ∧ decodeTableWord 32 0x00001005 = none ∧
    decodeTableWord 32 0x00000108 = none ∧ decodeTableWord 32 0x0000010A = none ∧
    decodeTableWord 32 0xFFFFFFFF = none := by decide

/-! ### States for the tests -/

def testState (dst dlen src slen : Word) (ciphers : List (Option Cipher)) (streams : List (Option Machine.Stream))
    (mem : Memory) : State :=
  { State.reset with
    argDst := dst, argDlen := dlen, argSrc := src, argSlen := slen, ciphers := ciphers, streams := streams, mem := mem }

/-- The outcome is a next state that passes the check. -/
def nextWith (o : Host.Outcome State Fault Refusal) (check : State → Bool) : Bool :=
  match o with
  | .next t => check t
  | .fault _ => false
  | .refused _ => false

theorem exists_of_nextWith {o : Host.Outcome State Fault Refusal} {check : State → Bool} (h : nextWith o check = true) :
    ∃ t, o = .next t ∧ check t = true := by
  cases o with
  | next t => exact ⟨t, rfl, h⟩
  | fault r => cases h
  | refused r => cases h

/-- A command that ends with the code `code`. -/
theorem exists_exec {i : Instr} {s : State} {code : Code}
    (h : nextWith (exec i s) (fun t => t.status.code == code) = true) : ∃ t, exec i s = .next t ∧ t.status.code = code := by
  obtain ⟨t, h, hc⟩ := exists_of_nextWith h
  exact ⟨t, h, of_decide_eq_true (by simpa using hc)⟩

/-- The key of `41_aes_keyschedule.md` R155. -/
def aesKey : List Byte :=
  [0x2b, 0x7e, 0x15, 0x16, 0x28, 0xae, 0xd2, 0xa6, 0xab, 0xf7, 0x15, 0x88, 0x09, 0xcf, 0x4f, 0x3c]

/-- The key of `43_des_keyschedule.md` R227. -/
def desKey : List Byte := [0x13, 0x34, 0x57, 0x79, 0x9B, 0xBC, 0xDF, 0xF1]

/-- The key of `45_tdes.md` R295. -/
def tdesKey : List Byte :=
  [0x01, 0x23, 0x45, 0x67, 0x89, 0xab, 0xcd, 0xef, 0x23, 0x45, 0x67, 0x89, 0xab, 0xcd, 0xef, 0x01,
    0x45, 0x67, 0x89, 0xab, 0xcd, 0xef, 0x01, 0x23]

/-- The initial counter of `47_ctr.md` R360. -/
def aesIv : List Byte :=
  [0xf0, 0xf1, 0xf2, 0xf3, 0xf4, 0xf5, 0xf6, 0xf7, 0xf8, 0xf9, 0xfa, 0xfb, 0xfc, 0xfd, 0xfe, 0xff]

/-- The first two blocks of the source of `47_ctr.md` R360. -/
def aesText : List Byte :=
  [0x6b, 0xc1, 0xbe, 0xe2, 0x2e, 0x40, 0x9f, 0x96, 0xe9, 0x3d, 0x7e, 0x11, 0x73, 0x93, 0x17, 0x2a,
    0xae, 0x2d, 0x8a, 0x57, 0x1e, 0x03, 0xac, 0x9c, 0x9e, 0xb7, 0x6f, 0xac, 0x45, 0xaf, 0x8e, 0x51]

set_option maxRecDepth 20000

/-! ### The inner functions -/

/-- `40_gf256.md` R122, R126. -/
theorem test_gmul_worked_products :
    xtime 0x8E = 0x07 ∧ xtime 0xFF = 0xE5 ∧ gmul 0x57 0x83 = 0xC1 ∧ gmul 0x57 0x13 = 0xFE ∧ gmul 0x80 0x02 = 0x1B ∧
    gmul 0xFF 0xFF = 0x13 ∧ gmul 0x53 0xCA = 0x01 := by decide

/-- `44_des_feistel.md` R257. -/
theorem test_desF_worked_examples :
    desF 0 0 = 0xD8D8DBBC ∧ desF 0xFFFFFFFF 0xFFFFFFFFFFFF = 0xD8D8DBBC ∧ desF 0xF0AAF0AA 0x1B02EFFC7072 = 0x234AA9BB := by
  decide +kernel

/-- `42_aes_rounds.md` R202: the AES worked example. -/
theorem test_aes_worked_example :
    encryptBlock (aesCipher aesKey)
      [0x32, 0x43, 0xf6, 0xa8, 0x88, 0x5a, 0x30, 0x8d, 0x31, 0x31, 0x98, 0xa2, 0xe0, 0x37, 0x07, 0x34] =
      [0x39, 0x25, 0x84, 0x1d, 0x02, 0xdc, 0x09, 0xfb, 0xdc, 0x11, 0x85, 0x97, 0x19, 0x6a, 0x0b, 0x32] := by
  decide +kernel

/-- `47_ctr.md` R340, `95_test_vectors.md` S5. -/
theorem test_ctrInc_wraps_and_carries :
    ctrInc (List.replicate 16 0xff) = List.replicate 16 0 ∧ ctrInc (List.replicate 8 0xff) = List.replicate 8 0 ∧
    ctrInc [0, 0, 0, 0, 0, 0, 0xff, 0xff] = [0, 0, 0, 0, 0, 1, 0, 0] := by decide +kernel

/-! ### One command on a small state -/

/-- `41_aes_keyschedule.md` R155. -/
theorem test_aeskey_worked_example :
    nextWith (exec (.aeskey 0) (testState 0 0 0x100 16 [none] [none] (memWrite [] 0x100 aesKey))) (fun t =>
      t.status.word == 0 &&
        match t.cipher? 0 with
        | some (some (.aes nk ek dk)) => nk == 4 && schedWord ek 43 == 0xB6630CA6 && schedWord dk 0 == 0xD014F9A8
        | _ => false) = true := by decide +kernel

/-- `41_aes_keyschedule.md` R155, `60_exceptions.md` R426 (6), (7): a wrong length, and a legal one past the top. -/
theorem test_aeskey_errors :
    nextWith (exec (.aeskey 0) (testState 0 0 0xFFFFFFF8 15 [none] [none] [])) (fun t => t.status.word == 0x00000001) = true ∧
    nextWith (exec (.aeskey 0) (testState 0 0 0xFFFFFFF8 16 [none] [none] [])) (fun t => t.status.word == 0x00000106) = true ∧
    nextWith (exec (.aeskey 0) (testState 0 0 0xFFFFFFF0 16 [none] [none] [])) (fun t => t.status.word == 0) = true := by
  decide +kernel

/-- `43_des_keyschedule.md` R227. -/
theorem test_deskey_worked_example :
    nextWith (exec (.deskey 1) (testState 0 0 0x100 8 [none, none] [none] (memWrite [] 0x100 desKey))) (fun t =>
      t.status.word == 0 &&
        match t.cipher? 1 with
        | some (some (.des ks)) => ks.getD 0 0 == 0x00001B02EFFC7072 && ks.getD 15 0 == 0x0000CB3D8B0E17F5
        | _ => false) = true := by decide +kernel

/-- `43_des_keyschedule.md` R227. -/
theorem test_deskey_short_key :
    exec (.deskey 1) (testState 0 0 0x100 7 [none, none] [none] []) =
      .next { testState 0 0 0x100 7 [none, none] [none] [] with status := ⟨.invalidKeySize, false, false⟩ } := rfl

/-- `45_tdes.md` R295. -/
theorem test_tdeskey_worked_example :
    nextWith (exec (.tdeskey 0) (testState 0 0 0x200 24 [none] [none] (memWrite [] 0x200 tdesKey))) (fun t =>
      t.status.word == 0 &&
        match t.cipher? 0 with
        | some (some (.tdes ks1 ks2 ks3)) =>
          ks1.getD 0 0 == 0x00000B02679B49A5 && ks2.getD 15 0 == 0x0000B691050A16B5 && ks3.getD 15 0 == 0x000066EF20293E0A
        | _ => false) = true := by decide +kernel

/-- `45_tdes.md` R295: `SHORT` only when the key is too short. -/
theorem test_tdeskey_short :
    nextWith (exec (.tdeskey 0) (testState 0 0 0x200 16 [none] [none] [])) (fun t => t.status.word == 0x00000201) = true ∧
    nextWith (exec (.tdeskey 0) (testState 0 0 0x200 25 [none] [none] [])) (fun t => t.status.word == 0x00000001) = true := by
  decide

/-- `46_block_capability.md` R326 (1), (6). -/
theorem test_blksize :
    nextWith (exec (.blksize 0) (testState 0 0 0 0 [some (aesCipher aesKey)] [none] []))
      (fun t => t.result == 16 && t.status.word == 0) = true ∧
    nextWith (exec (.blksize 0) (testState 0 0 0 0 [none] [none] []))
      (fun t => t.result == 0 && t.status.word == 0x00000105) = true := by decide +kernel

/-- `45_tdes.md` R295: the first block of the Triple-DES sample, on the adjacent destination. -/
theorem test_enc_tdes :
    nextWith (exec (.enc 0) (testState 0x308 8 0x300 8 [some (tdesCipher tdesKey)] [none]
      (memWrite [] 0x300 [0x54, 0x68, 0x65, 0x20, 0x71, 0x75, 0x66, 0x63]))) (fun t =>
      memRead t.mem 0x308 8 == [0xa8, 0x26, 0xfd, 0x8c, 0xe5, 0x3b, 0x85, 0x5f]) = true := by decide +kernel

/-- `46_block_capability.md` R326 (4), (5). -/
theorem test_enc_errors :
    nextWith (exec (.enc 0) (testState 0x408 16 0x400 24 [some (aesCipher aesKey)] [none] []))
      (fun t => t.status.word == 0x00000107 && t.mem == []) = true ∧
    nextWith (exec (.enc 0) (testState 0x500 15 0x400 16 [some (aesCipher aesKey)] [none] []))
      (fun t => t.status.word == 0x00000103) = true := by decide +kernel

/-- `44_des_feistel.md` R261, in place, with a byte behind the block that is not touched. -/
theorem test_dec_des :
    nextWith (exec (.dec 0) (testState 0x300 8 0x300 9 [some (desCipher desKey)] [none]
      (memWrite [] 0x300 [0x85, 0xE8, 0x13, 0x54, 0x0F, 0x0A, 0xB4, 0x05, 0xA5]))) (fun t =>
      memRead t.mem 0x300 9 == [0x01, 0x23, 0x45, 0x67, 0x89, 0xAB, 0xCD, 0xEF, 0xA5]) = true := by decide +kernel

/-- `42_aes_rounds.md` R202. -/
theorem test_dec_aes :
    nextWith (exec (.dec 0) (testState 0x200 16 0x300 16 [some (aesCipher aesKey)] [none]
      (memWrite [] 0x300
        [0x39, 0x25, 0x84, 0x1d, 0x02, 0xdc, 0x09, 0xfb, 0xdc, 0x11, 0x85, 0x97, 0x19, 0x6a, 0x0b, 0x32]))) (fun t =>
      memRead t.mem 0x200 16 ==
        [0x32, 0x43, 0xf6, 0xa8, 0x88, 0x5a, 0x30, 0x8d, 0x31, 0x31, 0x98, 0xa2, 0xe0, 0x37, 0x07, 0x34]) = true := by
  decide +kernel

/-- `47_ctr.md` R360: the state after `CTRNEW`. -/
theorem test_ctrnew_worked_example :
    nextWith (exec (.ctrnew 0 0) (testState 0 0 0x110 16 [some (aesCipher aesKey)] [none] (memWrite [] 0x110 aesIv)))
      (fun t => t.streams == [some { cid := 0, bs := 16, ctr := aesIv, out := [], used := 0 }]) = true := by
  decide +kernel

/-- `47_ctr.md` R364: an IV of another block size. -/
theorem test_ctrnew_wrong_iv :
    nextWith (exec (.ctrnew 0 0) (testState 0 0 0x110 16 [some (desCipher desKey)] [none] [])) (fun t =>
      t.status.word == 0x00000002 && t.streams == [none]) = true := by decide +kernel

/-- `47_ctr.md` R360: the first two blocks, and the counter and cursor the one refill leaves. -/
theorem test_ctrxor_aes :
    nextWith (exec (.ctrxor 0) (testState 0x2000 32 0x1000 32 [some (aesCipher aesKey)]
      [some { cid := 0, bs := 16, ctr := aesIv, out := [], used := 0 }] (memWrite [] 0x1000 aesText))) (fun t =>
      memRead t.mem 0x2000 32 ==
        [0x87, 0x4d, 0x61, 0x91, 0xb6, 0x20, 0xe3, 0x26, 0x1b, 0xef, 0x68, 0x64, 0x99, 0x0d, 0xb6, 0xce,
          0x98, 0x06, 0xf6, 0x6b, 0x79, 0x70, 0xfd, 0xff, 0x86, 0x17, 0x18, 0x7b, 0xb9, 0xff, 0xfd, 0xff] &&
      (t.stream? 0).join.map (fun st => (st.fill, st.used, st.ctr.drop 13)) == some (512, 32, [0xfd, 0xff, 0x1f])) = true := by
  decide +kernel

/-- `47_ctr.md` R364: a DES stream whose counter wraps. -/
theorem test_ctrxor_des :
    nextWith (exec (.ctrxor 0) (testState 0x2000 24 0x1000 24 [some (desCipher desKey)]
      [some { cid := 0, bs := 8, ctr := [0xff, 0xff, 0xff, 0xff, 0xff, 0xff, 0xff, 0xfe], out := [], used := 0 }]
      (memWrite [] 0x1000
        [0x4e, 0x6f, 0x77, 0x20, 0x69, 0x73, 0x20, 0x74, 0x68, 0x65, 0x20, 0x74, 0x69, 0x6d, 0x65, 0x20,
          0x66, 0x6f, 0x72, 0x20, 0x61, 0x6c, 0x6c, 0x20]))) (fun t =>
      memRead t.mem 0x2000 24 ==
        [0xb7, 0x77, 0xbf, 0x65, 0xda, 0x11, 0x87, 0x58, 0x32, 0x58, 0x93, 0x70, 0xbf, 0x24, 0x41, 0xdd,
          0xf2, 0xe5, 0x31, 0xd9, 0xeb, 0xef, 0x23, 0x5e] &&
      (t.stream? 0).join.map (fun st => (st.fill, st.used, st.ctr)) ==
        some (512, 24, [0, 0, 0, 0, 0, 0, 0, 0x3e])) = true := by
  decide +kernel

/-- `46_block_capability.md` R318, R320: the stream bound to the slot goes, the other stays; an empty slot is no error. -/
theorem test_cdrop :
    nextWith (exec (.cdrop 1) (testState 0 0 0 0 [some (desCipher desKey), some (desCipher desKey), none]
      [some { cid := 1, bs := 8, ctr := [], out := [], used := 0 }, some { cid := 0, bs := 8, ctr := [], out := [], used := 0 }] []))
      (fun t => t.ciphers.map kindNumber == [2, 0, 0] && t.streams.map Option.isSome == [false, true]) = true ∧
    nextWith (exec (.cdrop 0) State.reset) (fun t => t.status.word == 0) = true ∧
    nextWith (exec (.cdrop 4) State.reset) (fun t => t.status.word == 0x00000105) = true := by decide +kernel

/-- `47_ctr.md` R354. -/
theorem test_sdrop :
    nextWith (exec (.sdrop 1) (testState 0 0 0 0 [none] [none, some { cid := 0, bs := 8, ctr := [], out := [], used := 0 }] []))
      (fun t => t.streams == [none, none] && t.status.word == 0) = true ∧
    nextWith (exec (.sdrop 2) State.reset) (fun t => t.status.word == 0x00000105) = true := by decide +kernel

/-- `60_exceptions.md` R426 (1), (2), (3), (10), from reset, and (9) for a fatal state. -/
theorem test_step_on_command_words :
    [0x00000000, 0x00010005, 0x00001005].all (fun w =>
      nextWith (step (State.reset.withFetchWord 32 w)) (fun t => t.status.word == 0x00000104)) = true ∧
    nextWith (step (State.reset.withFetchWord 32 0x00000505)) (fun t => t.status.word == 0x00000105) = true ∧
    nextWith (step (State.withFetchWord { State.reset with status := ⟨.addressRange, true, false⟩ } 32 0x00000001))
      (fun t => t.status.word == 0x00000106) = true := by decide +kernel

/-! ### Witnesses: states and operands that meet the hypotheses of the statements -/

def okStatus : Status := { code := .ok, fatal := false, short := false }

def fatalStatus : Status := { code := .addressRange, fatal := true, short := false }

theorem okStatus_wf : okStatus.wf := ⟨rfl, by decide⟩

theorem fatalStatus_wf : fatalStatus.wf := ⟨rfl, by decide⟩

/-- A stream just made on `C[0]`, a DES slot. -/
def freshStream : Machine.Stream := { cid := 0, bs := 8, ctr := [0, 0, 0, 0, 0, 0, 0, 1], out := [], used := 0 }

/-- A machine with a DES, an AES and two empty cipher slots, two streams at the same place on the DES slot, and an empty
stream slot. -/
def demoAll (key : List Byte) (dst dlen src slen : Word) (inputs : List HostAccess) (status : Status) (mem : Memory) : State :=
  { State.reset with
    argDst := dst, argDlen := dlen, argSrc := src, argSlen := slen, inputs := inputs, status := status, mem := mem
    ciphers := [some (desCipher key), some (aesCipher aesKey), none, none]
    streams := [some freshStream, some freshStream, none] }

def demo (dst dlen src slen : Word) (inputs : List HostAccess) : State :=
  demoAll desKey dst dlen src slen inputs okStatus [(0x100, 0xAA)]

theorem freshStream_at {key : List Byte} : freshStream.At (desCipher key) [0, 0, 0, 0, 0, 0, 0, 1] 0 :=
  Stream.At.fresh (c := desCipher key) rfl 0

theorem demoAll_inv {key : List Byte} (hk : key.length = 8) (dst dlen src slen : Word) (inputs : List HostAccess)
    {status : Status} (hs : status.wf) {mem : Memory} (hm : mem.wf) :
    (demoAll key dst dlen src slen inputs status mem).Inv where
  nCipher_pos := (by decide : 1 ≤ 4)
  nCipher_le := (by decide : 4 ≤ 16)
  nStream_pos := (by decide : 1 ≤ 3)
  nStream_le := (by decide : 3 ≤ 16)
  status := hs
  mem := hm
  ciphers := by
    intro c hc
    simp only [demoAll, List.mem_cons, Option.some.injEq, reduceCtorEq, List.not_mem_nil, or_false] at hc
    rcases hc with rfl | rfl
    · exact .inr (.inl ⟨key, hk, rfl⟩)
    · exact .inl ⟨aesKey, .inl rfl, rfl⟩
  streams := by
    intro st hst
    simp only [demoAll, List.mem_cons, Option.some.injEq, reduceCtorEq, List.not_mem_nil, or_false, or_self] at hst
    subst hst
    exact ⟨desCipher key, _, 0, rfl, freshStream_at⟩

theorem demo_mem_wf : Memory.wf [(0x100, 0xAA)] := by decide

theorem demo_inv (dst dlen src slen : Word) (inputs : List HostAccess) : (demo dst dlen src slen inputs).Inv :=
  demoAll_inv rfl dst dlen src slen inputs okStatus_wf demo_mem_wf

/-! #### Encoding, the step and the host's side -/

theorem witness_DecodeOfEncodeIsIdentity : (Instr.aeskey 15).wf = true ∧ (Instr.ctrnew 15 15).wf = true := by decide

theorem witness_EncodeOfDecodeIsIdentity :
    decode 0x00000001 = .ok (.aeskey 0) ∧ decode 0x0000FF07 = .ok (.ctrnew 15 15) := by decide

theorem witness_IllegalWordsExactly :
    State.reset.status.fatal = false ∧ decode 0x0000000B = .error .reservedOpcode ∧
    decode 0x00010001 = .error .reservedBits ∧ decode 0x00001009 = .error .sidNotZero ∧
    decode 0x0000010A = .error .cidNotZero := by decide

theorem witness_PseudoInstructionsExpand :
    ∃ (s1 s2 s3 s4 s5 : State) (a n : Word) (i : Instr),
      s1.inputs = asmSrc a n ++ [] ∧ s2.inputs = asmWr .argSlen n ++ asmWr .argSrc a ++ [] ∧
      s3.inputs = asmDst a n ++ [] ∧ s4.inputs = asmWr .argDlen n ++ asmWr .argDst a ++ [] ∧ s5.inputs = asmCmd i ++ [] :=
  ⟨demo 0 0 0 0 (asmSrc 0xFFFFFFFF 0), demo 0 0 0 0 (asmWr .argSlen 0 ++ asmWr .argSrc 0xFFFFFFFF),
    demo 0 0 0 0 (asmDst 0xFFFFFFFF 0), demo 0 0 0 0 (asmWr .argDlen 0 ++ asmWr .argDst 0xFFFFFFFF),
    demo 0 0 0 0 (asmCmd (.enc 3)), 0xFFFFFFFF, 0, .enc 3, rfl, rfl, rfl, rfl, rfl⟩

theorem witness_StepRunsDecodedCommand :
    (∃ (s : State) (w : Word) (i : Instr) (rest : List HostAccess), s.inputs = .regWrite 0x00 .w32 w :: rest ∧
      s.status.fatal = false ∧ decode w = .ok i) ∧
    ∃ (s : State) (nbits w : Nat) (i : Instr), s.status.fatal = false ∧ decodeTableWord nbits w = some i :=
  ⟨⟨demo 0 0 0 0 [.regWrite 0x00 .w32 0x1207], 0x1207, .ctrnew 1 2, [], rfl, rfl, rfl⟩,
    ⟨State.reset, 32, 0x1207, .ctrnew 1 2, rfl, by decide⟩⟩

theorem witness_IllegalWordRaisesInvalidOpcode :
    (∃ (s : State) (w : Word) (r : Illegal) (rest : List HostAccess), s.inputs = .regWrite 0x00 .w32 w :: rest ∧
      s.status.fatal = false ∧ decode w = .error r) ∧
    ∃ (i : Instr) (s t : State), exec i s = .next t :=
  ⟨⟨demo 0 0 0 0 [.regWrite 0x00 .w32 0], 0, .reservedOpcode, [], rfl, rfl, rfl⟩, ⟨.sdrop 2, State.reset, _, rfl⟩⟩

theorem witness_FatalLatchHoldsUntilReset :
    ∃ s1 s2 s3 s4 t : State,
      (s1.status.fatal = true ∧ s1.inputs = .regWrite 0x00 .w32 0x00000001 :: []) ∧
      (s2.status.fatal = true ∧ step s2 = .next t ∧ (∀ rest, s2.inputs ≠ .reset :: rest) ∧
        ∀ w rest, s2.inputs ≠ .resetDuring w :: rest) ∧
      (s3.status.fatal = true ∧ s3.inputs = .regWrite 0x0C .w32 5 :: []) ∧ s4.inputs = .reset :: [] :=
  ⟨demoAll desKey 0 0 0 0 [.regWrite 0x00 .w32 0x00000001] fatalStatus [],
    demoAll desKey 0 0 0 0 [.regRead 0x14 .w32] fatalStatus [],
    demoAll desKey 0 0 0 0 [.regWrite 0x0C .w32 5] fatalStatus [],
    demoAll desKey 0 0 0 0 [.reset] fatalStatus [], _, ⟨rfl, rfl⟩,
    ⟨rfl, rfl, fun _ h => by simp [demoAll] at h, fun _ _ h => by simp [demoAll] at h⟩, ⟨rfl, rfl⟩, rfl⟩

/-- Every clause at the edge of its range: the first and last offset that can be written and read, and undefined accesses
beside the block, inside it and of another width. -/
theorem witness_RegisterBlockAccesses :
    (∀ offset ∈ [0x00, 0x04, 0x08, 0x0C, 0x10, 0x14, 0x18, 0x1C],
      (∃ s : State, s.inputs = .regWrite offset .w32 7 :: []) ∧ ∃ s : State, s.inputs = .regRead offset .w32 :: []) ∧
    ∀ p ∈ [(0x20, AccessWidth.w32), (0x01, .w32), (0x00, .w8), (0x1C, .w64)],
      (p.2 ≠ .w32 ∨ p.1 ∉ [0x00, 0x04, 0x08, 0x0C, 0x10, 0x14, 0x18, 0x1C]) ∧
        (∃ s : State, s.inputs = .regWrite p.1 p.2 7 :: []) ∧ ∃ s : State, s.inputs = .regRead p.1 p.2 :: [] :=
  ⟨fun offset _ => ⟨⟨demo 0 0 0 0 [.regWrite offset .w32 7], rfl⟩, ⟨demo 0 0 0 0 [.regRead offset .w32], rfl⟩⟩,
    fun p hp => ⟨by revert p; decide, ⟨demo 0 0 0 0 [.regWrite p.1 p.2 7], rfl⟩, ⟨demo 0 0 0 0 [.regRead p.1 p.2], rfl⟩⟩⟩

theorem witness_StatusWordLayout : ∃ st st' : Status, st.word = st'.word := ⟨fatalStatus, fatalStatus, rfl⟩

theorem witness_CapWordLayout :
    (∃ s : State, s.nCipher ≤ 16 ∧ s.nStream ≤ 16) ∧ (∃ s t : State, step s = .next t) ∧
    (∃ s : State, s.inputs = .regWrite 0x1C .w32 7 :: []) ∧
    ∃ s : State, s.nCipher = 16 ∧ s.nStream = 16 :=
  ⟨⟨State.reset, by decide, by decide⟩, ⟨State.reset, _, rfl⟩, ⟨demo 0 0 0 0 [.regWrite 0x1C .w32 7], rfl⟩,
    ⟨{ State.reset with ciphers := List.replicate 16 none, streams := List.replicate 16 none }, rfl, rfl⟩⟩

theorem witness_HostMemoryAccesses :
    (∃ s : State, s.inputs = []) ∧
    (∃ s : State, s.mem.wf ∧ s.inputs = .memWrite 0xFFFFFFFF 7 :: []) ∧
    ∃ s : State, s.inputs = .memRead 0x100 :: [] :=
  ⟨⟨State.reset, rfl⟩, ⟨demo 0 0 0 0 [.memWrite 0xFFFFFFFF 7], demo_mem_wf, rfl⟩, ⟨demo 0 0 0 0 [.memRead 0x100], rfl⟩⟩

theorem witness_ParametersNeverChange : ∃ s t : State, step s = .next t := ⟨demo 0 0 0 0 [.reset], _, rfl⟩

theorem witness_StepStopsOnlyOnUndefinedAccess :
    (¬ State.reset.nextAccessUndefined ∧ (demo 0 0 0 0 [.regRead 0x20 .w32]).nextAccessUndefined) ∧
    (∃ (s : State) (rest : List HostAccess), accessedReg 0x20 .w32 = none ∧ s.inputs = .regRead 0x20 .w32 :: rest) ∧
    ∃ (s : State) (v : Word) (rest : List HostAccess), accessedReg 0x04 .w8 = none ∧
      s.inputs = .regWrite 0x04 .w8 v :: rest :=
  ⟨⟨(by rintro ⟨_, _, _, _, h | ⟨_, h⟩⟩ <;> cases h), ⟨0x20, .w32, [], rfl, .inl rfl⟩⟩,
    ⟨demo 0 0 0 0 [.regRead 0x20 .w32], [], rfl, rfl⟩, ⟨demo 0 0 0 0 [.regWrite 0x04 .w8 7], 7, [], rfl, rfl⟩⟩

theorem witness_ResetValues : ∃ (s : State) (rest : List HostAccess), s.inputs = .reset :: rest :=
  ⟨demoAll desKey 1 2 3 4 [.reset] fatalStatus [], [], rfl⟩

/-- A reset during a `CTRXOR` of five bytes that completes. -/
theorem witness_ResetDuringCommand :
    ∃ (s : State) (w : Word) (rest : List HostAccess), s.mem.wf ∧ s.inputs = .resetDuring w :: rest :=
  ⟨demo 0x200 5 0x100 5 [.resetDuring 0x00000008], 0x00000008, [], demo_mem_wf, rfl⟩

theorem witness_StepKeepsInvariant : ∃ s t : State, s.Inv ∧ step s = .next t := by
  obtain ⟨t, h, -⟩ := exists_of_nextWith (o := step (demo 0x200 5 0x100 5 [.regWrite 0x00 .w32 0x00000008]))
    (check := fun t => t.status.code == .ok) (by decide +kernel)
  exact ⟨_, t, demo_inv _ _ _ _ _, h⟩

/-! #### Errors -/

theorem witness_FirstFailingCheckDecides :
    (∃ (s : State), s.Inv ∧ s.status.fatal = true) ∧
    (∃ (w : Word) (s : State), s.Inv ∧ s.status.fatal = false ∧ ∃ r, decode w = .error r) ∧
    ∃ (w : Word) (s : State) (i : Instr), s.Inv ∧ s.status.fatal = false ∧ decode w = .ok i :=
  ⟨⟨demoAll desKey 0 0 0 0 [] fatalStatus [], demoAll_inv rfl _ _ _ _ _ fatalStatus_wf wf_nil, rfl⟩,
    ⟨0, demo 0 0 0 0 [], demo_inv _ _ _ _ _, rfl, .reservedOpcode, rfl⟩,
    ⟨0x00000005, demo 0x104 8 0x100 8 [], .enc 0, demo_inv _ _ _ _ _, rfl, rfl⟩⟩

/-- Another DES key. -/
def otherKey : List Byte := [0, 0, 0, 0, 0, 0, 0, 2]

theorem witness_ErrorsChangeOnlyStatus :
    (∃ (i : Instr) (s t : State), exec i s = .next t ∧ t.status.code ≠ .ok) ∧
    ∃ (i : Instr) (s s' t t' : State), s.Inv ∧ s'.Inv ∧ s.argDst = s'.argDst ∧ s.argDlen = s'.argDlen ∧
      s.argSrc = s'.argSrc ∧ s.argSlen = s'.argSlen ∧ s.ciphers.map kindNumber = s'.ciphers.map kindNumber ∧
      s.streams.map (Option.map Stream.bs) = s'.streams.map (Option.map Stream.bs) ∧
      exec i s = .next t ∧ exec i s' = .next t' := by
  refine ⟨⟨.sdrop 3, State.reset, _, rfl, by decide⟩, ?_⟩
  obtain ⟨t, h, -⟩ := exists_of_nextWith (o := exec (.enc 0) (demo 0x101 8 0x100 8 []))
    (check := fun t => t.status.code == .bufferOverlap) (by decide +kernel)
  obtain ⟨t', h', -⟩ := exists_of_nextWith (o := exec (.enc 0) (demoAll otherKey 0x101 8 0x100 8 [] okStatus []))
    (check := fun t => t.status.code == .bufferOverlap) (by decide +kernel)
  exact ⟨_, _, _, t, t', demo_inv _ _ _ _ _, demoAll_inv rfl _ _ _ _ _ okStatus_wf wf_nil, rfl, rfl, rfl, rfl,
    by decide +kernel, by decide +kernel, h, h'⟩

theorem witness_ConstructionLengthErrors :
    (∃ (cid : Nat) (s : State), cid < s.nCipher ∧ s.sl ∉ [16, 24, 32] ∧ s.sl ≠ 8 ∧ s.sl = 23) ∧
    (∃ (cid : Nat) (s : State), cid < s.nCipher ∧ s.sl ≠ 24 ∧ s.sl = 25) ∧
    (∃ (sid cid : Nat) (c : Cipher) (s : State), sid < s.nStream ∧ s.cipher? cid = some (some c) ∧
      s.sl ≠ blockSizeOf c) ∧
    (∃ (i : Instr) (s t : State), exec i s = .next t ∧ t.status.code = .invalidKeySize) ∧
    ∃ (i : Instr) (s t : State), exec i s = .next t ∧ t.status.code = .invalidIVLength :=
  ⟨⟨3, demo 0 0 0 23 [], by decide +kernel⟩, ⟨3, demo 0 0 0 25 [], by decide +kernel⟩,
    ⟨2, 0, desCipher desKey, demo 0 0 0 16 [], by decide +kernel, rfl, by decide +kernel⟩,
    ⟨.aeskey 0, demo 0 0 0 15 [], exists_exec (by decide +kernel)⟩,
    ⟨.ctrnew 0 0, demo 0 0 0 7 [], exists_exec (by decide +kernel)⟩⟩

theorem witness_BufferTooSmallIsFatal :
    (∃ (cid : Nat) (c : Cipher) (s : State), s.cipher? cid = some (some c) ∧ s.sl < blockSizeOf c) ∧
    (∃ (cid : Nat) (c : Cipher) (s : State), s.cipher? cid = some (some c) ∧ s.dl < blockSizeOf c ∧
      blockSizeOf c ≤ s.sl) ∧
    (∃ (sid : Nat) (st : Machine.Stream) (s : State), s.Inv ∧ s.stream? sid = some (some st) ∧ s.dl < s.sl) ∧
    ∃ (i : Instr) (s t : State), exec i s = .next t ∧ t.status.code = .bufferTooSmall :=
  ⟨⟨0, desCipher desKey, demo 0 8 0 7 [], rfl, by decide +kernel⟩,
    ⟨1, aesCipher aesKey, demo 0 15 0 16 [], rfl, by decide +kernel, by decide +kernel⟩,
    ⟨0, freshStream, demo 0 0 0 1 [], demo_inv _ _ _ _ _, rfl, by decide +kernel⟩,
    ⟨.enc 0, demo 0 0 0 0 [], exists_exec (by decide +kernel)⟩⟩

theorem witness_InvalidContextIsFatal :
    (∃ (i : Instr) (s : State), s.indexOutOfRange i) ∧ (∃ (i : Instr) (s : State), s.slotEmpty i) ∧
    (∃ (i : Instr) (s t : State), s.Inv ∧ exec i s = .next t ∧ t.status.code = .invalidContext) ∧
    (∃ (cid : Nat) (s : State), s.cipher? cid = some none) ∧ ∃ (sid : Nat) (s : State), s.stream? sid = some none := by
  refine ⟨⟨.ctrxor 2, State.reset, .inr ⟨2, rfl, by decide⟩⟩, ⟨.ctrxor 1, State.reset, ?_⟩, ?_,
    ⟨3, State.reset, rfl⟩, ⟨1, State.reset, rfl⟩⟩
  · show (State.reset.stream? 1).join = none
    rfl
  · obtain ⟨t, h, hc⟩ := exists_exec (i := .ctrxor 2) (s := demo 0 0 0 0 []) (code := .invalidContext) (by decide +kernel)
    exact ⟨_, _, t, demo_inv _ _ _ _ _, h, hc⟩

/-- The checks before the extents pass for `ENC c0` with eight-byte buffers. -/
theorem demo_enc_passes (dst src : Word) :
    ¬ (demo dst 8 src 8 []).indexOutOfRange (.enc 0) ∧ ¬ (demo dst 8 src 8 []).slotEmpty (.enc 0) ∧
    ¬ (demo dst 8 src 8 []).wrongKeyLength (.enc 0) ∧ ¬ (demo dst 8 src 8 []).wrongIVLength (.enc 0) ∧
    ¬ (demo dst 8 src 8 []).shortBuffer (.enc 0) := by
  refine ⟨?_, nofun, id, id, ?_⟩
  · rw [indexOutOfRange_cid (cid := 0) rfl rfl]
    exact (by decide : ¬ 4 ≤ 0)
  · exact (by decide : ¬ (8 < 8 ∨ 8 < 8))

theorem witness_ExtentAndOverlapErrors :
    (∃ (i : Instr) (s : State), s.Inv ∧ ¬ s.indexOutOfRange i ∧ ¬ s.slotEmpty i ∧ ¬ s.wrongKeyLength i ∧
      ¬ s.wrongIVLength i ∧ ¬ s.shortBuffer i ∧ s.extentPastTop i) ∧
    (∃ (i : Instr) (s : State), s.Inv ∧ ¬ s.indexOutOfRange i ∧ ¬ s.slotEmpty i ∧ ¬ s.wrongKeyLength i ∧
      ¬ s.wrongIVLength i ∧ ¬ s.shortBuffer i ∧ ¬ s.extentPastTop i ∧ s.partialOverlap i) ∧
    (∃ (i : Instr) (s t : State), exec i s = .next t ∧ t.status.code = .addressRange) ∧
    ∃ (i : Instr) (s t : State), exec i s = .next t ∧ t.status.code = .bufferOverlap := by
  refine ⟨⟨.enc 0, demo 0 8 0xFFFFFFF9 8 [], demo_inv _ _ _ _ _, ?_⟩,
    ⟨.enc 0, demo 0xFFFFFFF8 8 0xFFFFFFF1 8 [], demo_inv _ _ _ _ _, ?_⟩,
    ⟨.enc 0, demo 0 8 0xFFFFFFF9 8 [], exists_exec (by decide +kernel)⟩,
    ⟨.enc 0, demo 0x107 8 0x100 8 [], exists_exec (by decide +kernel)⟩⟩
  · obtain ⟨h1, h2, h3, h4, h5⟩ := demo_enc_passes 0 0xFFFFFFF9
    exact ⟨h1, h2, h3, h4, h5, .inl (by decide : 2 ^ 32 < 0xFFFFFFF9 + 8)⟩
  · obtain ⟨h1, h2, h3, h4, h5⟩ := demo_enc_passes 0xFFFFFFF8 0xFFFFFFF1
    refine ⟨h1, h2, h3, h4, h5, ?_, ?_⟩
    · exact (by decide : ¬ (2 ^ 32 < 0xFFFFFFF1 + 8 ∨ 2 ^ 32 < 0xFFFFFFF8 + 8))
    · exact (by decide : ¬ (0xFFFFFFF8 = 0xFFFFFFF1 ∨ 0xFFFFFFF8 + 8 ≤ 0xFFFFFFF1 ∨ 0xFFFFFFF1 + 8 ≤ 0xFFFFFFF8))

/-! #### The commands -/

theorem witness_AeskeyBuildsSchedules :
    (∃ s : State, s.nCipher ≤ 4) ∧ (∃ s : State, 3 < s.nCipher ∧ s.sl ∉ [16, 24, 32]) ∧
    (∃ s : State, 3 < s.nCipher ∧ s.sl ∈ [16, 24, 32] ∧ 2 ^ 32 < s.sa + s.sl) ∧
    ∃ s : State, 3 < s.nCipher ∧ s.sl ∈ [16, 24, 32] ∧ s.sa + s.sl ≤ 2 ^ 32 :=
  ⟨⟨demo 0 0 0 16 [], by decide +kernel⟩, ⟨demo 0 0 0 33 [], by decide +kernel⟩,
    ⟨demo 0 0 0xFFFFFFF1 16 [], by decide +kernel⟩, ⟨demo 0 0 0xFFFFFFE0 32 [], by decide +kernel⟩⟩

theorem witness_DeskeyBuildsSubkeys :
    (∃ s : State, s.nCipher ≤ 4) ∧ (∃ s : State, 3 < s.nCipher ∧ s.sl ≠ 8) ∧
    (∃ s : State, 3 < s.nCipher ∧ s.sl = 8 ∧ 2 ^ 32 < s.sa + 8) ∧
    ∃ s : State, 3 < s.nCipher ∧ s.sl = 8 ∧ s.sa + 8 ≤ 2 ^ 32 :=
  ⟨⟨demo 0 0 0 8 [], by decide +kernel⟩, ⟨demo 0 0 0 7 [], by decide +kernel⟩,
    ⟨demo 0 0 0xFFFFFFF9 8 [], by decide +kernel⟩, ⟨demo 0 0 0xFFFFFFF8 8 [], by decide +kernel⟩⟩

theorem witness_TdeskeyBuildsThreeSchedules :
    (∃ s : State, s.nCipher ≤ 4) ∧ (∃ s : State, 3 < s.nCipher ∧ s.sl < 24) ∧
    (∃ s : State, 3 < s.nCipher ∧ 24 < s.sl) ∧
    (∃ s : State, 3 < s.nCipher ∧ s.sl = 24 ∧ 2 ^ 32 < s.sa + 24) ∧
    ∃ s : State, 3 < s.nCipher ∧ s.sl = 24 ∧ s.sa + 24 ≤ 2 ^ 32 :=
  ⟨⟨demo 0 0 0 24 [], by decide +kernel⟩, ⟨demo 0 0 0 23 [], by decide +kernel⟩, ⟨demo 0 0 0 25 [], by decide +kernel⟩,
    ⟨demo 0 0 0xFFFFFFE9 24 [], by decide +kernel⟩, ⟨demo 0 0 0xFFFFFFE8 24 [], by decide +kernel⟩⟩

theorem witness_BlksizeWritesResult :
    (∃ s : State, s.nCipher ≤ 4) ∧ (∃ s : State, s.cipher? 3 = some none) ∧
    (∃ (s : State) (nk : Nat) (ek dk : List Word), s.cipher? 1 = some (some (.aes nk ek dk))) ∧
    (∃ (s : State) (ks : List DWord), s.cipher? 0 = some (some (.des ks))) ∧
    ∃ (s : State) (ks1 ks2 ks3 : List DWord), s.cipher? 0 = some (some (.tdes ks1 ks2 ks3)) :=
  ⟨⟨demo 0 0 0 0 [], by decide +kernel⟩, ⟨demo 0 0 0 0 [], rfl⟩, ⟨demo 0 0 0 0 [], _, _, _, rfl⟩,
    ⟨demo 0 0 0 0 [], _, rfl⟩, ⟨testState 0 0 0 0 [some (tdesCipher tdesKey)] [none] [], _, _, _, rfl⟩⟩

theorem witness_EncAndDecTransformOneBlock :
    (∃ s : State, s.nCipher ≤ 4) ∧ (∃ s : State, s.cipher? 3 = some none) ∧
    (∃ (c : Cipher) (s : State), s.cipher? 0 = some (some c) ∧ (s.sl < blockSizeOf c ∨ s.dl < blockSizeOf c)) ∧
    (∃ (c : Cipher) (s : State), s.cipher? 0 = some (some c) ∧ blockSizeOf c ≤ s.sl ∧ blockSizeOf c ≤ s.dl ∧
      (2 ^ 32 < s.sa + s.sl ∨ 2 ^ 32 < s.d + s.dl)) ∧
    (∃ (c : Cipher) (s : State), s.cipher? 0 = some (some c) ∧ blockSizeOf c ≤ s.sl ∧ blockSizeOf c ≤ s.dl ∧
      s.sa + s.sl ≤ 2 ^ 32 ∧ s.d + s.dl ≤ 2 ^ 32 ∧
      (s.d ≠ s.sa ∧ s.d < s.sa + blockSizeOf c ∧ s.sa < s.d + blockSizeOf c)) ∧
    ∃ (c : Cipher) (s : State), s.cipher? 0 = some (some c) ∧ s.mem.wf ∧ blockSizeOf c ≤ s.sl ∧ blockSizeOf c ≤ s.dl ∧
      s.sa + s.sl ≤ 2 ^ 32 ∧ s.d + s.dl ≤ 2 ^ 32 ∧ identicalOrDisjoint s.d s.sa (blockSizeOf c) :=
  ⟨⟨demo 0 0 0 0 [], by decide +kernel⟩, ⟨demo 0 0 0 0 [], rfl⟩,
    ⟨desCipher desKey, demo 0 7 0 8 [], rfl, by decide +kernel⟩,
    ⟨desCipher desKey, demo 0xFFFFFFF9 8 0 8 [], rfl, by decide +kernel⟩,
    ⟨desCipher desKey, demo 7 8 0 8 [], rfl, by decide +kernel⟩,
    ⟨desCipher desKey, demo 0xFFFFFFF8 8 0xFFFFFFF0 16 [], rfl, demo_mem_wf, by decide +kernel, by decide +kernel,
      by decide +kernel, by decide +kernel, .inr (.inr (by decide +kernel))⟩⟩

theorem witness_CtrnewMakesFreshStream :
    (∃ s : State, s.nCipher ≤ 4) ∧ (∃ s : State, s.nStream ≤ 3) ∧ (∃ s : State, s.cipher? 3 = some none) ∧
    (∃ (c : Cipher) (s : State), s.cipher? 1 = some (some c) ∧ 2 < s.nStream ∧ s.sl ≠ blockSizeOf c) ∧
    (∃ (c : Cipher) (s : State), s.cipher? 1 = some (some c) ∧ 2 < s.nStream ∧ s.sl = blockSizeOf c ∧
      2 ^ 32 < s.sa + blockSizeOf c) ∧
    ∃ (c : Cipher) (s : State), s.cipher? 1 = some (some c) ∧ 2 < s.nStream ∧ s.sl = blockSizeOf c ∧
      s.sa + blockSizeOf c ≤ 2 ^ 32 :=
  ⟨⟨demo 0 0 0 0 [], by decide +kernel⟩, ⟨demo 0 0 0 0 [], by decide +kernel⟩, ⟨demo 0 0 0 0 [], rfl⟩,
    ⟨aesCipher aesKey, demo 0 0 0 8 [], rfl, by decide +kernel⟩,
    ⟨aesCipher aesKey, demo 0 0 0xFFFFFFF1 16 [], rfl, by decide +kernel⟩,
    ⟨aesCipher aesKey, demo 0 0 0xFFFFFFF0 16 [], rfl, by decide +kernel⟩⟩

theorem witness_DropsEmptySlots :
    (∃ s : State, s.nCipher ≤ 4) ∧ (∃ s : State, 3 < s.nCipher) ∧ (∃ s : State, s.Inv ∧ s.cipher? 3 = some none) ∧
    (∃ s : State, s.nStream ≤ 3) ∧ (∃ s : State, 2 < s.nStream) ∧ ∃ s : State, s.stream? 2 = some none :=
  ⟨⟨demo 0 0 0 0 [], by decide +kernel⟩, ⟨demo 0 0 0 0 [], by decide +kernel⟩,
    ⟨demo 0 0 0 0 [], demo_inv _ _ _ _ _, rfl⟩, ⟨demo 0 0 0 0 [], by decide +kernel⟩,
    ⟨demo 0 0 0 0 [], by decide +kernel⟩, ⟨demo 0 0 0 0 [], rfl⟩⟩

/-- A completing `BLKSIZE`, a failing one and another command. -/
theorem witness_RegistersFrame :
    (∃ s t : State, exec (.blksize 0) s = .next t ∧ t.status.code = .ok) ∧
    (∃ s t : State, exec (.blksize 2) s = .next t ∧ t.status.code = .invalidContext) ∧
    ∃ s t : State, exec (.tdeskey 0) s = .next t ∧ t.status.code = .invalidKeySize :=
  ⟨⟨demo 0 0 0 0 [], exists_exec (by decide +kernel)⟩, ⟨demo 0 0 0 0 [], exists_exec (by decide +kernel)⟩,
    ⟨demo 0 0 0 0 [], exists_exec (by decide +kernel)⟩⟩

theorem witness_CipherSlotsFrame :
    (∃ s t : State, exec (.cdrop 0) s = .next t ∧ t.cipher? 0 ≠ s.cipher? 0) ∧
    ∃ (cid sid : Nat) (i : Instr) (s t : State), exec i s = .next t ∧
      i ∈ [.enc cid, .dec cid, .blksize cid, .ctrnew sid cid, .ctrxor sid] :=
  ⟨⟨demo 0 0 0 0 [], _, rfl, nofun⟩, ⟨0, 0, .ctrnew 0 0, State.reset, _, rfl, by decide⟩⟩

theorem witness_StreamSlotsFrame :
    (∃ s t : State, exec (.sdrop 1) s = .next t ∧ t.stream? 1 ≠ s.stream? 1) ∧
    ∃ s t : State, exec (.cdrop 0) s = .next t ∧ t.stream? 1 ≠ s.stream? 1 :=
  ⟨⟨demo 0 0 0 0 [], _, rfl, nofun⟩, ⟨demo 0 0 0 0 [], _, rfl, nofun⟩⟩

theorem witness_MemoryFrame :
    (∃ (i : Instr) (s t : State), exec i s = .next t ∧ ∀ cid sid, i ∉ [.enc cid, .dec cid, .ctrxor sid]) ∧
    (∃ (c : Cipher) (s t : State), s.cipher? 0 = some (some c) ∧ exec (.enc 0) s = .next t ∧ t.status.code = .ok) ∧
    (∃ s t : State, exec (.dec 2) s = .next t ∧ ∀ c, s.cipher? 2 ≠ some (some c)) ∧
    ∃ s t : State, exec (.ctrxor 0) s = .next t ∧ t.status.code = .ok := by
  refine ⟨⟨.sdrop 1, State.reset, _, rfl, by simp⟩, ?_, ⟨State.reset, _, rfl, nofun⟩,
    ⟨demo 0x108 8 0x100 8 [], exists_exec (by decide +kernel)⟩⟩
  obtain ⟨t, h, hc⟩ := exists_exec (i := .enc 0) (s := demo 0x108 8 0x100 8 []) (code := .ok) (by decide +kernel)
  exact ⟨desCipher desKey, _, t, rfl, h, hc⟩

theorem witness_UnreadArgRegistersIgnored :
    (∃ (i : Instr) (s t : State) (cid sid : Nat), exec i s = .next t ∧
      i ∈ [.aeskey cid, .deskey cid, .tdeskey cid, .ctrnew sid cid, .blksize cid, .cdrop cid, .sdrop sid]) ∧
    ∃ (i : Instr) (s t : State) (cid sid : Nat), exec i s = .next t ∧ i ∈ [.blksize cid, .cdrop cid, .sdrop sid] := by
  obtain ⟨t, h, -⟩ := exists_exec (i := .deskey 3) (s := demo 0 0 0x100 8 []) (code := .ok) (by decide +kernel)
  exact ⟨⟨.deskey 3, _, t, 3, 0, h, by decide⟩, ⟨.sdrop 1, State.reset, _, 0, 1, rfl, by decide⟩⟩

/-- Two machines with different DES keys, and a `CTRXOR` that completes on both. -/
theorem witness_KeyMaterialIsNotReadOut :
    ∃ (i : Instr) (s s' t t' : State), s.Inv ∧ s'.Inv ∧ s.sameShape s' ∧ s.mem = s'.mem ∧
      exec i s = .next t ∧ exec i s' = .next t' ∧ t.status.code = .ok ∧ s.ciphers ≠ s'.ciphers := by
  obtain ⟨t, h, hc⟩ := exists_exec (i := .ctrxor 0) (s := demo 0x108 8 0x100 8 []) (code := .ok) (by decide +kernel)
  obtain ⟨t', h', -⟩ := exists_exec (i := .ctrxor 0)
    (s := demoAll otherKey 0x108 8 0x100 8 [] okStatus [(0x100, 0xAA)]) (code := .ok) (by decide +kernel)
  exact ⟨.ctrxor 0, demo 0x108 8 0x100 8 [], demoAll otherKey 0x108 8 0x100 8 [] okStatus [(0x100, 0xAA)], t, t',
    demo_inv _ _ _ _ _, demoAll_inv rfl _ _ _ _ _ okStatus_wf demo_mem_wf,
    ⟨rfl, rfl, rfl, rfl, rfl, rfl, by decide +kernel, by decide +kernel⟩, rfl, h, h', hc, by decide +kernel⟩

/-! #### The cipher units -/

theorem witness_GmulFieldLaws : ∃ a b' : Byte, a ≠ 0 ∧ b' ≠ 0 ∧ gmul a b' = 1 := ⟨0x53, 0xCA, by decide⟩

theorem witness_AesTablesMeetTheirDefinitions :
    (∃ a b : Byte, a = 0 ∧ b = 0) ∧ (∃ a b : Byte, a ≠ 0 ∧ gmul a b = 1) ∧ ∃ j : Nat, 1 ≤ j ∧ j < 10 ∧ j + 1 = 10 :=
  ⟨⟨0, 0, rfl, rfl⟩, ⟨0x53, 0xCA, by decide⟩, ⟨9, by decide⟩⟩

/-- The last word of each kind of each clause, for each key length that has one. -/
theorem witness_ExpandKeyRecurrence :
    (∀ nk ∈ [4, 6, 8], ∃ key : List Byte, key.length = 4 * nk) ∧ (∀ nk ∈ [4, 6, 8], ∃ i, i < nk) ∧
    (∀ p ∈ [(4, 40), (6, 48), (8, 56), (4, 4), (6, 6), (8, 8)],
      p.1 ≤ p.2 ∧ p.2 < 4 * (p.1 + 7) ∧ p.2 % p.1 = 0) ∧
    (∃ i, 8 ≤ i ∧ i < 60 ∧ i % 8 = 4) ∧
    ∀ p ∈ [(4, 43), (6, 51), (8, 59), (4, 5), (6, 10), (8, 9)],
      p.1 ≤ p.2 ∧ p.2 < 4 * (p.1 + 7) ∧ p.2 % p.1 ≠ 0 ∧ ¬ (p.1 = 8 ∧ p.2 % p.1 = 4) :=
  ⟨fun nk _ => ⟨List.replicate (4 * nk) 0, List.length_replicate⟩, fun nk h => ⟨0, by revert nk; decide⟩, by decide,
    ⟨52, by decide⟩, by decide⟩

theorem witness_InvScheduleWords :
    ∀ nk ∈ [4, 6, 8], (∃ w : List Word, w.length = 4 * (nk + 7)) ∧
      (∃ j c : Nat, c < 4 ∧ (j = 0 ∨ j = nk + 6)) ∧ ∃ j c : Nat, c < 4 ∧ 0 < j ∧ j < nk + 6 :=
  fun nk h => ⟨⟨List.replicate _ 0, List.length_replicate⟩, ⟨nk + 6, 3, by decide, .inr rfl⟩,
    ⟨nk + 5, 3, by decide, by omega, by omega⟩⟩

theorem witness_ShiftRowsMovesBytes : ∃ (blk : List Byte) (i : Nat), blk.length = 16 ∧ i < 16 := ⟨aesIv, 15, by decide⟩

theorem witness_AesRoundTrip :
    ∀ nk ∈ [4, 6, 8], ∃ key blk : List Byte, key.length = 4 * nk ∧ blk.length = 16 :=
  fun nk _ => ⟨List.replicate (4 * nk) 0, aesIv, List.length_replicate, rfl⟩

theorem witness_FinalPermutationInvertsInitial :
    ∃ (n m j : Nat) (table : List Nat), table.length = m ∧ j < m ∧ ∀ k ∈ table, 1 ≤ k ∧ k ≤ n :=
  ⟨64, 64, 63, ip, by decide⟩

theorem witness_SBoxAddressing : ∃ j : Nat, j < 8 ∧ j + 1 = 8 := ⟨7, by decide⟩

theorem witness_SubkeysAccumulateRotations : ∃ (key : List Byte) (i : Nat), key.length = 8 ∧ i < 16 := ⟨desKey, 15, by decide⟩

/-- Two keys that differ in a parity bit only. -/
theorem witness_ParityBitsIgnored :
    ∃ key key' : List Byte, key.length = 8 ∧ key'.length = 8 ∧ key ≠ key' ∧
      ∀ i, i < 8 → byteAt key i &&& 0xFE = byteAt key' i &&& 0xFE :=
  ⟨desKey, [0x12, 0x34, 0x57, 0x79, 0x9B, 0xBC, 0xDF, 0xF1], by decide⟩

theorem witness_DesRoundTrip : ∃ (ks : List DWord) (blk : List Byte), ks ≠ [] ∧ blk.length = 8 :=
  ⟨[0x00001B02EFFC7072], desKey, by decide⟩

theorem witness_TripleDesLaws : ∃ (ks1 ks2 ks3 : List DWord) (blk : List Byte), ks1 ≠ ks2 ∧ ks2 ≠ ks3 ∧ blk.length = 8 :=
  ⟨[1], [2], [3], desKey, by decide⟩

theorem witness_BlockRoundTrip :
    (∃ (c : Cipher) (blk : List Byte), c.wf ∧ blk.length = blockSizeOf c ∧ blockSizeOf c = 16) ∧
    (∃ (c : Cipher) (blk : List Byte), c.wf ∧ blk.length = blockSizeOf c ∧ kindNumber (some c) = 2) ∧
    ∃ (c : Cipher) (blk : List Byte), c.wf ∧ blk.length = blockSizeOf c ∧ kindNumber (some c) = 3 :=
  ⟨⟨aesCipher aesKey, aesIv, .inl ⟨aesKey, .inl rfl, rfl⟩, rfl, rfl⟩,
    ⟨desCipher desKey, desKey, .inr (.inl ⟨desKey, rfl, rfl⟩), rfl, rfl⟩,
    ⟨tdesCipher tdesKey, desKey, .inr (.inr ⟨tdesKey, rfl, rfl⟩), rfl, rfl⟩⟩

theorem witness_EncThenDecRestoresMemory :
    (∃ (cid : Nat) (s t : State), s.Inv ∧ s.argDst = s.argSrc ∧ t.status.code = .ok ∧ exec (.enc cid) s = .next t) ∧
    ∃ (cid : Nat) (s t : State), s.Inv ∧ s.argDst = s.argSrc ∧ t.status.code = .ok ∧ exec (.dec cid) s = .next t := by
  obtain ⟨t, h, hc⟩ := exists_exec (i := .enc 0) (s := demo 0x100 8 0x100 8 []) (code := .ok) (by decide +kernel)
  obtain ⟨t', h', hc'⟩ := exists_exec (i := .dec 1) (s := demo 0xFFFFFFF0 16 0xFFFFFFF0 16 []) (code := .ok)
    (by decide +kernel)
  exact ⟨⟨0, _, t, demo_inv _ _ _ _ _, rfl, hc, h⟩, ⟨1, _, t', demo_inv _ _ _ _ _, rfl, hc', h'⟩⟩

/-! #### Counter mode -/

/-- A stream whose buffer a refill has filled. -/
def fullStream : Machine.Stream := refill (desCipher desKey) freshStream

theorem fullStream_at : fullStream.At (desCipher desKey) [0, 0, 0, 0, 0, 0, 0, 1] 0 :=
  Stream.At.refill freshStream_at

theorem witness_RefillState :
    (∃ (c : Cipher) (st : Machine.Stream), st.bs = blockSizeOf c ∧ st.used ≤ st.fill ∧ st.fill ≤ 512 ∧
      st.fill - st.used < st.bs ∧ st.fill - st.used = 0) ∧
    ∃ (c : Cipher) (st : Machine.Stream) (j b k : Nat), st.bs = blockSizeOf c ∧ st.used ≤ st.fill ∧ st.fill ≤ 512 ∧
      st.fill - st.used < st.bs ∧ j < st.fill - st.used ∧ b < (512 - (st.fill - st.used)) / st.bs ∧ k < st.bs :=
  ⟨⟨desCipher desKey, freshStream, by decide +kernel⟩,
    ⟨desCipher desKey, { freshStream with out := List.replicate 512 0, used := 505 }, 6, 62, 7, by decide +kernel⟩⟩

theorem witness_StreamConsumesKeystream :
    (∃ (sid cid : Nat) (c : Cipher) (s : State), s.cipher? cid = some (some c) ∧ sid < s.nStream ∧
      s.sl = blockSizeOf c ∧ s.sa + s.sl ≤ 2 ^ 32) ∧
    ∃ (sid p : Nat) (st : Machine.Stream) (c : Cipher) (iv : List Byte) (s : State), s.mem.wf ∧
      s.stream? sid = some (some st) ∧ s.cipher? st.cid = some (some c) ∧ st.At c iv p ∧
      s.sl ≤ s.dl ∧ s.sa + s.sl ≤ 2 ^ 32 ∧ s.d + s.dl ≤ 2 ^ 32 ∧ identicalOrDisjoint s.d s.sa s.sl :=
  ⟨⟨2, 1, aesCipher aesKey, demo 0 0 0xFFFFFFF0 16 [], rfl, by decide +kernel⟩,
    ⟨1, 0, freshStream, desCipher desKey, _, demo 0x105 6 0x100 5 [], demo_mem_wf, rfl, rfl, freshStream_at,
      by decide +kernel, by decide +kernel, by decide +kernel, .inr (.inr (by decide +kernel))⟩⟩

/-- A state whose stream slot 0 holds `st`. -/
def demoStream (st : Machine.Stream) (len : Word) : State := { demo 0x100 len 0x100 len [] with streams := [some st] }

theorem exists_ctrxor {s : State}
    (h : nextWith (exec (.ctrxor 0) s) (fun t => t.status.code == .ok && (t.stream? 0).join.isSome) = true) :
    ∃ t st', exec (.ctrxor 0) s = .next t ∧ t.status.code = .ok ∧ t.stream? 0 = some (some st') := by
  obtain ⟨t, h, hc⟩ := exists_of_nextWith h
  rw [Bool.and_eq_true] at hc
  obtain ⟨st', hst⟩ := Option.isSome_iff_exists.mp hc.2
  exact ⟨t, st', h, of_decide_eq_true (by simpa using hc.1), by simpa [Option.join_eq_some_iff] using hst⟩

/-- The three cases of the hidden state: no refill, one refill, a refill from an empty buffer after it. -/
theorem witness_CtrxorHiddenState :
    (∃ (p : Nat) (st st' : Machine.Stream) (c : Cipher) (iv : List Byte) (s t : State),
      s.stream? 0 = some (some st) ∧ s.cipher? st.cid = some (some c) ∧ st.At c iv p ∧ exec (.ctrxor 0) s = .next t ∧
      t.status.code = .ok ∧ t.stream? 0 = some (some st') ∧ 0 < s.sl ∧
      s.sl ≤ st.fill - st.used ∧ st.bs ≤ st.fill - st.used) ∧
    (∃ (p : Nat) (st st' : Machine.Stream) (c : Cipher) (iv : List Byte) (s t : State),
      s.stream? 0 = some (some st) ∧ s.cipher? st.cid = some (some c) ∧ st.At c iv p ∧ exec (.ctrxor 0) s = .next t ∧
      t.status.code = .ok ∧ t.stream? 0 = some (some st') ∧ 0 < s.sl ∧
      s.sl ≤ (st.fill - st.used) + st.bs * ((512 - (st.fill - st.used)) / st.bs) ∧ st.fill - st.used < st.bs) ∧
    ∃ (p : Nat) (st st' : Machine.Stream) (c : Cipher) (iv : List Byte) (s t : State),
      s.stream? 0 = some (some st) ∧ s.cipher? st.cid = some (some c) ∧ st.At c iv p ∧ exec (.ctrxor 0) s = .next t ∧
      t.status.code = .ok ∧ t.stream? 0 = some (some st') ∧ 0 < s.sl ∧
      (st.fill - st.used) + st.bs * ((512 - (st.fill - st.used)) / st.bs) < s.sl ∧ st.fill - st.used < st.bs := by
  obtain ⟨t1, st1, h1, hc1, hs1⟩ := exists_ctrxor (s := demoStream fullStream 512) (by decide +kernel)
  obtain ⟨t2, st2, h2, hc2, hs2⟩ := exists_ctrxor (s := demoStream freshStream 512) (by decide +kernel)
  obtain ⟨t3, st3, h3, hc3, hs3⟩ := exists_ctrxor (s := demoStream freshStream 513) (by decide +kernel)
  exact
    ⟨⟨0, fullStream, st1, desCipher desKey, _, demoStream fullStream 512, t1, rfl, by decide +kernel, fullStream_at, h1,
        hc1, hs1, by decide +kernel, by decide +kernel, by decide +kernel⟩,
      ⟨0, freshStream, st2, desCipher desKey, _, demoStream freshStream 512, t2, rfl, rfl, freshStream_at, h2, hc2, hs2,
        by decide +kernel, by decide +kernel, by decide +kernel⟩,
      ⟨0, freshStream, st3, desCipher desKey, _, demoStream freshStream 513, t3, rfl, rfl, freshStream_at, h3, hc3, hs3,
        by decide +kernel, by decide +kernel, by decide +kernel⟩⟩

theorem witness_CtrxorChunkingAndPrefix :
    (∃ (sid a b : Nat) (s t : State), s.Inv ∧ s.sl = a + b ∧ exec (.ctrxor sid) s = .next t ∧ t.status.code = .ok ∧
      0 < a ∧ 0 < b) ∧
    ∃ (sid a b : Nat) (s t : State), s.Inv ∧ s.sl = a + b ∧ exec (.ctrxor sid) s = .next t ∧ t.status.code = .ok ∧
      b = 0 ∧ s.sa + s.sl = 2 ^ 32 := by
  obtain ⟨t, h, hc⟩ := exists_exec (i := .ctrxor 0) (s := demo 0x107 7 0x100 7 []) (code := .ok) (by decide +kernel)
  obtain ⟨t', h', hc'⟩ := exists_exec (i := .ctrxor 1) (s := demo 0xFFFFFFF9 7 0xFFFFFFF9 7 []) (code := .ok)
    (by decide +kernel)
  exact ⟨⟨0, 5, 2, demo 0x107 7 0x100 7 [], t, demo_inv _ _ _ _ _, by decide +kernel, h, hc, by decide, by decide⟩,
    ⟨1, 7, 0, demo 0xFFFFFFF9 7 0xFFFFFFF9 7 [], t', demo_inv _ _ _ _ _, by decide +kernel, h', hc', rfl,
      by decide +kernel⟩⟩

theorem witness_CtrxorIsSelfInverse :
    ∃ (sid sid' : Nat) (st st' : Machine.Stream) (c : Cipher) (iv : List Byte) (dst dlen : Word) (s t : State), s.Inv ∧
      sid ≠ sid' ∧ s.stream? sid = some (some st) ∧ s.stream? sid' = some (some st') ∧
      s.cipher? st.cid = some (some c) ∧ s.cipher? st'.cid = some (some c) ∧ st.At c iv 0 ∧ st'.At c iv 0 ∧
      exec (.ctrxor sid) s = .next t ∧ t.status.code = .ok ∧
      s.sl ≤ dlen.toNat ∧ dst.toNat + dlen.toNat ≤ 2 ^ 32 ∧ identicalOrDisjoint dst.toNat s.d s.sl := by
  obtain ⟨t, h, hc⟩ := exists_exec (i := .ctrxor 0) (s := demo 0x107 7 0x100 7 []) (code := .ok) (by decide +kernel)
  exact ⟨0, 1, freshStream, freshStream, desCipher desKey, _, 0x107, 8, demo 0x107 7 0x100 7 [], t, demo_inv _ _ _ _ _,
    by decide, rfl, rfl, rfl, rfl, freshStream_at, freshStream_at, h, hc, by decide +kernel, by decide +kernel, .inl rfl⟩

theorem witness_CtrxorOfNothingOnlyCompletes :
    (∃ s : State, s.Inv ∧ s.sl = 0 ∧ s.stream? 3 = none) ∧ (∃ s : State, s.Inv ∧ s.sl = 0 ∧ s.stream? 2 = some none) ∧
    ∃ (st : Machine.Stream) (s : State), s.Inv ∧ s.sl = 0 ∧ s.stream? 0 = some (some st) ∧ s.d + s.dl ≤ 2 ^ 32 :=
  ⟨⟨demo 0 0 0 0 [], demo_inv _ _ _ _ _, by decide +kernel, rfl⟩,
    ⟨demo 0 0 0 0 [], demo_inv _ _ _ _ _, by decide +kernel, rfl⟩,
    ⟨freshStream, demo 0xFFFFFFFF 1 0 0 [], demo_inv _ _ _ _ _, by decide +kernel, rfl, by decide +kernel⟩⟩

end Sys2Proof.Tests
end

/-! PROOFS. The numbers of cipher and stream slots are parameters of a machine: commands, host accesses and resets keep
them (`00_scope.md` R10, `10_state.md` R42). -/
section

namespace Sys2Proof.Machine

/-- `t` has the parameters `N_CIPHER` and `N_STREAM` of `s`. -/
def SameParameters (s t : State) : Prop := t.nCipher = s.nCipher ∧ t.nStream = s.nStream

theorem SameParameters.refl (s : State) : SameParameters s s := ⟨rfl, rfl⟩

theorem sameParameters_raise (code : Code) (short : Bool) (s : State) : SameParameters s (raise code short s) :=
  ⟨raise_nCipher code short s, raise_nStream code short s⟩

theorem sameParameters_resetEngine (s : State) : SameParameters s (resetEngine s) :=
  ⟨resetEngine_nCipher s, resetEngine_nStream s⟩

/-- Filling or emptying a cipher slot, with the streams bound to it dropped, replaces list entries one for one. -/
theorem sameParameters_setCipher_dropStreamsOf (cid : Nat) (c : Option Cipher) (s : State) :
    SameParameters s (setCipher cid c (dropStreamsOf cid s)) := by
  constructor <;> simp

theorem sameParameters_setStream (sid : Nat) (st : Option Stream) (s : State) :
    SameParameters s (setStream sid st s) :=
  ⟨setStream_nCipher sid st s, setStream_nStream sid st s⟩

/-- No effect of a completing command adds or removes a slot. -/
theorem Effect.sameParameters {s u : State} {i : Instr} (h : Effect s u i) : SameParameters s u := by
  cases i with
  | aeskey cid => obtain ⟨-, -, -, rfl⟩ := h; exact sameParameters_setCipher_dropStreamsOf cid _ s
  | deskey cid => obtain ⟨-, -, -, rfl⟩ := h; exact sameParameters_setCipher_dropStreamsOf cid _ s
  | tdeskey cid => obtain ⟨-, -, -, rfl⟩ := h; exact sameParameters_setCipher_dropStreamsOf cid _ s
  | blksize cid => obtain ⟨c, -, rfl⟩ := h; exact .refl s
  | enc cid => obtain ⟨c, -, -, -, -, -, -, rfl⟩ := h; exact .refl s
  | dec cid => obtain ⟨c, -, -, -, -, -, -, rfl⟩ := h; exact .refl s
  | ctrnew sid cid => obtain ⟨c, -, -, -, -, rfl⟩ := h; exact sameParameters_setStream sid _ s
  | ctrxor sid => obtain ⟨st, c, -, -, -, -, -, -, rfl⟩ := h; exact sameParameters_setStream sid _ _
  | cdrop cid => obtain ⟨-, rfl⟩ := h; exact sameParameters_setCipher_dropStreamsOf cid none s
  | sdrop sid => obtain ⟨-, rfl⟩ := h; exact sameParameters_setStream sid none s

theorem sameParameters_of_exec {i : Instr} {s t : State} (h : exec i s = .next t) : SameParameters s t := by
  rcases ends_of_exec h with ⟨code, short, rfl, -⟩ | ⟨u, rfl, he⟩
  · exact sameParameters_raise code short s
  · exact he.sameParameters

theorem sameParameters_of_issue {w : Word} {s t : State} (h : issue w s = .next t) : SameParameters s t := by
  rcases issue_cases h with ⟨-, rfl⟩ | ⟨-, i, -, he⟩ | ⟨-, -, rfl⟩
  · exact .refl t
  · exact sameParameters_of_exec he
  · exact .refl s

theorem sameParameters_of_writeReg {r : Reg} {v : Word} {s t : State} (h : writeReg r v s = .next t) :
    SameParameters s t := by
  cases r with
  | cmd => exact sameParameters_of_issue h
  | argDst | argDlen | argSrc | argSlen | status | result | cap => cases h; exact .refl s

/-- A reset during a command is a reset of a state that differs from `s` in memory and free values only. -/
theorem sameParameters_of_resetDuring {w : Word} {s t : State} (h : resetDuring w s = .next t) :
    SameParameters s t := by
  obtain ⟨t', hissue⟩ := issue_next w s
  rw [resetDuring, hissue] at h
  cases h
  exact sameParameters_resetEngine _

theorem sameParameters_of_hostAccess {a : HostAccess} {s t : State} (h : hostAccess a s = .next t) :
    SameParameters s t := by
  cases a with
  | regWrite offset width value =>
    rw [hostAccess] at h
    cases hr : accessedReg offset width with
    | none => simp [hr] at h
    | some r => exact sameParameters_of_writeReg (by simpa [hr] using h)
  | regRead offset width =>
    rw [hostAccess] at h
    cases hr : accessedReg offset width with
    | none => simp [hr] at h
    | some r => rw [hr] at h; cases h; exact .refl s
  | memWrite addr value => cases h; exact .refl s
  | memRead addr => cases h; exact .refl s
  | reset => cases h; exact sameParameters_resetEngine s
  | resetDuring command => exact sameParameters_of_resetDuring h

/-- What a step that has a next state can be: idle, or the oldest act to come carried out without it in the list. -/
theorem step_cases {s t : State} (h : step s = .next t) :
    (s.inputs = [] ∧ t = s) ∨
      ∃ a rest, s.inputs = a :: rest ∧ hostAccess a { s with inputs := rest } = .next t := by
  unfold step at h
  split at h
  · next hi => cases h; exact .inl ⟨hi, rfl⟩
  · next a rest hi => exact .inr ⟨a, rest, hi, h⟩

/-- Settles O14: a step is idle or one act of the environment, and each kind of act keeps both slot counts. -/
theorem parametersNeverChange : Obligations.ParametersNeverChange := by
  intro s t h
  rcases step_cases h with ⟨-, rfl⟩ | ⟨a, rest, -, ha⟩
  · exact SameParameters.refl t
  · have hp : SameParameters { s with inputs := rest } t := sameParameters_of_hostAccess ha
    exact hp

end Sys2Proof.Machine
end

/-! PROOFS. The state family (`10_state.md`): what a completing command replaces in the state, and from it the machine
invariant, the frames of registers and slots, and the host's accesses. -/
section

namespace Sys2Proof.Machine

/-! ### What a completing command replaces -/

/-- The part of the state a completing command replaces, ten effects in six shapes: a cipher slot with the streams bound
to it, `RESULT`, a block of memory, or a stream slot (new, used with memory, or dropped). -/
inductive Update (s : State) : Instr → State → Prop
  | cipherSlot {i : Instr} {cid : Nat} {slot : Option Cipher}
      (names : i = .aeskey cid ∨ i = .deskey cid ∨ i = .tdeskey cid ∨ i = .cdrop cid)
      (built : ∀ c, slot = some c → c.wf) : Update s i (setCipher cid slot (dropStreamsOf cid s))
  | result {cid : Nat} (v : Word) : Update s (.blksize cid) { s with result := v }
  | block {i : Instr} {cid : Nat} {c : Cipher} {bytes : List Byte} (names : i = .enc cid ∨ i = .dec cid)
      (loaded : s.cipher? cid = some (some c)) (length : bytes.length = blockSizeOf c)
      (inRange : s.d + bytes.length ≤ Config.memSize) : Update s i { s with mem := memWrite s.mem s.d bytes }
  | newStream {sid cid : Nat} {c : Cipher} {iv : List Byte} (loaded : s.cipher? cid = some (some c))
      (length : iv.length = blockSizeOf c) :
      Update s (.ctrnew sid cid)
        (setStream sid (some { cid := cid, bs := blockSizeOf c, ctr := iv, out := [], used := 0 }) s)
  | useStream {sid : Nat} {st : Stream} {c : Cipher} (valid : s.stream? sid = some (some st))
      (loaded : s.cipher? st.cid = some (some c)) (inRange : s.d + s.sl ≤ Config.memSize) :
      Update s (.ctrxor sid)
        (setStream sid (some (consume c s.d s.sa s.sl s.sl 0 st s.mem).1)
          { s with mem := (consume c s.d s.sa s.sl s.sl 0 st s.mem).2 })
  | dropStream {sid : Nat} : Update s (.sdrop sid) (setStream sid none s)

/-- A key command builds what `Cipher.wf` describes (`10_state.md` R33 to R35). -/
theorem aesCipher_wf {key : List Byte} (h : key.length = 16 ∨ key.length = 24 ∨ key.length = 32) :
    (aesCipher key).wf := .inl ⟨key, h, rfl⟩

theorem desCipher_wf {key : List Byte} (h : key.length = 8) : (desCipher key).wf := .inr (.inl ⟨key, h, rfl⟩)

theorem tdesCipher_wf {key : List Byte} (h : key.length = 24) : (tdesCipher key).wf := .inr (.inr ⟨key, h, rfl⟩)

/-- Every effect has one of the six shapes. -/
theorem Effect.update {s u : State} {i : Instr} (h : Effect s u i) : Update s i u := by
  cases i with
  | aeskey cid =>
    obtain ⟨-, hsl, -, rfl⟩ := h
    exact .cipherSlot (.inl rfl) fun c hc => Option.some.inj hc ▸ aesCipher_wf (by simpa using hsl)
  | deskey cid =>
    obtain ⟨-, hsl, -, rfl⟩ := h
    exact .cipherSlot (.inr (.inl rfl)) fun c hc => Option.some.inj hc ▸ desCipher_wf (by simpa using hsl)
  | tdeskey cid =>
    obtain ⟨-, hsl, -, rfl⟩ := h
    exact .cipherSlot (.inr (.inr (.inl rfl))) fun c hc => Option.some.inj hc ▸ tdesCipher_wf (by simpa using hsl)
  | blksize cid => obtain ⟨c, -, rfl⟩ := h; exact .result _
  | enc cid =>
    obtain ⟨c, hc, -, hdl, -, hd, -, rfl⟩ := h
    have hlen := length_encryptBlock c (memRead s.mem s.sa (blockSizeOf c))
    exact .block (.inl rfl) hc hlen (by simp only [hlen, Config.memSize]; omega)
  | dec cid =>
    obtain ⟨c, hc, -, hdl, -, hd, -, rfl⟩ := h
    have hlen := length_decryptBlock c (memRead s.mem s.sa (blockSizeOf c))
    exact .block (.inr rfl) hc hlen (by simp only [hlen, Config.memSize]; omega)
  | ctrnew sid cid => obtain ⟨c, hc, -, -, -, rfl⟩ := h; exact .newStream hc (length_memRead _ _ _)
  | ctrxor sid =>
    obtain ⟨st, c, hst, hc, hdl, -, hd, -, rfl⟩ := h
    exact .useStream hst hc (by simp only [Config.memSize]; omega)
  | cdrop cid => obtain ⟨-, rfl⟩ := h; exact .cipherSlot (.inr (.inr (.inr rfl))) fun c hc => nomatch hc
  | sdrop sid => obtain ⟨-, rfl⟩ := h; exact .dropStream

/-- `complete()` alone rewrites `STATUS`. -/
theorem Effect.status_eq {s u : State} {i : Instr} (h : Effect s u i) : u.status = s.status := by
  cases h.update <;> rfl

/-- An error other than a short Triple-DES key leaves `SHORT` = 0 (`45_tdes.md` R291, `60_exceptions.md` R404). -/
theorem Reason.short_iff {s : State} {i : Instr} {code : Code} {short : Bool} (h : Reason s i code short) :
    short = true ↔ code = .invalidKeySize ∧ (∃ cid, i = .tdeskey cid) ∧ s.sl < 24 := by
  rcases h with ⟨rfl, rfl, -⟩ | ⟨rfl, -, -, hs⟩ | ⟨rfl, rfl, -⟩ | ⟨rfl, rfl, -⟩ | ⟨rfl, rfl, -⟩ | ⟨rfl, rfl, -⟩
  case inr.inl => simpa using hs
  all_goals simp

theorem Reason.code_ne_ok {s : State} {i : Instr} {code : Code} {short : Bool} (h : Reason s i code short) :
    code ≠ .ok := by
  rcases h with ⟨rfl, -⟩ | ⟨rfl, -⟩ | ⟨rfl, -⟩ | ⟨rfl, -⟩ | ⟨rfl, -⟩ | ⟨rfl, -⟩ <;> decide

/-! ### The invariant, one rule per state operation -/

/-- The slots `DropStreamsOf(cid)` leaves valid are the valid ones not bound to `C[cid]` (`46_block_capability.md` R320). -/
theorem mem_dropStreamsOf {cid : Nat} {s : State} {st : Stream} :
    some st ∈ (dropStreamsOf cid s).streams ↔ some st ∈ s.streams ∧ st.cid ≠ cid := by
  simp [Option.filter_eq_some_iff]

/-- A stream of another cipher slot does not see a slot written. -/
theorem Stream.wf.set {ciphers : List (Option Cipher)} {st : Stream} (h : st.wf ciphers) {cid : Nat}
    (hne : st.cid ≠ cid) (slot : Option Cipher) : st.wf (ciphers.set cid slot) := by
  obtain ⟨c, iv, p, hc, hat⟩ := h
  exact ⟨c, iv, p, by rw [List.getElem?_set_ne hne.symm, hc], hat⟩

/-- The invariant speaks of `STATUS`, the slots and memory only. -/
theorem State.Inv.congr {s t : State} (h : s.Inv) (hstatus : t.status = s.status) (hc : t.ciphers = s.ciphers)
    (hs : t.streams = s.streams) (hm : t.mem = s.mem) : t.Inv where
  nCipher_pos := by rw [State.nCipher, hc]; exact h.nCipher_pos
  nCipher_le := by rw [State.nCipher, hc]; exact h.nCipher_le
  nStream_pos := by rw [State.nStream, hs]; exact h.nStream_pos
  nStream_le := by rw [State.nStream, hs]; exact h.nStream_le
  status := hstatus ▸ h.status
  mem := hm ▸ h.mem
  ciphers := hc ▸ h.ciphers
  streams := hs ▸ hc ▸ h.streams

theorem State.Inv.withStatus {s : State} (h : s.Inv) {status : Status} (hw : status.wf) :
    { s with status := status }.Inv :=
  ⟨h.nCipher_pos, h.nCipher_le, h.nStream_pos, h.nStream_le, hw, h.mem, h.ciphers, h.streams⟩

theorem State.Inv.withMem {s : State} (h : s.Inv) {m : Memory} (hm : m.wf) : { s with mem := m }.Inv :=
  ⟨h.nCipher_pos, h.nCipher_le, h.nStream_pos, h.nStream_le, h.status, hm, h.ciphers, h.streams⟩

theorem State.Inv.setStream {s : State} (h : s.Inv) (sid : Nat) {slot : Option Stream}
    (hw : ∀ st, slot = some st → st.wf s.ciphers) : (setStream sid slot s).Inv where
  nCipher_pos := h.nCipher_pos
  nCipher_le := h.nCipher_le
  nStream_pos := by rw [setStream_nStream]; exact h.nStream_pos
  nStream_le := by rw [setStream_nStream]; exact h.nStream_le
  status := h.status
  mem := h.mem
  ciphers := h.ciphers
  streams st hst := (List.mem_or_eq_of_mem_set hst).elim (h.streams st) fun e => hw st e.symm

/-- A cipher slot may be rewritten once the streams bound to it are dropped (`10_state.md` R37,
`46_block_capability.md` R320). -/
theorem State.Inv.setCipher_dropStreamsOf {s : State} (h : s.Inv) (cid : Nat) {slot : Option Cipher}
    (hw : ∀ c, slot = some c → c.wf) : (setCipher cid slot (dropStreamsOf cid s)).Inv where
  nCipher_pos := by simpa using h.nCipher_pos
  nCipher_le := by simpa using h.nCipher_le
  nStream_pos := by simpa using h.nStream_pos
  nStream_le := by simpa using h.nStream_le
  status := h.status
  mem := h.mem
  ciphers c hc := (List.mem_or_eq_of_mem_set hc).elim (h.ciphers c) fun e => hw c e.symm
  streams st hst := by
    obtain ⟨hmem, hne⟩ := mem_dropStreamsOf.1 hst
    exact (h.streams st hmem).set hne slot

/-- After a reset every slot is empty, so memory is all that is left to know. -/
theorem inv_resetEngine {s : State} (h : s.Inv) : (resetEngine s).Inv where
  nCipher_pos := by rw [resetEngine_nCipher]; exact h.nCipher_pos
  nCipher_le := by rw [resetEngine_nCipher]; exact h.nCipher_le
  nStream_pos := by rw [resetEngine_nStream]; exact h.nStream_pos
  nStream_le := by rw [resetEngine_nStream]; exact h.nStream_le
  status := ⟨rfl, nofun⟩
  mem := h.mem
  ciphers c hc := nomatch List.eq_of_mem_replicate hc
  streams st hst := nomatch List.eq_of_mem_replicate hst

/-! ### The invariant through commands and host accesses -/

/-- A stream `CTRXOR` has used is still some stream of its cipher context, `sl` bytes further (`47_ctr.md` R356). -/
theorem Stream.wf.consume {s : State} {st : Stream} {c : Cipher} (h : st.wf s.ciphers)
    (hc : s.cipher? st.cid = some (some c)) (d sa sl : Nat) (m : Memory) :
    (consume c d sa sl sl 0 st m).1.wf s.ciphers := by
  obtain ⟨c', iv, p, hc', hat⟩ := h
  obtain rfl : c' = c := by simpa [State.cipher?, hc'] using hc
  exact ⟨c', iv, p + (sl - 0), by rw [consume_cid, hc'], consume_At sl hat (Nat.sub_le _ _) (Nat.zero_le _)⟩

theorem State.Inv.update {s u : State} {i : Instr} (h : s.Inv) (hu : Update s i u) : u.Inv := by
  cases hu with
  | cipherSlot names built => exact h.setCipher_dropStreamsOf _ built
  | result v => exact h.congr rfl rfl rfl rfl
  | block names loaded length inRange => exact h.withMem (wf_memWrite h.mem inRange)
  | newStream loaded length =>
    refine h.setStream _ fun st hst => ?_
    cases hst
    exact ⟨_, _, 0, loaded, Stream.At.fresh length _⟩
  | useStream valid loaded inRange =>
    refine (h.withMem (wf_consume _ _ _ _ h.mem inRange)).setStream _ fun st hst => ?_
    cases hst
    exact (h.streams _ (stream?_mem valid)).consume loaded _ _ _ _
  | dropStream => exact h.setStream _ nofun

/-- A command let through with `FATAL` = 0 keeps the invariant. -/
theorem State.Inv.exec {s t : State} {i : Instr} (h : s.Inv) (hf : s.status.fatal = false)
    (he : exec i s = .next t) : t.Inv := by
  rcases ends_of_exec he with ⟨code, short, rfl, hr⟩ | ⟨u, rfl, hu⟩
  · exact h.withStatus ⟨by simp [hf], fun hs => (hr.short_iff.1 hs).1⟩
  · exact (h.update hu.update).withStatus ⟨by simp [hu.status_eq, hf, Code.isFatal], nofun⟩

theorem State.Inv.issue {s t : State} {w : Word} (h : s.Inv) (he : issue w s = .next t) : t.Inv := by
  rcases issue_cases he with ⟨-, rfl⟩ | ⟨hf, i, -, hx⟩ | ⟨-, -, rfl⟩
  · exact h
  · exact h.exec hf hx
  · exact h.withStatus ⟨rfl, nofun⟩

theorem State.Inv.writeReg {s t : State} {r : Reg} {v : Word} (h : s.Inv) (he : writeReg r v s = .next t) : t.Inv := by
  cases r with
  | cmd => exact h.issue he
  | argDst | argDlen | argSrc | argSlen | status | result | cap => cases he; exact h.congr rfl rfl rfl rfl

/-- A reset during a command leaves the reset state over a memory with some of the command's bytes. -/
theorem resetDuring_of_issue {w : Word} {s u : State} (h : issue w s = .next u) :
    resetDuring w s = .next (resetEngine
      { s with
        mem := tornMemory (Config.tornByte s.freeCount) s.d s.mem u.mem (wordExtent w s)
        freeCount := s.freeCount + 1 }) := by
  rw [resetDuring, h]

theorem State.Inv.resetDuring {s t : State} {w : Word} (h : s.Inv) (he : resetDuring w s = .next t) : t.Inv := by
  obtain ⟨u, hu⟩ := issue_next w s
  rw [resetDuring_of_issue hu] at he
  cases he
  have htorn := (tornMemory_spec (Config.tornByte s.freeCount) s.d h.mem (h.issue hu).mem (wordExtent w s)).1
  exact inv_resetEngine ((h.withMem htorn).congr rfl rfl rfl rfl)

/-! ### The host's accesses, one equation each -/

theorem step_nil {s : State} (h : s.inputs = []) : step s = .next s := by rw [step, h]

theorem step_cons {s : State} {a : HostAccess} {rest : List HostAccess} (h : s.inputs = a :: rest) :
    step s = hostAccess a { s with inputs := rest } := by rw [step, h]

theorem hostAccess_regWrite {offset : Nat} {width : AccessWidth} {r : Reg} (h : accessedReg offset width = some r)
    (v : Word) (s : State) : hostAccess (.regWrite offset width v) s = writeReg r v s := by
  rw [hostAccess, h]

theorem hostAccess_regRead {offset : Nat} {width : AccessWidth} {r : Reg} (h : accessedReg offset width = some r)
    (s : State) : hostAccess (.regRead offset width) s = .next (observe (.reg offset (readReg s r)) s) := by
  rw [hostAccess, h]

/-- A register access without defined effect is refused (`10_state.md` R31). -/
theorem hostAccess_regWrite_undefined {offset : Nat} {width : AccessWidth} (h : accessedReg offset width = none)
    (v : Word) (s : State) :
    hostAccess (.regWrite offset width v) s = .refused (.undefinedRegisterAccess offset width) := by
  rw [hostAccess, h]

theorem hostAccess_regRead_undefined {offset : Nat} {width : AccessWidth} (h : accessedReg offset width = none)
    (s : State) : hostAccess (.regRead offset width) s = .refused (.undefinedRegisterAccess offset width) := by
  rw [hostAccess, h]

theorem State.Inv.hostAccess {s t : State} {a : HostAccess} (h : s.Inv) (he : hostAccess a s = .next t) : t.Inv := by
  cases a with
  | regWrite offset width value =>
    cases hr : accessedReg offset width with
    | none => rw [hostAccess_regWrite_undefined hr] at he; cases he
    | some r => rw [hostAccess_regWrite hr] at he; exact h.writeReg he
  | regRead offset width =>
    cases hr : accessedReg offset width with
    | none => rw [hostAccess_regRead_undefined hr] at he; cases he
    | some r => rw [hostAccess_regRead hr] at he; cases he; exact h.congr rfl rfl rfl rfl
  | memWrite addr value => cases he; exact h.withMem (wf_write_of_lt h.mem value addr.isLt)
  | memRead addr => cases he; exact h.congr rfl rfl rfl rfl
  | reset => cases he; exact inv_resetEngine h
  | resetDuring command => exact h.resetDuring he

/-- Settles O18: a step is idle or one act of the environment, and every act keeps the invariant; a command keeps it
because its update does (`State.Inv.update`) and its end leaves a legal `STATUS`. -/
theorem stepKeepsInvariant : Obligations.StepKeepsInvariant := by
  intro s t h hstep
  rcases step_cases hstep with ⟨-, rfl⟩ | ⟨a, rest, -, ha⟩
  · exact h
  · have hrest : { s with inputs := rest }.Inv := h.congr rfl rfl rfl rfl
    exact hrest.hostAccess ha

end Sys2Proof.Machine
end

/-! PROOFS. The words of `STATUS` and `CAP`, the register block, buffer memory and reset as the host sees them
(`10_state.md` R28 to R31, R39, R44). -/
section

namespace Sys2Proof.Machine

/-! ### `CAP` -/

/-- `CAP` as a number: its three fields do not reach into each other. -/
theorem toNat_capWord {s : State} (hc : s.nCipher ≤ 16) (hs : s.nStream ≤ 16) :
    s.capWord.toNat = s.nCipher + 256 * s.nStream + 65536 * 512 := by
  simp only [State.capWord, Config.ksbuf, BitVec.toNat_ofNat]
  omega

/-- A bit field as a number. -/
theorem toNat_field {n : Nat} (w : BitVec n) (start len : Nat) :
    (w.extractLsb' start len).toNat = w.toNat / 2 ^ start % 2 ^ len := by
  rw [BitVec.extractLsb'_toNat, Nat.shiftRight_eq_div_pow]

theorem capWord_eq_of_step {s t : State} (h : step s = .next t) : t.capWord = s.capWord := by
  obtain ⟨hc, hs⟩ := parametersNeverChange s t h
  rw [State.capWord, hc, hs, State.capWord]

/-- Settles O12: the fields are read off `CAP` as a number, and only the parameters, which no step changes, enter it. -/
theorem capWordLayout : Obligations.CapWordLayout := by
  refine ⟨fun s hc hs => ?_, fun s t h => capWord_eq_of_step h, fun s v rest h => step_cons h, rfl⟩
  have hcap := toNat_capWord hc hs
  refine ⟨?_, BitVec.eq_of_toNat_eq ?_, ?_, BitVec.eq_of_toNat_eq ?_, BitVec.eq_of_toNat_eq ?_⟩ <;>
    rw [toNat_field, hcap] <;> simp <;> omega

/-! ### `STATUS` -/

theorem Code.number_lt (code : Code) : code.number < 8 := by cases code <;> decide

/-- The code a number of `STATUS.CODE` stands for. -/
def codeOfNumber : Nat → Code
  | 1 => .invalidKeySize
  | 2 => .invalidIVLength
  | 3 => .bufferTooSmall
  | 4 => .invalidOpcode
  | 5 => .invalidContext
  | 6 => .addressRange
  | 7 => .bufferOverlap
  | _ => .ok

theorem codeOfNumber_number (code : Code) : codeOfNumber code.number = code := by cases code <;> rfl

theorem Code.number_injective : Function.Injective Code.number := Function.LeftInverse.injective codeOfNumber_number

/-- `STATUS` as a number. -/
theorem toNat_statusWord (st : Status) :
    st.word.toNat = st.code.number + 256 * st.fatal.toNat + 512 * st.short.toNat := by
  have hn := st.code.number_lt
  have hf := st.fatal.toNat_lt
  have hs := st.short.toNat_lt
  simp only [Status.word, BitVec.toNat_ofNat]
  omega

theorem statusWord_code (st : Status) : (st.word.extractLsb' 0 8).toNat = st.code.number := by
  have hn := st.code.number_lt
  rw [toNat_field, toNat_statusWord]
  omega

theorem statusWord_fatal (st : Status) : st.word.getLsbD 8 = st.fatal := by
  have hn := st.code.number_lt
  rw [BitVec.getLsbD, toNat_statusWord, Nat.testBit_eq_decide_div_mod_eq]
  cases st.fatal <;> simp <;> omega

theorem statusWord_short (st : Status) : st.word.getLsbD 9 = st.short := by
  have hn := st.code.number_lt
  have hf := st.fatal.toNat_lt
  rw [BitVec.getLsbD, toNat_statusWord, Nat.testBit_eq_decide_div_mod_eq]
  cases st.short <;> simp <;> omega

theorem statusWord_reserved (st : Status) : st.word.extractLsb' 10 22 = 0 := by
  have hn := st.code.number_lt
  have hf := st.fatal.toNat_lt
  have hs := st.short.toNat_lt
  apply BitVec.eq_of_toNat_eq
  rw [toNat_field, toNat_statusWord]
  simp
  omega

theorem statusWord_injective {st st' : Status} (h : st.word = st'.word) : st = st' := by
  have hcode : st.code = st'.code := Code.number_injective (by rw [← statusWord_code, h, statusWord_code])
  have hfatal : st.fatal = st'.fatal := by rw [← statusWord_fatal, h, statusWord_fatal]
  have hshort : st.short = st'.short := by rw [← statusWord_short, h, statusWord_short]
  cases st
  cases st'
  simp_all only

/-- Settles O11: each field is its own bits of the word, so the word determines the status. -/
theorem statusWordLayout : Obligations.StatusWordLayout :=
  ⟨fun st => ⟨statusWord_code st, statusWord_fatal st, statusWord_short st, statusWord_reserved st⟩,
    fun _ _ => statusWord_injective, rfl⟩

/-! ### The register block -/

theorem regAt_eq_none {offset : Nat} :
    regAt offset = none ↔ offset ∉ [0x00, 0x04, 0x08, 0x0C, 0x10, 0x14, 0x18, 0x1C] := by
  unfold regAt
  split <;> simp_all

/-- The accesses without defined effect: another width, or another offset (`10_state.md` R31). -/
theorem accessedReg_eq_none {offset : Nat} {width : AccessWidth} :
    accessedReg offset width = none ↔
      width ≠ .w32 ∨ offset ∉ [0x00, 0x04, 0x08, 0x0C, 0x10, 0x14, 0x18, 0x1C] := by
  cases width with
  | w32 => simpa [accessedReg] using regAt_eq_none
  | w8 | w16 | w64 => simp [accessedReg]

theorem step_undefined {s : State} {offset : Nat} {width : AccessWidth} {rest : List HostAccess}
    (h : accessedReg offset width = none)
    (hi : s.inputs = .regRead offset width :: rest ∨ ∃ v, s.inputs = .regWrite offset width v :: rest) :
    step s = .refused (.undefinedRegisterAccess offset width) := by
  rcases hi with hi | ⟨v, hi⟩
  · rw [step_cons hi, hostAccess_regRead_undefined h]
  · rw [step_cons hi, hostAccess_regWrite_undefined h]

/-- The offset of a register reaches that register. -/
theorem accessedReg_offset (r : Reg) : accessedReg r.offset .w32 = some r := by cases r <;> rfl

theorem step_regWrite {s : State} {r : Reg} {v : Word} {rest : List HostAccess}
    (h : s.inputs = .regWrite r.offset .w32 v :: rest) : step s = writeReg r v { s with inputs := rest } := by
  rw [step_cons h, hostAccess_regWrite (accessedReg_offset r)]

theorem step_regRead {s : State} {r : Reg} {rest : List HostAccess} (h : s.inputs = .regRead r.offset .w32 :: rest) :
    step s = .next { s with inputs := rest, observed := .reg r.offset (readReg s r) :: s.observed } := by
  rw [step_cons h, hostAccess_regRead (accessedReg_offset r)]
  cases r <;> rfl

/-- The rows of the reads in `10_state.md` R31 are the registers at their offsets with what they read. -/
theorem exists_reg_of_mem_rows {s : State} {offset : Nat} {v : Word}
    (h : (offset, v) ∈ [(0x00, 0), (0x04, s.argDst), (0x08, s.argDlen), (0x0C, s.argSrc), (0x10, s.argSlen),
      (0x14, s.status.word), (0x18, s.result), (0x1C, s.capWord)]) :
    ∃ r : Reg, offset = r.offset ∧ v = readReg s r := by
  simp only [List.mem_cons, Prod.mk.injEq, List.not_mem_nil, or_false] at h
  rcases h with h | h | h | h | h | h | h | h
  · exact ⟨.cmd, h⟩
  · exact ⟨.argDst, h⟩
  · exact ⟨.argDlen, h⟩
  · exact ⟨.argSrc, h⟩
  · exact ⟨.argSlen, h⟩
  · exact ⟨.status, h⟩
  · exact ⟨.result, h⟩
  · exact ⟨.cap, h⟩

/-- Settles O10: every access to one of the eight offsets is `writeReg` or `readReg` of its register, every other access
is refused. -/
theorem registerBlockAccesses : Obligations.RegisterBlockAccesses := by
  intro s rest
  refine ⟨fun v h => step_regWrite (r := .cmd) h, fun v h => step_regWrite (r := .argDst) h,
    fun v h => step_regWrite (r := .argDlen) h, fun v h => step_regWrite (r := .argSrc) h,
    fun v h => step_regWrite (r := .argSlen) h, fun offset v ho h => ?_, fun offset v ho h => ?_,
    fun offset width v hu h => step_undefined (accessedReg_eq_none.2 hu) (.inr ⟨v, h⟩),
    fun offset width hu h => step_undefined (accessedReg_eq_none.2 hu) (.inl h)⟩
  · simp only [List.mem_cons, List.not_mem_nil, or_false] at ho
    rcases ho with rfl | rfl | rfl
    · exact step_regWrite (r := .status) h
    · exact step_regWrite (r := .result) h
    · exact step_regWrite (r := .cap) h
  · obtain ⟨r, rfl, rfl⟩ := exists_reg_of_mem_rows ho
    exact step_regRead h

/-! ### When a step has a next state -/

theorem writeReg_next (r : Reg) (v : Word) (s : State) : ∃ t, writeReg r v s = .next t := by
  cases r with
  | cmd => exact issue_next v s
  | argDst | argDlen | argSrc | argSlen | status | result | cap => exact ⟨_, rfl⟩

/-- An act of the environment is carried out, or it is a register access without defined effect. -/
theorem hostAccess_next_or_undefined (a : HostAccess) (s : State) :
    (∃ t, hostAccess a s = .next t) ∨
      ∃ offset width, accessedReg offset width = none ∧
        (a = .regRead offset width ∨ ∃ v, a = .regWrite offset width v) := by
  cases a with
  | regWrite offset width value =>
    cases hr : accessedReg offset width with
    | none => exact .inr ⟨offset, width, hr, .inr ⟨value, rfl⟩⟩
    | some r => rw [hostAccess_regWrite hr]; exact .inl (writeReg_next r value s)
  | regRead offset width =>
    cases hr : accessedReg offset width with
    | none => exact .inr ⟨offset, width, hr, .inl rfl⟩
    | some r => exact .inl ⟨_, hostAccess_regRead hr s⟩
  | memWrite addr value => exact .inl ⟨_, rfl⟩
  | memRead addr => exact .inl ⟨_, rfl⟩
  | reset => exact .inl ⟨_, rfl⟩
  | resetDuring command =>
    obtain ⟨u, hu⟩ := issue_next command s
    exact .inl ⟨_, resetDuring_of_issue hu⟩

theorem step_next_of_defined {s : State} (h : ¬ s.nextAccessUndefined) : ∃ t, step s = .next t := by
  cases hi : s.inputs with
  | nil => exact ⟨s, step_nil hi⟩
  | cons a rest =>
    rw [step_cons hi]
    refine (hostAccess_next_or_undefined a _).resolve_right fun ⟨offset, width, hr, ha⟩ => h ⟨offset, width, rest, hr, ?_⟩
    rcases ha with rfl | ⟨v, rfl⟩
    · exact .inl hi
    · exact .inr ⟨v, hi⟩

/-- Settles O15: the only act that is not carried out is a register access without defined effect, and a command always
ends (`exec_ends`). -/
theorem stepStopsOnlyOnUndefinedAccess : Obligations.StepStopsOnlyOnUndefinedAccess := by
  refine ⟨fun s => ⟨?_, step_next_of_defined⟩, fun s offset width rest => step_undefined, fun i s => ?_⟩
  · rintro ⟨t, ht⟩ ⟨offset, width, rest, hr, hi⟩
    rw [step_undefined hr hi] at ht
    cases ht
  · obtain ⟨t, ht, -⟩ := exec_ends i s
    exact ⟨t, ht⟩

/-! ### Buffer memory and reset -/

/-- Settles O13: the host's byte write is `Memory.write`, whose laws are those of a byte-addressed memory. -/
theorem hostMemoryAccesses : Obligations.HostMemoryAccesses := by
  refine ⟨fun s => step_nil, fun s a b rest hm hi => ?_, fun s a rest hi => step_cons hi⟩
  exact ⟨s.mem.write a.toNat b, step_cons hi, wf_write_of_lt hm b a.isLt, read_write_same hm _ b,
    fun x hx => read_write_other s.mem b hx⟩

/-- Settles O16: the reset state by its definition, a later reset as `resetEngine` of the state it meets. -/
theorem resetValues : Obligations.ResetValues := by
  refine ⟨⟨rfl, rfl, rfl, rfl, rfl, rfl, rfl, fun c => List.eq_of_mem_replicate,
    fun st => List.eq_of_mem_replicate⟩, fun s rest hi => ?_⟩
  have hstep : step s = .next (resetEngine { s with inputs := rest }) := step_cons hi
  exact ⟨_, hstep, rfl, rfl, rfl, rfl, rfl, rfl, capWord_eq_of_step hstep, rfl, rfl, rfl⟩

/-- Settles O19: the slots of the reset state are empty, its memory lists nothing, its status is `OK`. -/
theorem resetStateHasInvariant : Obligations.ResetStateHasInvariant where
  nCipher_pos := by decide
  nCipher_le := by decide
  nStream_pos := by decide
  nStream_le := by decide
  status := ⟨rfl, nofun⟩
  mem := reset_mem_wf
  ciphers c hc := nomatch List.eq_of_mem_replicate hc
  streams st hst := nomatch List.eq_of_mem_replicate hst

end Sys2Proof.Machine
end

/-! PROOFS. What a command leaves unchanged: the registers, the cipher slots and the stream slots it does not name
(`10_state.md` R24 to R29, R36, R38, `46_block_capability.md` R320 to R324). -/
section

namespace Sys2Proof.Machine

/-! ### Registers -/

/-- `t` has the `ARG` registers and the environment's side of `s`. -/
structure SameHostSide (s t : State) : Prop where
  argDst : t.argDst = s.argDst
  argDlen : t.argDlen = s.argDlen
  argSrc : t.argSrc = s.argSrc
  argSlen : t.argSlen = s.argSlen
  inputs : t.inputs = s.inputs
  observed : t.observed = s.observed
  freeCount : t.freeCount = s.freeCount

theorem Update.sameHostSide {s u : State} {i : Instr} (h : Update s i u) : SameHostSide s u := by
  cases h <;> exact ⟨rfl, rfl, rfl, rfl, rfl, rfl, rfl⟩

theorem sameHostSide_of_exec {i : Instr} {s t : State} (h : exec i s = .next t) : SameHostSide s t := by
  rcases ends_of_exec h with ⟨code, short, rfl, -⟩ | ⟨u, rfl, hu⟩
  · exact ⟨rfl, rfl, rfl, rfl, rfl, rfl, rfl⟩
  · have := hu.update.sameHostSide
    exact ⟨this.argDst, this.argDlen, this.argSrc, this.argSlen, this.inputs, this.observed, this.freeCount⟩

theorem Update.result_eq {s u : State} {i : Instr} (h : Update s i u) (hi : ∀ cid, i ≠ .blksize cid) :
    u.result = s.result := by
  cases h with
  | result v => exact absurd rfl (hi _)
  | cipherSlot | block | newStream | useStream | dropStream => rfl

/-- Only a completing `BLKSIZE` writes `RESULT` (`10_state.md` R29). -/
theorem result_eq_of_exec {i : Instr} {s t : State} (h : exec i s = .next t)
    (hi : (∀ cid, i ≠ .blksize cid) ∨ t.status.code ≠ .ok) : t.result = s.result := by
  rcases ends_of_exec h with ⟨code, short, rfl, -⟩ | ⟨u, rfl, hu⟩
  · rfl
  · exact hu.update.result_eq (hi.resolve_right fun hne => hne rfl)

/-- `FATAL` latches: a code of the fatal class sets it, nothing clears it (`10_state.md` R28, `60_exceptions.md` R405). -/
theorem fatal_of_exec {i : Instr} {s t : State} (h : exec i s = .next t) :
    t.status.fatal = (s.status.fatal || t.status.code.isFatal) := by
  rcases ends_of_exec h with ⟨code, short, rfl, -⟩ | ⟨u, rfl, hu⟩
  · rfl
  · simp [hu.status_eq, Code.isFatal]

/-- `SHORT` = 1 exactly for a Triple-DES key shorter than 24 bytes (`45_tdes.md` R291). -/
theorem short_iff_of_exec {i : Instr} {s t : State} (h : exec i s = .next t) :
    t.status.short = true ↔ t.status.code = .invalidKeySize ∧ (∃ cid, i = .tdeskey cid) ∧ s.sl < 24 := by
  rcases ends_of_exec h with ⟨code, short, rfl, hr⟩ | ⟨u, rfl, -⟩
  · exact hr.short_iff
  · simp

/-- Settles O33: each clause is a fact about the two ways a command ends. -/
theorem registersFrame : Obligations.RegistersFrame := by
  intro i s t h
  have hs := sameHostSide_of_exec h
  refine ⟨hs.argDst, hs.argDlen, hs.argSrc, hs.argSlen, hs.inputs, hs.observed, hs.freeCount, result_eq_of_exec h,
    fatal_of_exec h, fun hshort => ?_⟩
  obtain ⟨hcode, hi, -⟩ := (short_iff_of_exec h).1 hshort
  exact ⟨hcode, hi⟩

/-! ### Cipher slots -/

/-- A completing command leaves all cipher slots, or it is a key command or `CDROP` and writes the slot it names. -/
theorem Update.ciphers_cases {s u : State} {i : Instr} (h : Update s i u) :
    u.ciphers = s.ciphers ∨ ∃ cid slot, (i = .aeskey cid ∨ i = .deskey cid ∨ i = .tdeskey cid ∨ i = .cdrop cid) ∧
      u.ciphers = s.ciphers.set cid slot := by
  cases h with
  | cipherSlot names built => exact .inr ⟨_, _, names, rfl⟩
  | result | block | newStream | useStream | dropStream => exact .inl rfl

theorem ciphers_cases_of_exec {i : Instr} {s t : State} (h : exec i s = .next t) :
    t.ciphers = s.ciphers ∨ ∃ cid slot, (i = .aeskey cid ∨ i = .deskey cid ∨ i = .tdeskey cid ∨ i = .cdrop cid) ∧
      t.ciphers = s.ciphers.set cid slot := by
  rcases ends_of_exec h with ⟨code, short, rfl, -⟩ | ⟨u, rfl, hu⟩
  · exact .inl rfl
  · exact hu.update.ciphers_cases

/-- Settles O34: a slot other than the one written keeps its contents, and the five commands of the second clause are
not among those that write one. -/
theorem cipherSlotsFrame : Obligations.CipherSlotsFrame := by
  refine ⟨fun i s t j h hne => ?_, fun i s t cid sid h hi => ?_⟩
  · rcases ciphers_cases_of_exec h with heq | ⟨cid, slot, names, heq⟩
    · exact absurd (by rw [State.cipher?, heq, State.cipher?]) hne
    · obtain rfl : cid = j := by
        by_contra hcid
        exact hne (by rw [State.cipher?, heq, List.getElem?_set_ne hcid, State.cipher?])
      exact names
  · rcases ciphers_cases_of_exec h with heq | ⟨cid', slot, names, -⟩
    · exact heq
    · rcases names with rfl | rfl | rfl | rfl <;> simp at hi

/-! ### Stream slots -/

/-- A stream slot that `DropStreamsOf(cid)` changes was bound to `C[cid]` and is invalid afterwards. -/
theorem stream?_dropStreamsOf_ne {cid j : Nat} {s : State} (h : (dropStreamsOf cid s).stream? j ≠ s.stream? j) :
    ∃ st, s.stream? j = some (some st) ∧ st.cid = cid ∧ (dropStreamsOf cid s).stream? j = some none := by
  simp only [State.stream?, dropStreamsOf_streams, List.getElem?_map] at h ⊢
  rcases hj : s.streams[j]? with _ | _ | st
  · simp [hj] at h
  · simp [hj] at h
  · by_cases hc : st.cid = cid
    · exact ⟨st, rfl, hc, by simp [hc]⟩
    · simp [hj, hc] at h

theorem stream?_setStream_ne {sid j : Nat} {slot : Option Stream} {s : State} (h : sid ≠ j) :
    (setStream sid slot s).stream? j = s.stream? j := List.getElem?_set_ne h

/-- A stream slot a completing command changes is the one it names, or was bound to the cipher slot it writes. -/
theorem Update.stream?_ne {s u : State} {i : Instr} (h : Update s i u) {j : Nat} (hne : u.stream? j ≠ s.stream? j) :
    (∃ cid, i = .ctrnew j cid) ∨ i = .ctrxor j ∨ i = .sdrop j ∨
      ∃ cid st, (i = .aeskey cid ∨ i = .deskey cid ∨ i = .tdeskey cid ∨ i = .cdrop cid) ∧
        s.stream? j = some (some st) ∧ st.cid = cid ∧ u.stream? j = some none := by
  cases h with
  | cipherSlot names built =>
    obtain ⟨st, hst, hcid, hnone⟩ := stream?_dropStreamsOf_ne hne
    exact .inr (.inr (.inr ⟨_, st, names, hst, hcid, hnone⟩))
  | result v => exact absurd rfl hne
  | block names loaded length inRange => exact absurd rfl hne
  | @newStream sid cid =>
    obtain rfl : sid = j := not_imp_comm.1 stream?_setStream_ne hne
    exact .inl ⟨cid, rfl⟩
  | @useStream sid =>
    obtain rfl : sid = j := not_imp_comm.1 stream?_setStream_ne hne
    exact .inr (.inl rfl)
  | @dropStream sid =>
    obtain rfl : sid = j := not_imp_comm.1 stream?_setStream_ne hne
    exact .inr (.inr (.inl rfl))

/-- Settles O35: an error changes no slot, and a completing command only those of `Update.stream?_ne`. -/
theorem streamSlotsFrame : Obligations.StreamSlotsFrame := by
  intro i s t j h hne
  rcases ends_of_exec h with ⟨code, short, rfl, -⟩ | ⟨u, rfl, hu⟩
  · exact absurd rfl hne
  · exact ⟨rfl, hu.update.stream?_ne hne⟩

end Sys2Proof.Machine
end

/-! PROOFS. Two runs of one command on states of one shape: the same check decides both (`60_exceptions.md` R414, R415),
and what differs between the states does not reach a register, a slot's shape or a byte outside the destination
(`10_state.md` R41). -/
section

namespace Sys2Proof.Machine

/-! ### The first failing check -/

theorem FirstFailing.unique {checks : List (Prop × Code)} {code code' : Code} (h : FirstFailing checks code)
    (h' : FirstFailing checks code') : code = code' := by
  induction checks with
  | nil => exact Eq.trans h (Eq.symm h')
  | cons check rest ih =>
    rcases h with ⟨hf, hc⟩ | ⟨hn, hrest⟩
    · rcases h' with ⟨-, hc'⟩ | ⟨hn', -⟩
      · rw [hc, hc']
      · exact absurd hf hn'
    · rcases h' with ⟨hf', -⟩ | ⟨-, hrest'⟩
      · exact absurd hf' hn
      · exact ih hrest hrest'

theorem firstFailing_ok {checks : List (Prop × Code)} (h : ∀ check ∈ checks, ¬ check.1) : FirstFailing checks .ok := by
  induction checks with
  | nil => rfl
  | cons check rest ih =>
    exact .inr ⟨h check List.mem_cons_self, ih fun c hc => h c (List.mem_cons_of_mem _ hc)⟩

theorem not_slotEmpty_of_wrongKeyLength {s : State} {i : Instr} (h : s.wrongKeyLength i) : ¬ s.slotEmpty i := by
  cases i <;> simp_all [State.wrongKeyLength, State.slotEmpty]

theorem not_wrongKeyLength_of_wrongIVLength {s : State} {i : Instr} (h : s.wrongIVLength i) :
    ¬ s.wrongKeyLength i := by
  cases i <;> simp_all [State.wrongKeyLength, State.wrongIVLength]

theorem not_wrongLength_of_shortBuffer {s : State} {i : Instr} (h : s.shortBuffer i) :
    ¬ s.wrongKeyLength i ∧ ¬ s.wrongIVLength i := by
  cases i <;> simp_all [State.wrongKeyLength, State.wrongIVLength, State.shortBuffer]

/-- In a state with the invariant the cipher slot of a valid stream is loaded (`10_state.md` R37). -/
theorem State.Inv.stream_loaded {s : State} (h : s.Inv) {sid : Nat} {st : Stream}
    (hst : s.stream? sid = some (some st)) : ∃ c, s.cipher? st.cid = some (some c) ∧ st.bs = blockSizeOf c := by
  obtain ⟨c, iv, p, hc, hat⟩ := h.streams st (stream?_mem hst)
  exact ⟨c, hc, hat.bs_eq⟩

/-- The reason of an error is the first check that fails. -/
theorem Reason.firstFailing {s : State} (hi : s.Inv) {i : Instr} {code : Code} {short : Bool}
    (h : Reason s i code short) : FirstFailing (s.checks i) code := by
  simp only [State.checks, FirstFailing]
  rcases h with ⟨rfl, -, hx | he | ⟨sid, st, rfl, hst, hc⟩⟩ | ⟨rfl, hx, hk, -⟩ | ⟨rfl, -, hx, he, hv⟩ |
    ⟨rfl, -, hx, he, hb⟩ | ⟨rfl, -, hx, he, hk, hv, hb, ht⟩ | ⟨rfl, -, hx, he, hk, hv, hb, ht, ho⟩
  · exact .inl ⟨hx, rfl⟩
  · by_cases hx : s.indexOutOfRange i
    · exact .inl ⟨hx, rfl⟩
    · exact .inr ⟨hx, .inl ⟨he, rfl⟩⟩
  · obtain ⟨c, hc', -⟩ := hi.stream_loaded hst
    simp [hc'] at hc
  · exact .inr ⟨hx, .inr ⟨not_slotEmpty_of_wrongKeyLength hk, .inl ⟨hk, rfl⟩⟩⟩
  · exact .inr ⟨hx, .inr ⟨he, .inr ⟨not_wrongKeyLength_of_wrongIVLength hv, .inl ⟨hv, rfl⟩⟩⟩⟩
  · obtain ⟨hk, hv⟩ := not_wrongLength_of_shortBuffer hb
    exact .inr ⟨hx, .inr ⟨he, .inr ⟨hk, .inr ⟨hv, .inl ⟨hb, rfl⟩⟩⟩⟩⟩
  · exact .inr ⟨hx, .inr ⟨he, .inr ⟨hk, .inr ⟨hv, .inr ⟨hb, .inl ⟨ht, rfl⟩⟩⟩⟩⟩⟩
  · exact .inr ⟨hx, .inr ⟨he, .inr ⟨hk, .inr ⟨hv, .inr ⟨hb, .inr ⟨ht, .inl ⟨ho, rfl⟩⟩⟩⟩⟩⟩⟩

theorem identicalOrDisjoint_zero (d s : Nat) : identicalOrDisjoint d s 0 := by
  simp only [identicalOrDisjoint]
  omega

/-- A command that touches no extent has none that overlap. -/
theorem not_partialOverlap_of_touched_zero {s : State} {i : Instr} (h : s.touched i = 0) : ¬ s.partialOverlap i := by
  simp [State.partialOverlap, h, identicalOrDisjoint_zero]

/-- A key command whose index, length and extent are in order passes every check. -/
theorem checks_pass_of_key {s : State} {i : Instr} {cid : Nat}
    (names : i = .aeskey cid ∨ i = .deskey cid ∨ i = .tdeskey cid) (hcid : cid < s.nCipher)
    (hk : ¬ s.wrongKeyLength i) (ht : s.sa + s.sl ≤ 2 ^ 32) : ∀ check ∈ s.checks i, ¬ check.1 := by
  have ho : ¬ s.partialOverlap i := not_partialOverlap_of_touched_zero (by rcases names with rfl | rfl | rfl <;> rfl)
  have hx : ¬ s.indexOutOfRange i := by
    rcases names with rfl | rfl | rfl <;> rw [indexOutOfRange_cid rfl rfl] <;> omega
  rcases names with rfl | rfl | rfl <;>
    simpa [State.checks, hx, hk, ho, State.slotEmpty, State.wrongIVLength, State.shortBuffer, State.extentPastTop]
      using ht

/-- `ENC` and `DEC` on a loaded slot with both extents in order pass every check. -/
theorem checks_pass_of_block {s : State} {i : Instr} {cid : Nat} {c : Cipher} (names : i = .enc cid ∨ i = .dec cid)
    (hc : s.cipher? cid = some (some c)) (hsl : blockSizeOf c ≤ s.sl) (hdl : blockSizeOf c ≤ s.dl)
    (hs : s.sa + s.sl ≤ 2 ^ 32) (hd : s.d + s.dl ≤ 2 ^ 32) (ho : identicalOrDisjoint s.d s.sa (blockSizeOf c)) :
    ∀ check ∈ s.checks i, ¬ check.1 := by
  have hx : ¬ s.indexOutOfRange i := by
    have := lt_nCipher_of_cipher? hc
    rcases names with rfl | rfl <;> rw [indexOutOfRange_cid rfl rfl] <;> omega
  rcases names with rfl | rfl <;>
    simp [State.checks, hx, hc, State.slotEmpty, State.wrongKeyLength, State.wrongIVLength, State.shortBuffer,
      State.extentPastTop, State.partialOverlap, State.touched, ho, hsl, hdl] <;> omega

/-- A command without operands in buffer memory fails on its slots only. -/
theorem checks_pass_of_no_operands {s : State} {i : Instr}
    (names : (∃ cid, i = .blksize cid) ∨ (∃ cid, i = .cdrop cid) ∨ ∃ sid, i = .sdrop sid)
    (hx : ¬ s.indexOutOfRange i) (he : ¬ s.slotEmpty i) : ∀ check ∈ s.checks i, ¬ check.1 := by
  have ho : ¬ s.partialOverlap i :=
    not_partialOverlap_of_touched_zero (by rcases names with ⟨_, rfl⟩ | ⟨_, rfl⟩ | ⟨_, rfl⟩ <;> rfl)
  rcases names with ⟨_, rfl⟩ | ⟨_, rfl⟩ | ⟨_, rfl⟩ <;>
    simp [State.checks, hx, he, ho, State.wrongKeyLength, State.wrongIVLength, State.shortBuffer, State.extentPastTop]

/-- A command that completes has passed every check. -/
theorem Effect.checks_pass {s u : State} {i : Instr} (h : Effect s u i) : ∀ check ∈ s.checks i, ¬ check.1 := by
  cases i with
  | aeskey cid =>
    obtain ⟨hcid, hsl, ht, -⟩ := h
    exact checks_pass_of_key (.inl rfl) hcid (by simp only [State.wrongKeyLength]; omega) ht
  | deskey cid =>
    obtain ⟨hcid, hsl, ht, -⟩ := h
    exact checks_pass_of_key (.inr (.inl rfl)) hcid (by simpa [State.wrongKeyLength] using hsl) ht
  | tdeskey cid =>
    obtain ⟨hcid, hsl, ht, -⟩ := h
    exact checks_pass_of_key (.inr (.inr rfl)) hcid (by simpa [State.wrongKeyLength] using hsl) ht
  | blksize cid =>
    obtain ⟨c, hc, -⟩ := h
    refine checks_pass_of_no_operands (.inl ⟨cid, rfl⟩) ?_ (by simp [State.slotEmpty, hc])
    rw [indexOutOfRange_cid rfl rfl]
    exact Nat.not_le.2 (lt_nCipher_of_cipher? hc)
  | enc cid =>
    obtain ⟨c, hc, hsl, hdl, hs, hd, ho, -⟩ := h
    exact checks_pass_of_block (.inl rfl) hc hsl hdl hs hd ho
  | dec cid =>
    obtain ⟨c, hc, hsl, hdl, hs, hd, ho, -⟩ := h
    exact checks_pass_of_block (.inr rfl) hc hsl hdl hs hd ho
  | ctrnew sid cid =>
    obtain ⟨c, hc, hsid, hsl, ht, -⟩ := h
    have hx : ¬ s.indexOutOfRange (.ctrnew sid cid) := by
      simp [State.indexOutOfRange, cidUsed, sidUsed, lt_nCipher_of_cipher? hc, hsid]
    simpa [State.checks, hx, hc, State.slotEmpty, State.wrongKeyLength, State.wrongIVLength, State.shortBuffer,
      State.extentPastTop, not_partialOverlap_of_touched_zero (s := s) (i := .ctrnew sid cid) rfl, hsl] using hsl ▸ ht
  | ctrxor sid =>
    obtain ⟨st, c, hst, -, hdl, hs, hd, ho, -⟩ := h
    have hx : ¬ s.indexOutOfRange (.ctrxor sid) := by
      rw [indexOutOfRange_sid rfl rfl]; exact Nat.not_le.2 (lt_nStream_of_stream? hst)
    simpa [State.checks, hx, hst, State.slotEmpty, State.wrongKeyLength, State.wrongIVLength, State.shortBuffer,
      State.extentPastTop, State.partialOverlap, State.touched, ho, hdl] using ⟨hs, hd⟩
  | cdrop cid =>
    obtain ⟨hcid, -⟩ := h
    exact checks_pass_of_no_operands (.inr (.inl ⟨cid, rfl⟩))
      (by rw [indexOutOfRange_cid rfl rfl]; exact Nat.not_le.2 hcid) id
  | sdrop sid =>
    obtain ⟨hsid, -⟩ := h
    exact checks_pass_of_no_operands (.inr (.inr ⟨sid, rfl⟩))
      (by rw [indexOutOfRange_sid rfl rfl]; exact Nat.not_le.2 hsid) id

/-- The code a command ends with is the error of its first failing check, `OK` when none fails (`60_exceptions.md` R414). -/
theorem firstFailing_of_exec {s t : State} (hi : s.Inv) {i : Instr} (h : exec i s = .next t) :
    FirstFailing (s.checks i) t.status.code := by
  rcases ends_of_exec h with ⟨code, short, rfl, hr⟩ | ⟨u, rfl, hu⟩
  · exact hr.firstFailing hi
  · exact firstFailing_ok hu.checks_pass

/-! ### The checks see registers and shapes only -/

/-- The two states agree on what the checks of a command look at: the `ARG` registers, the kind of every cipher slot and
`valid` of every stream slot (`60_exceptions.md` R415). -/
structure SameOperands (s s' : State) : Prop where
  argDst : s.argDst = s'.argDst
  argDlen : s.argDlen = s'.argDlen
  argSrc : s.argSrc = s'.argSrc
  argSlen : s.argSlen = s'.argSlen
  kinds : s.ciphers.map kindNumber = s'.ciphers.map kindNumber
  valid : s.streams.map Option.isSome = s'.streams.map Option.isSome

theorem kindNumber_aesCipher (key : List Byte) : kindNumber (some (aesCipher key)) = 1 := rfl
theorem kindNumber_desCipher (key : List Byte) : kindNumber (some (desCipher key)) = 2 := rfl
theorem kindNumber_tdesCipher (key : List Byte) : kindNumber (some (tdesCipher key)) = 3 := rfl

/-- The block size a kind of cipher slot has, none for `EMPTY`. -/
def kindBlockSize : Nat → Option Nat
  | 0 => none
  | 1 => some Config.bsAes
  | _ => some Config.bsDes

/-- The kind of a slot fixes whether it is loaded and its block size (`46_block_capability.md` R310). -/
theorem map_blockSizeOf_eq_kind (slot : Option Cipher) : slot.map blockSizeOf = kindBlockSize (kindNumber slot) := by
  rcases slot with _ | ⟨nk, ek, dk⟩ | ks | ⟨ks1, ks2, ks3⟩ <;> rfl

/-- The same for what an index names: no slot, an `EMPTY` one, or a loaded one. -/
theorem join_map_blockSizeOf_eq {x y : Option (Option Cipher)} (h : x.map kindNumber = y.map kindNumber) :
    x.join.map blockSizeOf = y.join.map blockSizeOf := by
  have key : ∀ z : Option (Option Cipher), z.join.map blockSizeOf = (z.map kindNumber).bind kindBlockSize := by
    rintro (_ | slot)
    · rfl
    · exact map_blockSizeOf_eq_kind slot
  rw [key, key, h]

theorem join_eq_none_iff_of_isSome {α : Type} {x y : Option (Option α)}
    (h : x.map Option.isSome = y.map Option.isSome) : x.join = none ↔ y.join = none := by
  rcases x with _ | _ | a <;> rcases y with _ | _ | b <;> simp_all

/-- What a map sees of a list, it sees of each entry. -/
theorem map_getElem?_eq {α β : Type} {f : α → β} {l l' : List α} (h : l.map f = l'.map f) (i : Nat) :
    l[i]?.map f = l'[i]?.map f := by
  rw [← List.getElem?_map, h, List.getElem?_map]

namespace SameOperands

variable {s s' : State} (h : SameOperands s s')
include h

theorem d : s.d = s'.d := congrArg BitVec.toNat h.argDst
theorem dl : s.dl = s'.dl := congrArg BitVec.toNat h.argDlen
theorem sa : s.sa = s'.sa := congrArg BitVec.toNat h.argSrc
theorem sl : s.sl = s'.sl := congrArg BitVec.toNat h.argSlen
theorem nCipher : s.nCipher = s'.nCipher := by simpa [State.nCipher] using congrArg List.length h.kinds
theorem nStream : s.nStream = s'.nStream := by simpa [State.nStream] using congrArg List.length h.valid

theorem cipher?_blockSizeOf (cid : Nat) :
    (s.cipher? cid).join.map blockSizeOf = (s'.cipher? cid).join.map blockSizeOf :=
  join_map_blockSizeOf_eq (map_getElem?_eq h.kinds cid)

theorem slotBlockSize (cid : Nat) : s.slotBlockSize cid = s'.slotBlockSize cid := by
  rw [State.slotBlockSize, h.cipher?_blockSizeOf, State.slotBlockSize]

theorem cipher?_empty (cid : Nat) : (s.cipher? cid).join = none ↔ (s'.cipher? cid).join = none := by
  rw [← Option.map_eq_none_iff, h.cipher?_blockSizeOf, Option.map_eq_none_iff]

theorem stream?_invalid (sid : Nat) : (s.stream? sid).join = none ↔ (s'.stream? sid).join = none :=
  join_eq_none_iff_of_isSome (map_getElem?_eq h.valid sid)

theorem touched (i : Instr) : s.touched i = s'.touched i := by
  cases i <;> simp only [State.touched, h.slotBlockSize, h.sl]

theorem slotEmpty (i : Instr) : s.slotEmpty i ↔ s'.slotEmpty i := by
  cases i <;> simp only [State.slotEmpty, h.cipher?_empty, h.stream?_invalid]

theorem wrongKeyLength (i : Instr) : s.wrongKeyLength i ↔ s'.wrongKeyLength i := by
  cases i <;> simp only [State.wrongKeyLength, h.sl]

theorem wrongIVLength (i : Instr) : s.wrongIVLength i ↔ s'.wrongIVLength i := by
  cases i <;> simp only [State.wrongIVLength, h.sl, h.slotBlockSize]

theorem shortBuffer (i : Instr) : s.shortBuffer i ↔ s'.shortBuffer i := by
  cases i <;> simp only [State.shortBuffer, h.sl, h.dl, h.slotBlockSize]

theorem extentPastTop (i : Instr) : s.extentPastTop i ↔ s'.extentPastTop i := by
  cases i <;> simp only [State.extentPastTop, h.sa, h.sl, h.d, h.dl]

theorem checks (i : Instr) : s.checks i = s'.checks i := by
  simp only [State.checks, State.indexOutOfRange, h.nCipher, h.nStream, h.slotEmpty, h.wrongKeyLength,
    h.wrongIVLength, h.shortBuffer, h.extentPastTop, State.partialOverlap, h.d, h.sa, h.touched]

/-- The same command ends with the same code in both states (`60_exceptions.md` R415). -/
theorem code_eq {t t' : State} {i : Instr} (hi : s.Inv) (hi' : s'.Inv) (he : exec i s = .next t)
    (he' : exec i s' = .next t') : t.status.code = t'.status.code :=
  FirstFailing.unique (firstFailing_of_exec hi he) (h.checks i ▸ firstFailing_of_exec hi' he')

end SameOperands

/-! ### Memory outside the destination -/

/-- A completing command stores to its destination bytes only (`20_memory.md` R61). -/
theorem Update.read_outside {s u : State} {i : Instr} (h : Update s i u) {a : Nat}
    (ha : a < s.d ∨ s.d + s.touched i ≤ a) : u.mem.read a = s.mem.read a := by
  cases h with
  | cipherSlot | result | newStream | dropStream => rfl
  | block names loaded length =>
    refine read_memWrite_outside _ _ _ ?_
    rcases names with rfl | rfl <;> simpa [length, State.touched, loaded] using ha
  | useStream => exact read_consume_outside _ _ _ _ _ _ _ _ ha

theorem read_outside_of_exec {i : Instr} {s t : State} (h : exec i s = .next t) {a : Nat}
    (ha : a < s.d ∨ s.d + s.touched i ≤ a) : t.mem.read a = s.mem.read a := by
  rcases ends_of_exec h with ⟨code, short, rfl, -⟩ | ⟨u, rfl, hu⟩
  · rfl
  · exact hu.update.read_outside ha

/-! ### Agreement of two states, one rule per state operation -/

/-- What `State.sameShape` compares of a stream slot. -/
def streamShape (slot : Option Stream) : Option (Nat × Nat) := slot.map fun st => (st.cid, st.bs)

theorem streamShape_filter (slot : Option Stream) (cid : Nat) :
    streamShape (slot.filter fun st => st.cid != cid) = (streamShape slot).filter fun x => x.1 != cid := by
  cases slot with
  | none => rfl
  | some st => by_cases hc : st.cid = cid <;> simp [streamShape, Option.filter, hc]

namespace State.sameShape

variable {s s' : State} (h : s.sameShape s')
include h

theorem status_eq : s.status = s'.status := by
  obtain ⟨-, -, -, -, hstatus, -⟩ := h
  exact hstatus

theorem kinds : s.ciphers.map kindNumber = s'.ciphers.map kindNumber := by
  obtain ⟨-, -, -, -, -, -, hkinds, -⟩ := h
  exact hkinds

theorem streams : s.streams.map streamShape = s'.streams.map streamShape := by
  obtain ⟨-, -, -, -, -, -, -, hstreams⟩ := h
  exact hstreams

/-- States of one shape agree on what the checks of a command look at. -/
theorem operands : SameOperands s s' := by
  have hvalid := congrArg (List.map Option.isSome) h.streams
  obtain ⟨hdst, hdlen, hsrc, hslen, -, -, hkinds, -⟩ := h
  refine ⟨hdst, hdlen, hsrc, hslen, hkinds, ?_⟩
  simpa [streamShape, Function.comp_def] using hvalid

/-- The shape says nothing of memory. -/
theorem withMem (m m' : Memory) : { s with mem := m }.sameShape { s' with mem := m' } := h

theorem withStatus {status status' : Status} (heq : status = status') :
    { s with status := status }.sameShape { s' with status := status' } := by
  obtain ⟨hdst, hdlen, hsrc, hslen, -, hrest⟩ := h
  exact ⟨hdst, hdlen, hsrc, hslen, heq, hrest⟩

theorem withResult {v v' : Word} (heq : v = v') : { s with result := v }.sameShape { s' with result := v' } := by
  obtain ⟨hdst, hdlen, hsrc, hslen, hstatus, -, hrest⟩ := h
  exact ⟨hdst, hdlen, hsrc, hslen, hstatus, heq, hrest⟩

theorem setCipher (cid : Nat) {slot slot' : Option Cipher} (heq : kindNumber slot = kindNumber slot') :
    (setCipher cid slot s).sameShape (setCipher cid slot' s') := by
  obtain ⟨hdst, hdlen, hsrc, hslen, hstatus, hresult, hkinds, hstreams⟩ := h
  refine ⟨hdst, hdlen, hsrc, hslen, hstatus, hresult, ?_, hstreams⟩
  simp only [setCipher_ciphers, List.map_set, hkinds, heq]

theorem setStream (sid : Nat) {slot slot' : Option Stream} (heq : streamShape slot = streamShape slot') :
    (setStream sid slot s).sameShape (setStream sid slot' s') := by
  have hset : (s.streams.set sid slot).map streamShape = (s'.streams.set sid slot').map streamShape := by
    rw [List.map_set, List.map_set, h.streams, heq]
  obtain ⟨hdst, hdlen, hsrc, hslen, hstatus, hresult, hkinds, -⟩ := h
  exact ⟨hdst, hdlen, hsrc, hslen, hstatus, hresult, hkinds, hset⟩

theorem dropStreamsOf (cid : Nat) : (dropStreamsOf cid s).sameShape (dropStreamsOf cid s') := by
  have hdrop : ∀ u : State, (Machine.dropStreamsOf cid u).streams.map streamShape =
      (u.streams.map streamShape).map fun shape => shape.filter fun x => x.1 != cid := fun u => by
    simp [streamShape_filter]
  have heq := (hdrop s).trans ((congrArg _ h.streams).trans (hdrop s').symm)
  obtain ⟨hdst, hdlen, hsrc, hslen, hstatus, hresult, hkinds, -⟩ := h
  exact ⟨hdst, hdlen, hsrc, hslen, hstatus, hresult, hkinds, heq⟩

theorem capWord_eq : s.capWord = s'.capWord := by
  rw [State.capWord, h.operands.nCipher, h.operands.nStream, State.capWord]

/-- The host reads the same from every register (`10_state.md` R41). -/
theorem readReg_eq (r : Reg) : readReg s r = readReg s' r := by
  obtain ⟨hdst, hdlen, hsrc, hslen, hstatus, hresult, -, -⟩ := id h
  cases r with
  | cmd => rfl
  | argDst => exact hdst
  | argDlen => exact hdlen
  | argSrc => exact hsrc
  | argSlen => exact hslen
  | status => exact congrArg Status.word hstatus
  | result => exact hresult
  | cap => exact h.capWord_eq

theorem blockSizeOf_eq {cid : Nat} {c c' : Cipher} (hc : s.cipher? cid = some (some c))
    (hc' : s'.cipher? cid = some (some c')) : blockSizeOf c = blockSizeOf c' := by
  rw [← slotBlockSize_eq hc, h.operands.slotBlockSize, slotBlockSize_eq hc']

theorem streamShape_eq {sid : Nat} {st st' : Stream} (hst : s.stream? sid = some (some st))
    (hst' : s'.stream? sid = some (some st')) : streamShape (some st) = streamShape (some st') := by
  have heq := map_getElem?_eq h.streams sid
  rw [← State.stream?, hst, ← State.stream?, hst'] at heq
  exact Option.some.inj heq

/-! ### Two runs -/

/-- The effects of one command on states of one shape give states of one shape. -/
theorem effect {u u' : State} {i : Instr} (he : Effect s u i) (he' : Effect s' u' i) : u.sameShape u' := by
  cases i with
  | aeskey cid =>
    obtain ⟨-, -, -, rfl⟩ := he
    obtain ⟨-, -, -, rfl⟩ := he'
    exact (h.dropStreamsOf cid).setCipher cid (by simp only [kindNumber_aesCipher])
  | deskey cid =>
    obtain ⟨-, -, -, rfl⟩ := he
    obtain ⟨-, -, -, rfl⟩ := he'
    exact (h.dropStreamsOf cid).setCipher cid (by simp only [kindNumber_desCipher])
  | tdeskey cid =>
    obtain ⟨-, -, -, rfl⟩ := he
    obtain ⟨-, -, -, rfl⟩ := he'
    exact (h.dropStreamsOf cid).setCipher cid (by simp only [kindNumber_tdesCipher])
  | blksize cid =>
    obtain ⟨c, hc, rfl⟩ := he
    obtain ⟨c', hc', rfl⟩ := he'
    have hbs : BitVec.ofNat 32 (blockSizeOf c) = BitVec.ofNat 32 (blockSizeOf c') := congrArg _ (h.blockSizeOf_eq hc hc')
    exact h.withResult hbs
  | enc cid =>
    obtain ⟨c, -, -, -, -, -, -, rfl⟩ := he
    obtain ⟨c', -, -, -, -, -, -, rfl⟩ := he'
    exact h.withMem _ _
  | dec cid =>
    obtain ⟨c, -, -, -, -, -, -, rfl⟩ := he
    obtain ⟨c', -, -, -, -, -, -, rfl⟩ := he'
    exact h.withMem _ _
  | ctrnew sid cid =>
    obtain ⟨c, hc, -, -, -, rfl⟩ := he
    obtain ⟨c', hc', -, -, -, rfl⟩ := he'
    exact h.setStream sid (by simp [streamShape, h.blockSizeOf_eq hc hc'])
  | ctrxor sid =>
    obtain ⟨st, c, hst, -, -, -, -, -, rfl⟩ := he
    obtain ⟨st', c', hst', -, -, -, -, -, rfl⟩ := he'
    exact (h.withMem _ _).setStream sid (by simpa [streamShape] using h.streamShape_eq hst hst')
  | cdrop cid =>
    obtain ⟨-, rfl⟩ := he
    obtain ⟨-, rfl⟩ := he'
    exact (h.dropStreamsOf cid).setCipher cid rfl
  | sdrop sid =>
    obtain ⟨-, rfl⟩ := he
    obtain ⟨-, rfl⟩ := he'
    exact h.setStream sid rfl

/-- The whole `STATUS` after a command depends on registers and shapes only (`60_exceptions.md` R415). -/
theorem exec_status {t t' : State} {i : Instr} (hi : s.Inv) (hi' : s'.Inv) (he : exec i s = .next t)
    (he' : exec i s' = .next t') : t.status = t'.status := by
  have hcode : t.status.code = t'.status.code := h.operands.code_eq hi hi' he he'
  have hfatal : t.status.fatal = t'.status.fatal := by
    rw [fatal_of_exec he, fatal_of_exec he', h.status_eq, hcode]
  have hshort : t.status.short = t'.status.short := by
    rw [Bool.eq_iff_iff, short_iff_of_exec he, short_iff_of_exec he', hcode, h.operands.sl]
  calc t.status = ⟨t.status.code, t.status.fatal, t.status.short⟩ := rfl
    _ = t'.status := by rw [hcode, hfatal, hshort]

/-- A command keeps two states of one shape in one shape: both runs end with the same code, so both change `STATUS`
alone or both take effect. -/
theorem exec {t t' : State} {i : Instr} (hi : s.Inv) (hi' : s'.Inv) (he : Machine.exec i s = .next t)
    (he' : Machine.exec i s' = .next t') : t.sameShape t' := by
  have hstatus := h.exec_status hi hi' he he'
  rcases ends_of_exec he with ⟨code, short, rfl, hr⟩ | ⟨u, rfl, hu⟩ <;>
    rcases ends_of_exec he' with ⟨code', short', rfl, hr'⟩ | ⟨u', rfl, hu'⟩
  · exact h.withStatus hstatus
  · exact absurd (congrArg Status.code hstatus) hr.code_ne_ok
  · exact absurd (congrArg Status.code hstatus).symm hr'.code_ne_ok
  · exact (h.effect hu hu').withStatus hstatus

end State.sameShape

/-- Settles O38: shapes and registers stay equal (`State.sameShape.exec`), and outside the destination both memories are
what they were before. -/
theorem keyMaterialIsNotReadOut : Obligations.KeyMaterialIsNotReadOut := by
  refine ⟨fun i s s' t t' hi hi' h hm he he' => ⟨h.exec hi hi' he he', fun a ha => ?_⟩,
    fun s s' r h => h.readReg_eq r⟩
  have ha' : a < s'.d ∨ s'.d + s'.touched i ≤ a := by rwa [← h.operands.d, ← h.operands.touched]
  rw [read_outside_of_exec he ha, hm, read_outside_of_exec he' ha']

end Sys2Proof.Machine
end

/-! PROOFS. Memory outside the bytes a command stores to (`20_memory.md` R61, R63, R65): the frame of
`read_outside_of_exec`, with the number of touched bytes worked out for each kind of command. -/
section

namespace Sys2Proof.Machine

theorem touched_eq_zero {i : Instr} (h : ∀ cid sid, i ∉ [.enc cid, .dec cid, .ctrxor sid]) (s : State) :
    s.touched i = 0 := by
  cases i with
  | enc cid => exact absurd (by simp) (h cid 0)
  | dec cid => exact absurd (by simp) (h cid 0)
  | ctrxor sid => exact absurd (by simp) (h 0 sid)
  | aeskey | deskey | tdeskey | blksize | ctrnew | cdrop | sdrop => rfl

theorem touched_block {cid : Nat} {i : Instr} (h : i = .enc cid ∨ i = .dec cid) (s : State) :
    s.touched i = s.slotBlockSize cid := by
  rcases h with rfl | rfl <;> rfl

theorem slotBlockSize_eq_zero {s : State} {cid : Nat} (h : ∀ c, s.cipher? cid ≠ some (some c)) :
    s.slotBlockSize cid = 0 := by
  have hempty : (s.cipher? cid).join = none :=
    Option.eq_none_iff_forall_ne_some.2 fun c hc => h c (Option.join_eq_some_iff.1 hc)
  rw [State.slotBlockSize, hempty]
  rfl

/-- A command that touches no byte changes none: every address lies outside an empty region. -/
theorem read_of_exec_of_touched_eq_zero {i : Instr} {s t : State} (h : exec i s = .next t) (h0 : s.touched i = 0)
    (a : Nat) : t.mem.read a = s.mem.read a := by
  refine read_outside_of_exec h ?_
  rw [h0]
  exact Nat.lt_or_ge a s.d

/-- Settles O36: each clause is the memory frame of a command at the number of bytes it touches, which is 0 for the
commands that store nothing and for `ENC` and `DEC` on no context. -/
theorem memoryFrame : Obligations.MemoryFrame := by
  refine ⟨fun i s t h hi => ?_, fun cid c i s t hi h hc a ha => ?_, fun cid i s t hi h hc => ?_,
    fun sid s t h a ha => ?_⟩
  · exact read_of_exec_of_touched_eq_zero h (touched_eq_zero hi s)
  · refine read_outside_of_exec h ?_
    rwa [touched_block hi, slotBlockSize_eq hc]
  · exact read_of_exec_of_touched_eq_zero h ((touched_block hi s).trans (slotBlockSize_eq_zero hc))
  · exact read_outside_of_exec h ha

end Sys2Proof.Machine
end

/-! PROOFS. The encoding (`30_encoding.md`): a word decodes to a command exactly when its four fields are those of the
command, and from that the two round trips, the illegal words and the match and mask columns. -/
section

namespace Sys2Proof

open Machine

/-! ### The fields of a word -/

theorem opcOf_eq_toNat (w : Word) : opcOf w = (w.extractLsb' 0 8).toNat := by simp [opcOf]

theorem cidOf_eq_toNat (w : Word) : cidOf w = (w.extractLsb' 8 4).toNat := by
  simp [cidOf, Nat.shiftRight_eq_div_pow]

theorem sidOf_eq_toNat (w : Word) : sidOf w = (w.extractLsb' 12 4).toNat := by
  simp [sidOf, Nat.shiftRight_eq_div_pow]

theorem rsvOf_eq_toNat (w : Word) : rsvOf w = (w.extractLsb' 16 16).toNat := by
  rw [BitVec.extractLsb'_toNat, Nat.shiftRight_eq_div_pow, rsvOf, Nat.mod_eq_of_lt]
  omega

theorem cidOf_lt (w : Word) : cidOf w < 16 := Nat.mod_lt _ (by decide)

theorem sidOf_lt (w : Word) : sidOf w < 16 := Nat.mod_lt _ (by decide)

/-- The four fields make up the whole word (`30_encoding.md` R91). -/
theorem word_eq_iff_fields {v w : Word} :
    v = w ↔ rsvOf v = rsvOf w ∧ sidOf v = sidOf w ∧ cidOf v = cidOf w ∧ opcOf v = opcOf w := by
  refine ⟨fun h => by simp [h], fun ⟨hrsv, hsid, hcid, hopc⟩ => BitVec.eq_of_toNat_eq ?_⟩
  simp only [rsvOf, sidOf, cidOf, opcOf] at hrsv hsid hcid hopc
  omega

/-! ### The fields of a command -/

/-- The `CID` field of a command's word: 0 when it names no cipher slot (`30_encoding.md` R93). -/
def Instr.cidField (i : Instr) : Nat := (cidUsed i).getD 0

/-- The `SID` field of a command's word: 0 when it names no stream slot (`30_encoding.md` R94). -/
def Instr.sidField (i : Instr) : Nat := (sidUsed i).getD 0

theorem Instr.opc_lt (i : Instr) : i.opc < 256 := by cases i <;> simp [Instr.opc]

theorem Instr.wf_iff (i : Instr) : i.wf = true ↔ i.cidField < 16 ∧ i.sidField < 16 := by
  cases i <;> simp [Instr.wf, Instr.cidField, Instr.sidField, cidUsed, sidUsed, and_comm]

theorem encode_eq_commandWord (i : Instr) : encode i = commandWord i.opc i.cidField i.sidField := by
  cases i <;> rfl

/-- The word `w` is that of the command `i` by the encoding table: `RSV` is 0, `OPC` is the row's, and each index field
holds the index, or 0 where the command names no such slot (`30_encoding.md` R92 to R95, R97). -/
structure HasFields (w : Word) (i : Instr) : Prop where
  rsv : rsvOf w = 0
  opc : opcOf w = i.opc
  cid : cidOf w = i.cidField
  sid : sidOf w = i.sidField

theorem hasFields_iff {w : Word} {i : Instr} :
    HasFields w i ↔ rsvOf w = 0 ∧ opcOf w = i.opc ∧ cidOf w = i.cidField ∧ sidOf w = i.sidField :=
  ⟨fun h => ⟨h.rsv, h.opc, h.cid, h.sid⟩, fun ⟨hrsv, hopc, hcid, hsid⟩ => ⟨hrsv, hopc, hcid, hsid⟩⟩

theorem hasFields_encode {i : Instr} (h : i.wf = true) : HasFields (encode i) i := by
  obtain ⟨hc, hs⟩ := i.wf_iff.1 h
  obtain ⟨hopc, hcid, hsid, hrsv⟩ := Laws.EncodeFields.fields_commandWord i.opc_lt hc hs
  rw [encode_eq_commandWord]
  exact ⟨hrsv, hopc, hcid, hsid⟩

theorem HasFields.wf {w : Word} {i : Instr} (h : HasFields w i) : i.wf = true :=
  i.wf_iff.2 ⟨h.cid ▸ cidOf_lt w, h.sid ▸ sidOf_lt w⟩

/-- The fields of a command determine its word. -/
theorem HasFields.word_unique {v w : Word} {i : Instr} (hv : HasFields v i) (hw : HasFields w i) : v = w :=
  word_eq_iff_fields.2 ⟨hv.rsv.trans hw.rsv.symm, hv.sid.trans hw.sid.symm, hv.cid.trans hw.cid.symm,
    hv.opc.trans hw.opc.symm⟩

/-! ### What a word decodes to -/

theorem decodeCipher_eq_ok {mk : Nat → Instr} {w : Word} {i : Instr} :
    decodeCipher mk w = .ok i ↔ sidOf w = 0 ∧ mk (cidOf w) = i := by
  unfold decodeCipher; split <;> simp_all

theorem decodeStream_eq_ok {mk : Nat → Instr} {w : Word} {i : Instr} :
    decodeStream mk w = .ok i ↔ cidOf w = 0 ∧ mk (sidOf w) = i := by
  unfold decodeStream; split <;> simp_all

theorem decodeCipher_eq_error {mk : Nat → Instr} {w : Word} :
    (∃ r, decodeCipher mk w = .error r) ↔ sidOf w ≠ 0 := by
  unfold decodeCipher; split <;> simp_all

theorem decodeStream_eq_error {mk : Nat → Instr} {w : Word} :
    (∃ r, decodeStream mk w = .error r) ↔ cidOf w ≠ 0 := by
  unfold decodeStream; split <;> simp_all

theorem hasFields_of_decode {w : Word} {i : Instr} (h : decode w = .ok i) : HasFields w i := by
  unfold decode at h
  split at h
  · cases h
  next hrsv =>
  rw [not_not] at hrsv
  split at h
  case h_1 hopc | h_2 hopc | h_3 hopc | h_4 hopc | h_5 hopc | h_6 hopc | h_9 hopc =>
    obtain ⟨hsid, rfl⟩ := decodeCipher_eq_ok.1 h
    exact ⟨hrsv, hopc, rfl, hsid⟩
  case h_7 hopc => cases h; exact ⟨hrsv, hopc, rfl, rfl⟩
  case h_8 hopc | h_10 hopc =>
    obtain ⟨hcid, rfl⟩ := decodeStream_eq_ok.1 h
    exact ⟨hrsv, hopc, hcid, rfl⟩
  case h_11 => cases h

theorem decode_of_hasFields {w : Word} {i : Instr} (h : HasFields w i) : decode w = .ok i := by
  obtain ⟨hrsv, hopc, hcid, hsid⟩ := h
  unfold decode
  rw [if_neg (not_not.2 hrsv), hopc]
  cases i with
  | aeskey | deskey | tdeskey | blksize | enc | dec | cdrop => exact decodeCipher_eq_ok.2 ⟨hsid, congrArg _ hcid⟩
  | ctrnew sid cid => exact congrArg Except.ok (congrArg₂ Instr.ctrnew hsid hcid)
  | ctrxor | sdrop => exact decodeStream_eq_ok.2 ⟨hcid, congrArg _ hsid⟩

/-- `Decode(W)` is the command whose fields the word has (`30_encoding.md` R97, R98). -/
theorem decode_eq_ok_iff {w : Word} {i : Instr} : decode w = .ok i ↔ HasFields w i :=
  ⟨hasFields_of_decode, decode_of_hasFields⟩

theorem decode_encode {i : Instr} (h : i.wf = true) : decode (encode i) = .ok i :=
  decode_of_hasFields (hasFields_encode h)

/-- Settles O1: the word of a well-formed command has the command's fields. -/
theorem decodeOfEncodeIsIdentity : Obligations.DecodeOfEncodeIsIdentity := fun _ h => decode_encode h

/-- Settles O2: the fields of a word that decodes fit the command, and no second word has them. -/
theorem encodeOfDecodeIsIdentity : Obligations.EncodeOfDecodeIsIdentity := by
  intro w i h
  have hw : HasFields w i := hasFields_of_decode h
  exact ⟨hw.wf, (hasFields_encode hw.wf).word_unique hw⟩

/-- Settles O5: ten evaluations of the decoder. -/
theorem writtenOutWordsDecode : Obligations.WrittenOutWordsDecode := by
  refine ⟨?_, ?_, ?_, ?_, ?_, ?_, ?_, ?_, ?_, ?_⟩ <;> rfl

/-! ### Match and mask -/

theorem opcOf_and (v w : Word) : opcOf (v &&& w) = opcOf v &&& opcOf w := by
  simp only [opcOf_eq_toNat, BitVec.extractLsb'_and, BitVec.toNat_and]

theorem cidOf_and (v w : Word) : cidOf (v &&& w) = cidOf v &&& cidOf w := by
  simp only [cidOf_eq_toNat, BitVec.extractLsb'_and, BitVec.toNat_and]

theorem sidOf_and (v w : Word) : sidOf (v &&& w) = sidOf v &&& sidOf w := by
  simp only [sidOf_eq_toNat, BitVec.extractLsb'_and, BitVec.toNat_and]

theorem rsvOf_and (v w : Word) : rsvOf (v &&& w) = rsvOf v &&& rsvOf w := by
  simp only [rsvOf_eq_toNat, BitVec.extractLsb'_and, BitVec.toNat_and]

/-- The mask column of `30_encoding.md` R97: all bits but those of the index fields the command uses. -/
def Instr.mask (i : Instr) : Word :=
  match cidUsed i, sidUsed i with
  | none, none => 0xFFFFFFFF
  | some _, none => 0xFFFFF0FF
  | none, some _ => 0xFFFF0FFF
  | some _, some _ => 0xFFFF00FF

/-- A mask tests `RSV` and `OPC` whole, and of the index fields the bits it holds. -/
theorem and_mask_eq_iff {w mask : Word} {opc : Nat} (hopc : opc < 256) (hm : opcOf mask = 2 ^ 8 - 1)
    (hr : rsvOf mask = 2 ^ 16 - 1) :
    w &&& mask = BitVec.ofNat 32 opc ↔
      rsvOf w = 0 ∧ sidOf w &&& sidOf mask = 0 ∧ cidOf w &&& cidOf mask = 0 ∧ opcOf w = opc := by
  obtain ⟨ho, hc, hs, hv⟩ := Laws.EncodeFields.fields_commandWord (cid := 0) (sid := 0) hopc (by decide) (by decide)
  have hword : BitVec.ofNat 32 opc = commandWord opc 0 0 := rfl
  have hopcw : opcOf w % 2 ^ 8 = opcOf w := Nat.mod_mod _ _
  have hrsvw : rsvOf w % 2 ^ 16 = rsvOf w := Nat.mod_eq_of_lt (by unfold rsvOf; omega)
  rw [hword, word_eq_iff_fields, rsvOf_and, sidOf_and, cidOf_and, opcOf_and, ho, hc, hs, hv, hm, hr,
    Nat.and_two_pow_sub_one_eq_mod, Nat.and_two_pow_sub_one_eq_mod, hopcw, hrsvw]

theorem fields_mask (i : Instr) : opcOf i.mask = 2 ^ 8 - 1 ∧ rsvOf i.mask = 2 ^ 16 - 1 ∧
    (cidOf i.mask = if (cidUsed i).isSome then 0 else 15) ∧ sidOf i.mask = if (sidUsed i).isSome then 0 else 15 := by
  unfold Instr.mask
  split <;> simp [*, opcOf, rsvOf, cidOf, sidOf]

/-- An index field the mask tests is 0, one it leaves out holds the index. -/
theorem index_eq_getD_iff {used : Option Nat} {n : Nat} (hn : n < 16) :
    n = used.getD 0 ↔ n &&& (if used.isSome then 0 else 15) = 0 ∧ ∀ k, used = some k → k = n := by
  cases used with
  | none =>
    have hmask : n &&& 15 = n := by rw [Nat.and_two_pow_sub_one_eq_mod n 4, Nat.mod_eq_of_lt hn]
    simp [hmask]
  | some k => simp [eq_comm]

/-- The row of `30_encoding.md` R97: match and mask, and each index the command uses is that of the word. -/
theorem decode_eq_ok_iff_mask {w : Word} {i : Instr} :
    decode w = .ok i ↔ w &&& i.mask = BitVec.ofNat 32 i.opc ∧
      (∀ sid, sidUsed i = some sid → sid = sidOf w) ∧ ∀ cid, cidUsed i = some cid → cid = cidOf w := by
  have hcid : cidOf w = i.cidField ↔ _ := index_eq_getD_iff (cidOf_lt w)
  have hsid : sidOf w = i.sidField ↔ _ := index_eq_getD_iff (sidOf_lt w)
  obtain ⟨mopc, mrsv, mcid, msid⟩ := fields_mask i
  rw [decode_eq_ok_iff, hasFields_iff, hcid, hsid, and_mask_eq_iff i.opc_lt mopc mrsv, mcid, msid]
  tauto

/-- Settles O4: each row is the row of its command, with the fields written as bits of the word. -/
theorem commandMatchMaskRows : Obligations.CommandMatchMaskRows := by
  intro w cid sid
  simp only [decode_eq_ok_iff_mask, cidOf_eq_toNat, sidOf_eq_toNat]
  simp [Instr.mask, Instr.opc, cidUsed, sidUsed]

/-! ### The illegal words -/

/-- The causes (a) to (d) of `30_encoding.md` R99. -/
theorem decode_eq_error_iff (w : Word) :
    (∃ r, decode w = .error r) ↔ (opcOf w = 0 ∨ 0x0B ≤ opcOf w) ∨ rsvOf w ≠ 0 ∨
      (opcOf w ∈ [1, 2, 3, 4, 5, 6, 9] ∧ sidOf w ≠ 0) ∨ (opcOf w ∈ [8, 10] ∧ cidOf w ≠ 0) := by
  unfold decode
  split
  · next hrsv => simp [hrsv]
  next hrsv =>
  split
  case h_1 hopc | h_2 hopc | h_3 hopc | h_4 hopc | h_5 hopc | h_6 hopc | h_9 hopc =>
    simp [decodeCipher_eq_error, hopc, hrsv]
  case h_7 hopc => simp [hopc, hrsv]
  case h_8 hopc | h_10 hopc => simp [decodeStream_eq_error, hopc, hrsv]
  case h_11 =>
    have hrange : opcOf w = 0 ∨ 0x0B ≤ opcOf w := by
      simp only [imp_false] at *
      omega
    simp [hrange]

/-- The commands that name slot `n`, as their stream slot if they have one, else as their cipher slot. -/
def commandsNaming (n : Nat) : List Instr :=
  [.aeskey n, .deskey n, .tdeskey n, .blksize n, .enc n, .dec n, .cdrop n, .ctrxor n, .sdrop n] ++
    (List.range 16).map (.ctrnew n)

/-- The commands a word can hold. -/
def wfCommands : List Instr := (List.range 16).flatMap commandsNaming

theorem mem_wfCommands {i : Instr} : i ∈ wfCommands ↔ i.wf = true := by
  cases i <;> simp [wfCommands, commandsNaming, Instr.wf]

theorem length_wfCommands : wfCommands.length = 7 * 16 + 256 + 2 * 16 := by
  simp [wfCommands, commandsNaming]

theorem slot_of_mem_commandsNaming {n : Nat} {i : Instr} (h : i ∈ commandsNaming n) :
    (sidUsed i).or (cidUsed i) = some n := by
  cases i <;> simp_all [commandsNaming, sidUsed, cidUsed]

theorem nodup_wfCommands : wfCommands.Nodup := by
  refine List.nodup_flatMap.2 ⟨fun n _ => ?_, List.nodup_range.imp fun {m n} hne i hm hn => hne ?_⟩
  · have hnew : ((List.range 16).map (Instr.ctrnew n)).Nodup :=
      List.nodup_range.map fun _ _ h => (Instr.ctrnew.inj h).2
    simp [commandsNaming, hnew]
  · exact Option.some.inj ((slot_of_mem_commandsNaming hm).symm.trans (slot_of_mem_commandsNaming hn))

/-- The legal words are the words of the well-formed commands. -/
theorem mem_map_encode_wfCommands {w : Word} : w ∈ wfCommands.map encode ↔ ∃ i, decode w = .ok i := by
  simp only [List.mem_map, mem_wfCommands]
  constructor
  · rintro ⟨i, hi, rfl⟩
    exact ⟨i, decode_encode hi⟩
  · rintro ⟨i, hi⟩
    exact ⟨i, encodeOfDecodeIsIdentity w i hi⟩

theorem nodup_map_encode_wfCommands : (wfCommands.map encode).Nodup := by
  refine nodup_wfCommands.map_on fun i hi j hj he => ?_
  have hij : (.ok i : Except Illegal Instr) = .ok j := by
    rw [← decode_encode (mem_wfCommands.1 hi), he, decode_encode (mem_wfCommands.1 hj)]
  exact Except.ok.inj hij

end Sys2Proof
end

/-! PROOFS. Issuing a command word (`30_encoding.md` R90, R99) and the lines of host programs as steps (R102, R103). -/
section

namespace Sys2Proof.Machine

/-! ### Issuing a word -/

theorem issue_of_decode {s : State} {w : Word} {i : Instr} (hf : s.status.fatal = false) (h : decode w = .ok i) :
    issue w s = exec i s := by
  simp [issue, hf, h]

theorem issue_of_illegal {s : State} {w : Word} {r : Illegal} (hf : s.status.fatal = false) (h : decode w = .error r) :
    issue w s = .next (s.fatalEnd .invalidOpcode) := by
  rw [← raise_eq_fatalEnd rfl]
  simp [issue, hf, h]

/-- Settles O3: the causes by `decode_eq_error_iff`, and the legal words are counted by the commands they hold. -/
theorem illegalWordsExactly : Obligations.IllegalWordsExactly := by
  have hlen : (wfCommands.map encode).length = 7 * 16 + 256 + 2 * 16 := by rw [List.length_map, length_wfCommands]
  refine ⟨fun w => ?_, fun w r s h hf => issue_of_illegal hf h, ⟨_, rfl⟩, ⟨_, rfl⟩,
    wfCommands.map encode, nodup_map_encode_wfCommands, hlen, hlen, fun w => mem_map_encode_wfCommands⟩
  have hbits {n : Nat} (v : BitVec n) : v ≠ 0 ↔ v.toNat ≠ 0 := (BitVec.toNat_inj (y := 0)).not.symm
  rw [decode_eq_error_iff, opcOf_eq_toNat, cidOf_eq_toNat, sidOf_eq_toNat, rsvOf_eq_toNat, hbits, hbits, hbits]

/-! ### Lines of host programs -/

theorem step_asmWr {s : State} {r : Reg} {v : Word} {rest : List HostAccess} (h : s.inputs = asmWr r v ++ rest) :
    step s = writeReg r v { s with inputs := rest } :=
  step_regWrite h

theorem run_succ_of_step {M : Host.Core} {k : Nat} {s t : M.State} (h : M.step s = .next t) :
    M.run (k + 1) s = M.run k t := by
  rw [Host.Core.run, h]

/-- Two register writes that both have a next state are two steps. -/
theorem run_two_asmWr {s t u : State} {r r' : Reg} {v v' : Word} {rest : List HostAccess}
    (h : s.inputs = asmWr r v ++ asmWr r' v' ++ rest)
    (ht : writeReg r v { s with inputs := asmWr r' v' ++ rest } = .next t) (hti : t.inputs = asmWr r' v' ++ rest)
    (hu : writeReg r' v' { t with inputs := rest } = .next u) : core.run 2 s = .next u := by
  have h1 : core.step s = .next t := (step_asmWr (by rw [h, List.append_assoc])).trans ht
  have h2 : core.step t = .next u := (step_asmWr hti).trans hu
  exact (run_succ_of_step h1).trans (run_succ_of_step h2)

/-- Settles O6: each line is one or two register writes, and a write to `CMD` issues its word. -/
theorem pseudoInstructionsExpand : Obligations.PseudoInstructionsExpand := by
  refine ⟨fun s a n rest => ⟨fun h => ?_, fun h => ?_, fun h => ?_, fun h => ?_⟩, fun s i rest h => step_asmWr h,
    rfl, rfl, rfl⟩
  all_goals exact run_two_asmWr h rfl rfl rfl

theorem decodeTableWord_eq_some {nbits w : Nat} {i : Instr} (h : decodeTableWord nbits w = some i) :
    decode (tableWord nbits w) = .ok i := by
  unfold decodeTableWord at h
  split at h
  · cases h
  · split at h
    · next hd => cases h; exact hd
    · cases h

theorem step_cmd {s : State} {w : Word} {i : Instr} {rest : List HostAccess}
    (h : s.inputs = .regWrite Reg.cmd.offset .w32 w :: rest) (hf : s.status.fatal = false) (hd : decode w = .ok i) :
    step s = exec i { s with inputs := rest } :=
  (step_regWrite h).trans (issue_of_decode hf hd)

/-- Settles O7: a step on a `CMD` write issues the word; `withFetchWord` puts such a write in front of the inputs. -/
theorem stepRunsDecodedCommand : Obligations.StepRunsDecodedCommand :=
  ⟨fun _ _ _ _ h hf hd => step_cmd h hf hd,
    fun s nbits w _ hf hd => step_cmd (s := s.withFetchWord nbits w) rfl hf (decodeTableWord_eq_some hd)⟩

end Sys2Proof.Machine
end

/-! PROOFS. The `ARG` registers a command does not read (`30_encoding.md` R96): changing them before the command or after
it is the same. -/
section

namespace Sys2Proof.Machine

/-- The host's change of `ARG_DST`, `ARG_DLEN`, `ARG_SRC` and `ARG_SLEN`; `id` leaves a register as it is. -/
def mapArgs (dst dlen src slen : Word → Word) (s : State) : State :=
  { s with argDst := dst s.argDst, argDlen := dlen s.argDlen, argSrc := src s.argSrc, argSlen := slen s.argSlen }

/-- The outcome `o` with its next state changed by `f`. -/
def mapNext (f : State → State) (o : Host.Outcome State Fault Refusal) : Host.Outcome State Fault Refusal :=
  match o with
  | .next t => .next (f t)
  | .fault r => .fault r
  | .refused r => .refused r

/-- The command `i` gives the same result whether `f` changes the registers before it or after it. -/
def Ignores (f : State → State) (i : Instr) : Prop := ∀ s, exec i (f s) = mapNext f (exec i s)

theorem Ignores.next {f : State → State} {i : Instr} (h : Ignores f i) {s t : State} (he : exec i s = .next t) :
    exec i (f s) = .next (f t) := by
  rw [h s, he]
  rfl

section

variable {dst dlen src slen : Word → Word}

theorem ignores_blksize (cid : Nat) : Ignores (mapArgs dst dlen src slen) (.blksize cid) := by
  intro s
  have hslot : (mapArgs dst dlen src slen s).cipher? cid = s.cipher? cid := rfl
  simp only [exec, execBlksize, hslot]
  rcases s.cipher? cid with _ | _ | c <;> rfl

theorem ignores_cdrop (cid : Nat) : Ignores (mapArgs dst dlen src slen) (.cdrop cid) := by
  intro s
  simp only [exec, execCdrop, apply_ite (mapNext _)]
  rfl

theorem ignores_sdrop (sid : Nat) : Ignores (mapArgs dst dlen src slen) (.sdrop sid) := by
  intro s
  simp only [exec, execSdrop, apply_ite (mapNext _)]
  rfl

/-- A key command reads the source descriptor alone. -/
theorem keyCommand_mapArgs (legal short : Nat → Bool) (build : List Byte → Cipher) (cid : Nat) (s : State) :
    keyCommand legal short build cid (mapArgs dst dlen id id s) =
      mapNext (mapArgs dst dlen id id) (keyCommand legal short build cid s) := by
  simp only [keyCommand, apply_ite (mapNext _)]
  rfl

theorem ignores_keyCommand {i : Instr} {cid : Nat} (hi : i = .aeskey cid ∨ i = .deskey cid ∨ i = .tdeskey cid) :
    Ignores (mapArgs dst dlen id id) i := by
  intro s
  rcases hi with rfl | rfl | rfl <;> simp only [exec, execAeskey, execDeskey, execTdeskey, keyCommand_mapArgs]

theorem ignores_ctrnew (sid cid : Nat) : Ignores (mapArgs dst dlen id id) (.ctrnew sid cid) := by
  intro s
  have hslot : (mapArgs dst dlen id id s).cipher? cid = s.cipher? cid := rfl
  simp only [exec, execCtrnew, hslot]
  rcases s.cipher? cid with _ | _ | c <;> simp only [apply_ite (mapNext _)] <;> rfl

end

/-- Settles O37: the commands named ignore the change of the registers (`Ignores`). -/
theorem unreadArgRegistersIgnored : Obligations.UnreadArgRegistersIgnored := by
  intro s t i dst dlen src slen h
  refine ⟨fun cid sid hi => ?_, fun cid sid hi => ?_⟩
  · have hignores : Ignores (mapArgs (fun _ => dst) (fun _ => dlen) id id) i := by
      simp only [List.mem_cons, List.not_mem_nil, or_false] at hi
      rcases hi with rfl | rfl | rfl | rfl | rfl | rfl | rfl
      · exact ignores_keyCommand (.inl rfl)
      · exact ignores_keyCommand (.inr (.inl rfl))
      · exact ignores_keyCommand (.inr (.inr rfl))
      · exact ignores_ctrnew sid cid
      · exact ignores_blksize cid
      · exact ignores_cdrop cid
      · exact ignores_sdrop sid
    exact hignores.next h
  · have hignores : Ignores (mapArgs id id (fun _ => src) (fun _ => slen)) i := by
      simp only [List.mem_cons, List.not_mem_nil, or_false] at hi
      rcases hi with rfl | rfl | rfl
      · exact ignores_blksize cid
      · exact ignores_cdrop cid
      · exact ignores_sdrop sid
    exact hignores.next h

end Sys2Proof.Machine
end

/-! PROOFS. The field laws of the GF(2^8) multiplier (`40_gf256.md` R124). They rest on one idea: the shift-and-add
steps use the byte `a` only through exclusive or and `xtime`, so every map that respects these two commutes with the
multiplication (`XLinear.map_gmul`), and multiplication by a fixed byte is itself such a map. -/
section

namespace Sys2Proof.Machine

/-- The shift is additive, and the polynomial taken off is too: it is taken off once where one of the two bytes has bit
7, and twice, which is not at all, where both have (`40_gf256.md` R121, R122). -/
theorem xtime_xor (a b : Byte) : xtime (a ^^^ b) = xtime a ^^^ xtime b := by
  rw [xtime, BitVec.msb_xor, BitVec.shiftLeft_xor_distrib, xtime, xtime]
  cases a.msb <;> cases b.msb
  case true.true =>
    calc a <<< 1 ^^^ b <<< 1 = a <<< 1 ^^^ b <<< 1 ^^^ (0x1B ^^^ 0x1B) := by rw [BitVec.xor_self, BitVec.xor_zero]
      _ = a <<< 1 ^^^ 0x1B ^^^ (b <<< 1 ^^^ 0x1B) := by ac_rfl
  case true.false =>
    show a <<< 1 ^^^ b <<< 1 ^^^ 0x1B = a <<< 1 ^^^ 0x1B ^^^ b <<< 1
    ac_rfl
  case false.true => exact BitVec.xor_assoc _ _ _
  case false.false => rfl

/-- A map of bytes that is linear over the polynomials in `x`: it respects the field's addition and the multiplication
by `x`. -/
structure XLinear (f : Byte → Byte) : Prop where
  map_xor : ∀ a b, f (a ^^^ b) = f a ^^^ f b
  map_xtime : ∀ a, f (xtime a) = xtime (f a)

theorem xLinear_xtime : XLinear xtime where
  map_xor := xtime_xor
  map_xtime _ := rfl

namespace XLinear

variable {f : Byte → Byte}

theorem map_zero (h : XLinear f) : f 0 = 0 := by
  have hzero : f (0 ^^^ 0) = f 0 ^^^ f 0 := h.map_xor 0 0
  simpa using hzero

theorem map_gmulSteps (h : XLinear f) (k : Nat) (a b p : Byte) :
    f (gmulSteps k a b p) = gmulSteps k (f a) b (f p) := by
  induction k generalizing a b p with
  | zero => rfl
  | succ k ih => rw [gmulSteps, gmulSteps, ih, h.map_xtime, apply_ite f, h.map_xor]

theorem map_gmul (h : XLinear f) (a b : Byte) : f (gmul a b) = gmul (f a) b := by
  rw [gmul, h.map_gmulSteps, h.map_zero, gmul]

end XLinear

theorem gmulSteps_xor_left (k : Nat) (a a' b p p' : Byte) :
    gmulSteps k (a ^^^ a') b (p ^^^ p') = gmulSteps k a b p ^^^ gmulSteps k a' b p' := by
  induction k generalizing a a' b p p' with
  | zero => rfl
  | succ k ih =>
    have hsum : (if b.getLsbD 0 then p ^^^ p' ^^^ (a ^^^ a') else p ^^^ p') =
        (if b.getLsbD 0 then p ^^^ a else p) ^^^ (if b.getLsbD 0 then p' ^^^ a' else p') := by
      split
      · ac_rfl
      · rfl
    rw [gmulSteps, gmulSteps, gmulSteps, hsum, xtime_xor, ih]

theorem gmul_xor_left (a a' b : Byte) : gmul (a ^^^ a') b = gmul a b ^^^ gmul a' b := gmulSteps_xor_left 8 a a' b 0 0

theorem gmul_xtime_left (a b : Byte) : gmul (xtime a) b = xtime (gmul a b) := (xLinear_xtime.map_gmul a b).symm

theorem xLinear_gmul_left (b : Byte) : XLinear (gmul · b) where
  map_xor a a' := gmul_xor_left a a' b
  map_xtime a := gmul_xtime_left a b

/-- By evaluation: eight steps put together the eight bits of a byte. -/
@[simp] theorem gmul_one_left : ∀ a : Byte, gmul 1 a = a := by decide +kernel

/-- Both sides are the linear map `gmul · b` at `gmul 1 a`. -/
theorem gmul_comm (a b : Byte) : gmul a b = gmul b a :=
  calc gmul a b = gmul (gmul 1 a) b := by rw [gmul_one_left]
    _ = gmul (gmul 1 b) a := (xLinear_gmul_left b).map_gmul 1 a
    _ = gmul b a := by rw [gmul_one_left]

theorem xLinear_gmul_right (a : Byte) : XLinear (gmul a) where
  map_xor b c := by simp only [gmul_comm a, gmul_xor_left]
  map_xtime b := by simp only [gmul_comm a, gmul_xtime_left]

theorem gmul_assoc (a b c : Byte) : gmul a (gmul b c) = gmul (gmul a b) c := (xLinear_gmul_right a).map_gmul b c

theorem gmul_xor_right (a b c : Byte) : gmul a (b ^^^ c) = gmul a b ^^^ gmul a c := (xLinear_gmul_right a).map_xor b c

@[simp] theorem gmul_zero_right (a : Byte) : gmul a 0 = 0 := (xLinear_gmul_right a).map_zero

@[simp] theorem gmul_zero_left (a : Byte) : gmul 0 a = 0 := (xLinear_gmul_left a).map_zero

@[simp] theorem gmul_one_right (a : Byte) : gmul a 1 = a := by rw [gmul_comm, gmul_one_left]

theorem gmul_two_right (a : Byte) : gmul a 2 = xtime a :=
  calc gmul a (xtime 1) = xtime (gmul a 1) := (xLinear_gmul_right a).map_xtime 1
    _ = xtime a := by rw [gmul_one_right]

/-- `GInv(a)` of `40_gf256.md` R124, read off the S-box: `41_aes_keyschedule.md` R140 makes the S-box the affine map of
the inverse, and this is that affine map undone. -/
def ginv (a : Byte) : Byte :=
  (sbox a).rotateLeft 1 ^^^ (sbox a).rotateLeft 3 ^^^ (sbox a).rotateLeft 6 ^^^ 0x05

/-- By evaluation: one product for each non-zero byte. -/
theorem gmul_ginv : ∀ a : Byte, a ≠ 0 → gmul a (ginv a) = 1 := by decide +kernel

theorem ne_zero_of_gmul_eq_one {a b : Byte} (h : gmul a b = 1) : b ≠ 0 := by
  rintro rfl
  rw [gmul_zero_right] at h
  exact absurd h (by decide)

theorem eq_of_gmul_eq_one {a b b' : Byte} (h : gmul a b = 1) (h' : gmul a b' = 1) : b' = b :=
  calc b' = gmul (gmul a b) b' := by rw [h, gmul_one_left]
    _ = gmul b (gmul a b') := by rw [gmul_comm a b, gmul_assoc]
    _ = b := by rw [h', gmul_one_right]

/-- Settles O39: the laws of the commutative ring from `XLinear.map_gmul`, the inverse by `gmul_ginv`. -/
theorem gmulFieldLaws : Obligations.GmulFieldLaws := by
  refine ⟨fun a => ?_, gmul_comm, gmul_assoc, gmul_xor_right, fun a ha => ?_⟩
  · exact ⟨gmul_zero_right a, gmul_zero_left a, gmul_one_right a, gmul_one_left a, gmul_two_right a⟩
  · have hinv : gmul a (ginv a) = 1 := gmul_ginv a ha
    exact ⟨ginv a, ne_zero_of_gmul_eq_one hinv, hinv, fun b' _ h' => eq_of_gmul_eq_one hinv h'⟩

end Sys2Proof.Machine
end

/-! PROOFS. The AES tables (`41_aes_keyschedule.md` R140 to R143): the S-box is the affine map of the field inverse
`ginv`, whose uniqueness the field laws give; what is left is evaluated, one case for each byte. -/
section

namespace Sys2Proof.Machine

/-- The affine map of `41_aes_keyschedule.md` R140. -/
def sboxAffine (b : Byte) : Byte :=
  b ^^^ b.rotateLeft 1 ^^^ b.rotateLeft 2 ^^^ b.rotateLeft 3 ^^^ b.rotateLeft 4 ^^^ 0x63

/-- By evaluation, once for each byte: `ginv` is `sboxAffine` undone, also at 0, where `ginv` is 0. -/
theorem sbox_eq_sboxAffine_ginv : ∀ a : Byte, sbox a = sboxAffine (ginv a) := by decide +kernel

theorem ginv_zero : ginv 0 = 0 := by decide

/-- Every byte that qualifies as the inverse of `a`, where 0 counts as its own, is `ginv a`. -/
theorem eq_ginv {a b : Byte} (h : (a = 0 ∧ b = 0) ∨ (a ≠ 0 ∧ gmul a b = 1)) : b = ginv a := by
  rcases h with ⟨rfl, rfl⟩ | ⟨ha, hab⟩
  · exact ginv_zero.symm
  · exact eq_of_gmul_eq_one (gmul_ginv a ha) hab

/-- By evaluation, once for each byte. -/
theorem sbox_ne_self : ∀ a : Byte, sbox a ≠ a := by decide +kernel

/-- By evaluation, once for each byte. -/
@[simp] theorem invSbox_sbox : ∀ a : Byte, invSbox (sbox a) = a := by decide +kernel

/-- By evaluation, once for each byte. -/
@[simp] theorem sbox_invSbox : ∀ a : Byte, sbox (invSbox a) = a := by decide +kernel

/-- By evaluation: nine doublings (`41_aes_keyschedule.md` R143). -/
theorem rcon_succ : ∀ j < 10, 1 ≤ j → rcon (j + 1) = xtime (rcon j) := by decide

/-- Settles O40: an inverse of `a` is `ginv a`, and the tables are evaluated at each byte. -/
theorem aesTablesMeetTheirDefinitions : Obligations.AesTablesMeetTheirDefinitions := by
  refine ⟨fun a b hab => ?_, fun a => ⟨sbox_ne_self a, invSbox_sbox a, sbox_invSbox a⟩, rfl,
    fun j h1 h10 => rcon_succ j h10 h1⟩
  rw [eq_ginv hab]
  exact sbox_eq_sboxAffine_ginv a

end Sys2Proof.Machine
end

/-! PROOFS. `MixWord` and `InvMixWord` (`41_aes_keyschedule.md` R146, `42_aes_rounds.md` R194). Both multiply a word, as
a polynomial of degree 3 over GF(2^8), by a fixed one modulo `x^4 + 1`; the laws are those of this product. -/
section

namespace Sys2Proof.Machine

/-- The product of two words as polynomials `byte_0 + byte_1 x + byte_2 x^2 + byte_3 x^3` modulo `x^4 + 1`. -/
def wordMul (w v : Word) : Word :=
  let term (i j : Nat) : Byte := gmul (byteOf w i) (byteOf v j)
  be32 (term 0 0 ^^^ term 1 3 ^^^ term 2 2 ^^^ term 3 1)
    (term 0 1 ^^^ term 1 0 ^^^ term 2 3 ^^^ term 3 2)
    (term 0 2 ^^^ term 1 1 ^^^ term 2 0 ^^^ term 3 3)
    (term 0 3 ^^^ term 1 2 ^^^ term 2 1 ^^^ term 3 0)

/-- The multiplier of `MixWord`: `2 + x + x^2 + 3 x^3`. -/
def mixPoly : Word := be32 2 1 1 3

/-- The multiplier of `InvMixWord`: `14 + 9 x + 13 x^2 + 11 x^3`. -/
def invMixPoly : Word := be32 14 9 13 11

theorem wordMul_be32 (w : Word) (b0 b1 b2 b3 : Byte) :
    wordMul w (be32 b0 b1 b2 b3) =
      be32 (gmul (byteOf w 0) b0 ^^^ gmul (byteOf w 1) b3 ^^^ gmul (byteOf w 2) b2 ^^^ gmul (byteOf w 3) b1)
        (gmul (byteOf w 0) b1 ^^^ gmul (byteOf w 1) b0 ^^^ gmul (byteOf w 2) b3 ^^^ gmul (byteOf w 3) b2)
        (gmul (byteOf w 0) b2 ^^^ gmul (byteOf w 1) b1 ^^^ gmul (byteOf w 2) b0 ^^^ gmul (byteOf w 3) b3)
        (gmul (byteOf w 0) b3 ^^^ gmul (byteOf w 1) b2 ^^^ gmul (byteOf w 2) b1 ^^^ gmul (byteOf w 3) b0) := by
  simp only [wordMul, byteOf_be32_0, byteOf_be32_1, byteOf_be32_2, byteOf_be32_3]

theorem mixWord_eq_wordMul (w : Word) : mixWord w = wordMul w mixPoly := by
  simp only [mixWord, mixPoly, wordMul_be32, gmul_one_right]

theorem invMixWord_eq_wordMul (w : Word) : invMixWord w = wordMul w invMixPoly := (wordMul_be32 w 14 9 13 11).symm

theorem wordMul_xor_left (v w u : Word) : wordMul (v ^^^ w) u = wordMul v u ^^^ wordMul w u := by
  simp only [wordMul, be32_xor, byteOf_xor, gmul_xor_left]
  congr 1 <;> ac_rfl

/-- Each byte of either side is the sum of the same sixteen products of three bytes. -/
theorem wordMul_assoc (u v w : Word) : wordMul (wordMul u v) w = wordMul u (wordMul v w) := by
  apply word_ext <;>
    simp only [wordMul, byteOf_be32_0, byteOf_be32_1, byteOf_be32_2, byteOf_be32_3, gmul_xor_left, gmul_xor_right,
      gmul_assoc] <;>
    ac_rfl

theorem wordMul_one (w : Word) : wordMul w (be32 1 0 0 0) = w := by
  simp only [wordMul_be32, gmul_one_right, gmul_zero_right]
  simp

/-- A word of four equal bytes times `v` has the byte times the sum of the coefficients of `v` in each place. -/
theorem wordMul_of_equal_bytes (b : Byte) {v : Word}
    (h : byteOf v 0 ^^^ byteOf v 1 ^^^ byteOf v 2 ^^^ byteOf v 3 = 1) : wordMul (be32 b b b b) v = be32 b b b b := by
  have hsum : gmul b (byteOf v 0) ^^^ gmul b (byteOf v 1) ^^^ gmul b (byteOf v 2) ^^^ gmul b (byteOf v 3) = b := by
    rw [← gmul_xor_right, ← gmul_xor_right, ← gmul_xor_right, h, gmul_one_right]
  simp only [wordMul, byteOf_be32_0, byteOf_be32_1, byteOf_be32_2, byteOf_be32_3]
  congr 1 <;> exact .trans (by ac_rfl) hsum

theorem mixPoly_mul_invMixPoly : wordMul mixPoly invMixPoly = be32 1 0 0 0 := by decide

theorem invMixPoly_mul_mixPoly : wordMul invMixPoly mixPoly = be32 1 0 0 0 := by decide

@[simp] theorem invMixWord_mixWord (w : Word) : invMixWord (mixWord w) = w := by
  rw [invMixWord_eq_wordMul, mixWord_eq_wordMul, wordMul_assoc, mixPoly_mul_invMixPoly, wordMul_one]

@[simp] theorem mixWord_invMixWord (w : Word) : mixWord (invMixWord w) = w := by
  rw [invMixWord_eq_wordMul, mixWord_eq_wordMul, wordMul_assoc, invMixPoly_mul_mixPoly, wordMul_one]

theorem mixWord_xor (v w : Word) : mixWord (v ^^^ w) = mixWord v ^^^ mixWord w := by
  simp only [mixWord_eq_wordMul, wordMul_xor_left]

theorem invMixWord_xor (v w : Word) : invMixWord (v ^^^ w) = invMixWord v ^^^ invMixWord w := by
  simp only [invMixWord_eq_wordMul, wordMul_xor_left]

theorem mixWord_of_equal_bytes (b : Byte) : mixWord (be32 b b b b) = be32 b b b b := by
  rw [mixWord_eq_wordMul]
  exact wordMul_of_equal_bytes b (by decide)

theorem invMixWord_of_equal_bytes (b : Byte) : invMixWord (be32 b b b b) = be32 b b b b := by
  rw [invMixWord_eq_wordMul]
  exact wordMul_of_equal_bytes b (by decide)

/-- Settles O41: the laws of `wordMul` at the two multipliers, whose product is 1. -/
theorem mixWordLaws : Obligations.MixWordLaws :=
  ⟨fun w => ⟨invMixWord_mixWord w, mixWord_invMixWord w⟩, fun v w => ⟨mixWord_xor v w, invMixWord_xor v w⟩,
    fun b => ⟨mixWord_of_equal_bytes b, invMixWord_of_equal_bytes b⟩⟩

end Sys2Proof.Machine
end

/-! PROOFS. The AES key schedules word by word (`41_aes_keyschedule.md` R147 to R152). -/
section

namespace Sys2Proof.Machine

/-! ### Words of a list -/

theorem schedWord_append_left {w : List Word} (v : List Word) {i : Nat} (h : i < w.length) :
    schedWord (w ++ v) i = schedWord w i := List.getD_append w v 0 i h

theorem schedWord_append_singleton (w : List Word) (x : Word) : schedWord (w ++ [x]) w.length = x := by
  simp [schedWord]

theorem schedWord_map_range {n i : Nat} (f : Nat → Word) (h : i < n) : schedWord ((List.range n).map f) i = f i := by
  simp [schedWord, h]

/-! ### What a word is made from -/

/-- `Rcon[j] << 24` of `41_aes_keyschedule.md` R150. -/
theorem setWidth_shiftLeft_eq_be32 (b : Byte) : b.setWidth 32 <<< 24 = be32 b 0 0 0 := by
  ext i hi
  simp [be32]
  grind

theorem expandTemp_of_mod_eq_zero {nk i : Nat} (h : i % nk = 0) (prev : Word) :
    expandTemp nk i prev = subWord (prev.rotateLeft 8) ^^^ be32 (rcon (i / nk)) 0 0 0 := by
  rw [expandTemp, if_pos h, setWidth_shiftLeft_eq_be32, rotWord]

theorem expandTemp_of_mod_eq_four {i : Nat} (h : i % 8 = 4) (prev : Word) : expandTemp 8 i prev = subWord prev := by
  rw [expandTemp, if_neg (by omega), if_pos ⟨rfl, h⟩]

theorem expandTemp_of_neither {nk i : Nat} (h0 : i % nk ≠ 0) (h4 : ¬ (nk = 8 ∧ i % nk = 4)) (prev : Word) :
    expandTemp nk i prev = prev := by
  rw [expandTemp, if_neg h0, if_neg h4]

/-! ### The loop of `ExpandKey` -/

@[simp] theorem length_expandLoop (nk n i : Nat) (w : List Word) : (expandLoop nk n i w).length = w.length + n := by
  induction n generalizing i w with
  | zero => rfl
  | succ n ih => rw [expandLoop, ih, List.length_append, List.length_singleton]; omega

/-- The loop appends: the words already made stay. -/
theorem schedWord_expandLoop_of_lt (nk n i : Nat) {w : List Word} {k : Nat} (h : k < w.length) :
    schedWord (expandLoop nk n i w) k = schedWord w k := by
  induction n generalizing i w with
  | zero => rfl
  | succ n ih => rw [expandLoop, ih _ (by rw [List.length_append]; omega), schedWord_append_left _ h]

/-- The recurrence for every word the loop makes, `w` being the words made before it. -/
theorem schedWord_expandLoop {nk : Nat} (hnk : 0 < nk) (n : Nat) {w : List Word} (hw : nk ≤ w.length) {k : Nat}
    (hk : w.length ≤ k) (hkn : k < w.length + n) :
    schedWord (expandLoop nk n w.length w) k =
      schedWord (expandLoop nk n w.length w) (k - nk) ^^^
        expandTemp nk k (schedWord (expandLoop nk n w.length w) (k - 1)) := by
  induction n generalizing w with
  | zero => omega
  | succ n ih =>
    rcases Nat.eq_or_lt_of_le hk with rfl | hlt
    · have hold : ∀ j < w.length, schedWord (expandLoop nk (n + 1) w.length w) j = schedWord w j :=
        fun j hj => schedWord_expandLoop_of_lt nk (n + 1) w.length hj
      rw [hold (w.length - nk) (by omega), hold (w.length - 1) (by omega), expandLoop,
        schedWord_expandLoop_of_lt _ _ _ (by simp), schedWord_append_singleton]
    · have hlength : ∀ x : Word, (w ++ [x]).length = w.length + 1 := fun x => List.length_append
      have hrest := @ih (w ++ [schedWord w (w.length - nk) ^^^ expandTemp nk w.length (schedWord w (w.length - 1))])
      rw [hlength] at hrest
      exact hrest (by omega) (by omega) (by omega)

/-! ### `ExpandKey` -/

theorem expandKey_eq {key : List Byte} {nk : Nat} (h : key.length = 4 * nk) :
    expandKey key = expandLoop nk (scheduleWords nk - nk) nk (keyWords nk key) := by
  rw [expandKey, h, Nat.mul_div_cancel_left nk (by decide)]

@[simp] theorem length_keyWords (nk : Nat) (key : List Byte) : (keyWords nk key).length = nk := by simp [keyWords]

theorem length_expandKey {key : List Byte} {nk : Nat} (h : key.length = 4 * nk) :
    (expandKey key).length = 4 * (nk + 7) := by
  rw [expandKey_eq h, length_expandLoop, length_keyWords, scheduleWords]
  omega

/-- `41_aes_keyschedule.md` R147. -/
theorem schedWord_expandKey_of_lt {key : List Byte} {nk : Nat} (h : key.length = 4 * nk) {i : Nat} (hi : i < nk) :
    schedWord (expandKey key) i = wordAt key (4 * i) := by
  rw [expandKey_eq h, schedWord_expandLoop_of_lt _ _ _ (by rwa [length_keyWords]), keyWords, schedWord_map_range _ hi]

/-- `41_aes_keyschedule.md` R150. -/
theorem schedWord_expandKey {key : List Byte} {nk : Nat} (hnk : 0 < nk) (h : key.length = 4 * nk) {i : Nat}
    (hi : nk ≤ i) (hi' : i < 4 * (nk + 7)) :
    schedWord (expandKey key) i =
      schedWord (expandKey key) (i - nk) ^^^ expandTemp nk i (schedWord (expandKey key) (i - 1)) := by
  have hloop := @schedWord_expandLoop nk hnk (scheduleWords nk - nk) (keyWords nk key)
  rw [length_keyWords, ← expandKey_eq h] at hloop
  exact hloop le_rfl hi (by rw [scheduleWords]; omega)

/-- The sizes of R150 for the three key lengths: a key has words, the loop makes 40, 46 or 52, and its last `Rcon` index
is 10, 8 or 7. -/
theorem schedule_sizes : ∀ nk ∈ [4, 6, 8],
    0 < nk ∧ 4 * (nk + 7) - nk ∈ [40, 46, 52] ∧ (4 * (nk + 7) - 1) / nk ∈ [10, 8, 7] := by decide

/-- Settles O42: `schedWord_expandKey`, with `expandTemp` read in each of its three cases. -/
theorem expandKeyRecurrence : Obligations.ExpandKeyRecurrence := by
  intro key nk hmem hlen
  obtain ⟨hnk, hmade, hrcon⟩ := schedule_sizes nk hmem
  refine ⟨length_expandKey hlen, fun i hi => schedWord_expandKey_of_lt hlen hi, fun i hi hi' h0 => ?_,
    fun i hi hi' h8 h4 => ?_, fun i hi hi' h0 h4 => ?_, hmade, hrcon⟩
  · rw [schedWord_expandKey hnk hlen hi hi', expandTemp_of_mod_eq_zero h0]
  · subst h8
    rw [schedWord_expandKey hnk hlen hi hi', expandTemp_of_mod_eq_four h4]
  · rw [schedWord_expandKey hnk hlen hi hi', expandTemp_of_neither h0 h4]

/-! ### `InvSchedule` -/

@[simp] theorem length_invSchedule (w : List Word) (nk : Nat) : (invSchedule w nk).length = 4 * (nk + 7) := by
  simp [invSchedule, scheduleWords]

/-- Word `c` of round key `j` (`41_aes_keyschedule.md` R152). -/
theorem schedWord_invSchedule (w : List Word) {nk j c : Nat} (hj : j ≤ nk + 6) (hc : c < 4) :
    schedWord (invSchedule w nk) (4 * j + c) = invScheduleWord w nk j c := by
  rw [invSchedule, schedWord_map_range _ (by rw [scheduleWords]; omega), show (4 * j + c) / 4 = j by omega,
    show (4 * j + c) % 4 = c by omega]

theorem invScheduleWord_end (w : List Word) {nk j : Nat} (h : j = 0 ∨ j = nk + 6) (c : Nat) :
    invScheduleWord w nk j c = schedWord w (4 * (nk + 6 - j) + c) := if_pos h

theorem invScheduleWord_interior (w : List Word) {nk j : Nat} (h : ¬ (j = 0 ∨ j = nk + 6)) (c : Nat) :
    invScheduleWord w nk j c = invMixWord (schedWord w (4 * (nk + 6 - j) + c)) := if_neg h

/-- Settles O43: `schedWord_invSchedule` at the two ends and in between. -/
theorem invScheduleWords : Obligations.InvScheduleWords := by
  intro w nk _ _
  refine ⟨length_invSchedule w nk, fun j c hc hend => ?_, fun j c hc hpos hlt => ?_⟩
  · rw [schedWord_invSchedule w (by omega) hc, invScheduleWord_end w hend]
  · rw [schedWord_invSchedule w (by omega) hc, invScheduleWord_interior w (by omega)]

end Sys2Proof.Machine
end

/-! PROOFS. The key commands (`41_aes_keyschedule.md` R154): what `keyCommand` answers in each of its four cases, in the
terms of the statements, and from it `AESKEY`. -/
section

namespace Sys2Proof.Machine

section

variable {legal short : Nat → Bool} {build : List Byte → Cipher} {cid : Nat} {s : State}

theorem keyCommand_of_index_out_of_range (hc : s.nCipher ≤ cid) :
    keyCommand legal short build cid s = .next (s.fatalEnd .invalidContext) := by
  rw [keyCommand, if_pos hc, fails_eq, raise_eq_fatalEnd rfl]

theorem keyCommand_of_illegal_length (hc : cid < s.nCipher) (hl : legal s.sl = false) :
    keyCommand legal short build cid s = .next (s.recoverableEnd .invalidKeySize (short s.sl)) := by
  rw [keyCommand, if_neg (by omega), if_pos hl, raise_eq_recoverableEnd rfl]

theorem keyCommand_of_past_top (hc : cid < s.nCipher) (hl : legal s.sl = true) (htop : 2 ^ 32 < s.sa + s.sl) :
    keyCommand legal short build cid s = .next (s.fatalEnd .addressRange) := by
  rw [keyCommand, if_neg (by omega), if_neg (by simp [hl]), if_pos (passesTop_eq_true.2 htop), fails_eq,
    raise_eq_fatalEnd rfl]

theorem keyCommand_of_checks_pass (hc : cid < s.nCipher) (hl : legal s.sl = true) (htop : s.sa + s.sl ≤ 2 ^ 32) :
    keyCommand legal short build cid s = .next
      { s with
        status := s.okStatus
        ciphers := s.ciphers.set cid (some (build (memRead s.mem s.sa s.sl)))
        streams := s.streamsWithout cid } := by
  rw [keyCommand, if_neg (by omega), if_neg (by simp [hl]), if_neg (by simp [passesTop_eq_false.2 htop]),
    completes_eq, dropStreamsOf_eq]
  rfl

end

/-- The length test of `AESKEY` (`41_aes_keyschedule.md` R154). -/
theorem aesKeyLength_eq_true {n : Nat} : (n == 16 || n == 24 || n == 32) = true ↔ n ∈ [16, 24, 32] := by
  simp [or_assoc]

theorem exec_aeskey (cid : Nat) (s : State) :
    exec (.aeskey cid) s =
      keyCommand (fun n => n == 16 || n == 24 || n == 32) (fun _ => false) aesCipher cid s := rfl

theorem aesCipher_memRead (m : Memory) (a n : Nat) :
    aesCipher (memRead m a n) =
      .aes (n / 4) (expandKey (memRead m a n)) (invSchedule (expandKey (memRead m a n)) (n / 4)) := by
  rw [aesCipher, length_memRead]

/-- Settles O26: the four cases of `keyCommand`. -/
theorem aeskeyBuildsSchedules : Obligations.AeskeyBuildsSchedules := by
  intro cid s
  rw [exec_aeskey]
  refine ⟨keyCommand_of_index_out_of_range, fun hc hl => ?_, fun hc hl htop => ?_, fun hc hl htop => ?_⟩
  · exact keyCommand_of_illegal_length hc (Bool.eq_false_iff.2 (mt aesKeyLength_eq_true.1 hl))
  · exact keyCommand_of_past_top hc (aesKeyLength_eq_true.2 hl) htop
  · rw [← aesCipher_memRead]
    exact keyCommand_of_checks_pass hc (aesKeyLength_eq_true.2 hl) htop

end Sys2Proof.Machine
end

/-! PROOFS. The byte moves `ShiftRows` and `InvShiftRows` (`42_aes_rounds.md` R186, R192) and the blocks they act on
(R180). -/
section

namespace Sys2Proof.Machine

/-! ### Blocks -/

@[simp] theorem loadState_storeState (s : AesState) : loadState (storeState s) = s := by
  simp [loadState, storeState, wordAt, wordBytes]

/-- A block has no byte but the sixteen that are loaded. -/
theorem storeState_loadState {blk : List Byte} (h : blk.length = 16) : storeState (loadState blk) = blk := by
  match blk, h with
  | [_, _, _, _, _, _, _, _, _, _, _, _, _, _, _, _], _ => simp [loadState, storeState, wordAt, wordBytes]

theorem byteAt_map_byteAt (bs : List Byte) {table : List Nat} {i : Nat} (h : i < table.length) :
    byteAt (table.map (byteAt bs)) i = byteAt bs (table.getD i 0) := by
  simp [byteAt, h]

/-! ### Columns -/

/-- A column gathered from four equal ones is that column. -/
@[simp] theorem gatherColumn_self (w : Word) : gatherColumn w w w w = w := be32_byteOf w

/-- A change of each byte in place can be made before the bytes move or after. -/
theorem gatherColumn_invSubWord (w0 w1 w2 w3 : Word) :
    gatherColumn (invSubWord w0) (invSubWord w1) (invSubWord w2) (invSubWord w3) =
      invSubWord (gatherColumn w0 w1 w2 w3) := by
  simp [gatherColumn, invSubWord]

@[simp] theorem invSubWord_subWord (w : Word) : invSubWord (subWord w) = w := by simp [invSubWord, subWord]

@[simp] theorem subWord_invSubWord (w : Word) : subWord (invSubWord w) = w := by simp [invSubWord, subWord]

/-! ### `ShiftRows` and `InvShiftRows` -/

/-- The index list of R186. -/
theorem storeState_shiftRows_loadState (blk : List Byte) :
    storeState (shiftRows (loadState blk)) =
      [0, 5, 10, 15, 4, 9, 14, 3, 8, 13, 2, 7, 12, 1, 6, 11].map (byteAt blk) := by
  simp [storeState, shiftRows, loadState, gatherColumn, wordAt, wordBytes]

/-- The index list of R192. -/
theorem storeState_invShiftRows_loadState (blk : List Byte) :
    storeState (invShiftRows (loadState blk)) =
      [0, 13, 10, 7, 4, 1, 14, 11, 8, 5, 2, 15, 12, 9, 6, 3].map (byteAt blk) := by
  simp [storeState, invShiftRows, loadState, gatherColumn, wordAt, wordBytes]

@[simp] theorem invShiftRows_shiftRows (s : AesState) : invShiftRows (shiftRows s) = s := by
  simp [invShiftRows, shiftRows, gatherColumn]

@[simp] theorem shiftRows_invShiftRows (s : AesState) : shiftRows (invShiftRows s) = s := by
  simp [invShiftRows, shiftRows, gatherColumn]

theorem invShiftRows_invSubBytes (s : AesState) : invShiftRows (invSubBytes s) = invSubBytes (invShiftRows s) := by
  simp only [invShiftRows, invSubBytes, gatherColumn_invSubWord]

theorem shiftRows_of_equal_columns (w : Word) : shiftRows ⟨w, w, w, w⟩ = ⟨w, w, w, w⟩ := by
  simp only [shiftRows, gatherColumn_self]

/-- Settles O44: the two index lists, and the laws of the two moves on the columns. -/
theorem shiftRowsMovesBytes : Obligations.ShiftRowsMovesBytes := by
  refine ⟨fun blk i _ hi => ⟨?_, ?_⟩, fun s => ?_, shiftRows_of_equal_columns⟩
  · rw [storeState_shiftRows_loadState]
    exact byteAt_map_byteAt blk hi
  · rw [storeState_invShiftRows_loadState]
    exact byteAt_map_byteAt blk hi
  · exact ⟨invShiftRows_shiftRows s, shiftRows_invShiftRows s, invShiftRows_invSubBytes s⟩

end Sys2Proof.Machine
end

/-! PROOFS. The AES round trip (`42_aes_rounds.md` R200), for every schedule. Round `j` of one direction is undone by
round `Nr - j` of the other, seen through the byte transforms of the half round between them (`decRound_encRound`,
`encRound_decRound`); a run of rounds is then undone by the run of the undoing rounds in reverse order. -/
section

namespace Sys2Proof.Machine

/-! ### The transforms of one round -/

/-- The byte transforms of an encryption round (`42_aes_rounds.md` R196). -/
def subShift (s : AesState) : AesState := shiftRows (subBytes s)

/-- The byte transforms of a decryption round (`42_aes_rounds.md` R198). -/
def invSubShift (s : AesState) : AesState := invShiftRows (invSubBytes s)

@[simp] theorem invSubBytes_subBytes (s : AesState) : invSubBytes (subBytes s) = s := by simp [invSubBytes, subBytes]

@[simp] theorem subBytes_invSubBytes (s : AesState) : subBytes (invSubBytes s) = s := by simp [invSubBytes, subBytes]

@[simp] theorem invSubShift_subShift (s : AesState) : invSubShift (subShift s) = s := by
  rw [invSubShift, subShift, invShiftRows_invSubBytes, invShiftRows_shiftRows, invSubBytes_subBytes]

@[simp] theorem subShift_invSubShift (s : AesState) : subShift (invSubShift s) = s := by
  rw [invSubShift, subShift, invShiftRows_invSubBytes, subBytes_invSubBytes, shiftRows_invShiftRows]

@[simp] theorem invMixColumns_mixColumns (s : AesState) : invMixColumns (mixColumns s) = s := by
  simp [invMixColumns, mixColumns]

@[simp] theorem mixColumns_invMixColumns (s : AesState) : mixColumns (invMixColumns s) = s := by
  simp [invMixColumns, mixColumns]

@[simp] theorem addRoundKey_addRoundKey (w : List Word) (j : Nat) (s : AesState) :
    addRoundKey w j (addRoundKey w j s) = s := by
  simp [addRoundKey]

/-! ### The round keys of `InvSchedule` -/

section

variable (w : List Word) {nk j : Nat}

theorem schedWord_invSchedule_end {c : Nat} (h : j = 0 ∨ j = nk + 6) (hc : c < 4) :
    schedWord (invSchedule w nk) (4 * j + c) = schedWord w (4 * (nk + 6 - j) + c) := by
  rw [schedWord_invSchedule w (by omega) hc, invScheduleWord_end w h]

theorem schedWord_invSchedule_interior {c : Nat} (h0 : 0 < j) (h : j < nk + 6) (hc : c < 4) :
    schedWord (invSchedule w nk) (4 * j + c) = invMixWord (schedWord w (4 * (nk + 6 - j) + c)) := by
  rw [schedWord_invSchedule w (by omega) hc, invScheduleWord_interior w (by omega)]

theorem addRoundKey_invSchedule_end (h : j = 0 ∨ j = nk + 6) (s : AesState) :
    addRoundKey (invSchedule w nk) j s = addRoundKey w (nk + 6 - j) s := by
  have hword {c : Nat} (hc : c < 4) := schedWord_invSchedule_end w h hc
  have hfirst := hword (show 0 < 4 by decide)
  simp only [addRoundKey, Nat.add_zero] at hfirst ⊢
  rw [hfirst, hword (by decide), hword (by decide), hword (by decide)]

/-- `InvMixWord` is linear, so the key it has been applied to is added before it as the forward key. -/
theorem addRoundKey_invSchedule_interior (h0 : 0 < j) (h : j < nk + 6) (s : AesState) :
    addRoundKey (invSchedule w nk) j (invMixColumns s) = invMixColumns (addRoundKey w (nk + 6 - j) s) := by
  have hword {c : Nat} (hc : c < 4) := schedWord_invSchedule_interior w h0 h hc
  have hfirst := hword (show 0 < 4 by decide)
  simp only [addRoundKey, invMixColumns, invMixWord_xor, Nat.add_zero] at hfirst ⊢
  rw [hfirst, hword (by decide), hword (by decide), hword (by decide)]

/-! ### One round -/

theorem encRound_eq (s : AesState) : encRound w s j = addRoundKey w j (mixColumns (subShift s)) := rfl

theorem decRound_invSchedule (h0 : 0 < j) (h : j < nk + 6) (s : AesState) :
    decRound (invSchedule w nk) s j = invMixColumns (addRoundKey w (nk + 6 - j) (invSubShift s)) :=
  addRoundKey_invSchedule_interior w h0 h (invSubShift s)

theorem decRound_encRound (h0 : 0 < j) (h : j < nk + 6) (s : AesState) :
    decRound (invSchedule w nk) (subShift (encRound w s j)) (nk + 6 - j) = subShift s := by
  have hj : nk + 6 - (nk + 6 - j) = j := by omega
  rw [decRound_invSchedule w (by omega) (by omega), hj, encRound_eq, invSubShift_subShift, addRoundKey_addRoundKey,
    invMixColumns_mixColumns]

theorem encRound_decRound (h0 : 0 < j) (h : j < nk + 6) (s : AesState) :
    encRound w (invSubShift (decRound (invSchedule w nk) s j)) (nk + 6 - j) = invSubShift s := by
  rw [encRound_eq, subShift_invSubShift, decRound_invSchedule w h0 h, mixColumns_invMixColumns,
    addRoundKey_addRoundKey]

end

/-! ### All rounds -/

/-- If step `r j` of `g` undoes step `j` of `f`, seen through `c`, a run of `g` in reverse order undoes a run of `f`. -/
theorem foldl_reverse_undoes_foldl {α : Type} {f g : α → Nat → α} {c : α → α} {r : Nat → Nat} (l : List Nat)
    (h : ∀ j ∈ l, ∀ s, g (c (f s j)) (r j) = c s) (s : α) :
    (l.reverse.map r).foldl g (c (l.foldl f s)) = c s := by
  induction l generalizing s with
  | nil => rfl
  | cons j l ih =>
    obtain ⟨hj, hl⟩ := List.forall_mem_cons.1 h
    rw [List.reverse_cons, List.map_append, List.foldl_append, List.foldl_cons, ih hl]
    exact hj s

theorem mem_interior_rounds {nk j : Nat} : j ∈ List.range' 1 (nk + 5) ↔ 0 < j ∧ j < nk + 6 := by
  rw [List.mem_range'_1]
  omega

/-- The interior rounds `1 .. Nr - 1` in reverse order, each counted from the end, are the interior rounds. -/
theorem interior_rounds_reverse (nk : Nat) :
    (List.range' 1 (nk + 5)).reverse.map (nk + 6 - ·) = List.range' 1 (nk + 5) := by
  refine List.ext_getElem (by simp) fun i hi _ => ?_
  have hlt : i < nk + 5 := by simpa using hi
  simp
  omega

theorem decRounds_encRounds (w : List Word) (nk : Nat) (s : AesState) :
    (List.range' 1 (nk + 5)).foldl (decRound (invSchedule w nk))
      (subShift ((List.range' 1 (nk + 5)).foldl (encRound w) s)) = subShift s := by
  have hundo := foldl_reverse_undoes_foldl (g := decRound (invSchedule w nk)) (r := (nk + 6 - ·)) _
    (fun j hj t => decRound_encRound w (mem_interior_rounds.1 hj).1 (mem_interior_rounds.1 hj).2 t) s
  rwa [interior_rounds_reverse] at hundo

theorem encRounds_decRounds (w : List Word) (nk : Nat) (s : AesState) :
    (List.range' 1 (nk + 5)).foldl (encRound w)
      (invSubShift ((List.range' 1 (nk + 5)).foldl (decRound (invSchedule w nk)) s)) = invSubShift s := by
  have hundo := foldl_reverse_undoes_foldl (g := encRound w) (r := (nk + 6 - ·)) _
    (fun j hj t => encRound_decRound w (mem_interior_rounds.1 hj).1 (mem_interior_rounds.1 hj).2 t) s
  rwa [interior_rounds_reverse] at hundo

/-! ### Blocks there and back -/

theorem aesEncryptBlock_eq (nk : Nat) (w : List Word) (blk : List Byte) :
    aesEncryptBlock nk w blk = storeState (addRoundKey w (nk + 6)
      (subShift ((List.range' 1 (nk + 5)).foldl (encRound w) (addRoundKey w 0 (loadState blk))))) := rfl

/-- Decryption by the inverse schedule, its first and last round keys read in the forward one. -/
theorem aesDecryptBlock_invSchedule (nk : Nat) (w : List Word) (blk : List Byte) :
    aesDecryptBlock nk (invSchedule w nk) blk = storeState (addRoundKey w 0
      (invSubShift ((List.range' 1 (nk + 5)).foldl (decRound (invSchedule w nk))
        (addRoundKey w (nk + 6) (loadState blk))))) := by
  rw [aesDecryptBlock, addRoundKey_invSchedule_end w (.inl rfl), addRoundKey_invSchedule_end w (.inr rfl), Nat.sub_zero,
    Nat.sub_self, invSubShift]

theorem aesDecryptBlock_aesEncryptBlock (nk : Nat) (w : List Word) {blk : List Byte} (h : blk.length = 16) :
    aesDecryptBlock nk (invSchedule w nk) (aesEncryptBlock nk w blk) = blk := by
  rw [aesDecryptBlock_invSchedule, aesEncryptBlock_eq, loadState_storeState, addRoundKey_addRoundKey,
    decRounds_encRounds, invSubShift_subShift, addRoundKey_addRoundKey, storeState_loadState h]

theorem aesEncryptBlock_aesDecryptBlock (nk : Nat) (w : List Word) {blk : List Byte} (h : blk.length = 16) :
    aesEncryptBlock nk w (aesDecryptBlock nk (invSchedule w nk) blk) = blk := by
  rw [aesEncryptBlock_eq, aesDecryptBlock_invSchedule, loadState_storeState, addRoundKey_addRoundKey,
    encRounds_decRounds, subShift_invSubShift, addRoundKey_addRoundKey, storeState_loadState h]

/-- Settles O45: the two round trips, at the schedule of the key. -/
theorem aesRoundTrip : Obligations.AesRoundTrip := by
  intro key blk nk _ _ hblk
  exact ⟨aesDecryptBlock_aesEncryptBlock nk (expandKey key) hblk,
    aesEncryptBlock_aesDecryptBlock nk (expandKey key) hblk⟩

end Sys2Proof.Machine
end

/-! PROOFS. The DES key schedule (`43_des_keyschedule.md` R220 to R226): what a subkey is, the key bits it depends on, and
`DESKEY`. -/
section

namespace Sys2Proof.Machine

/-! ### The accumulated rotations -/

theorem rotateLeft_rotateLeft {w : Nat} (x : BitVec w) (m n : Nat) :
    (x.rotateLeft m).rotateLeft n = x.rotateLeft (m + n) := by
  refine BitVec.eq_of_getMsbD_eq fun i hi => ?_
  have hmod : (n + i) % w < w := Nat.mod_lt _ (Nat.zero_lt_of_lt hi)
  simp only [BitVec.getMsbD_rotateLeft, hi, hmod, decide_true, Bool.true_and, Nat.add_mod_mod, Nat.add_assoc]

@[simp] theorem length_subkeyRounds (rs : List Nat) (c d : BitVec 28) : (subkeyRounds rs c d).length = rs.length := by
  induction rs generalizing c d with
  | nil => rfl
  | cons r rs ih => rw [subkeyRounds, List.length_cons, List.length_cons, ih]

/-- Each round rotates what the round before left, so round `i` has rotated the first halves by the sum of the amounts up
to its own (`43_des_keyschedule.md` R224). -/
theorem getD_subkeyRounds {rs : List Nat} (c d : BitVec 28) {i : Nat} (hi : i < rs.length) :
    (subkeyRounds rs c d).getD i 0 =
      (subkeyOf (c.rotateLeft (rs.take (i + 1)).sum) (d.rotateLeft (rs.take (i + 1)).sum)).setWidth 64 := by
  induction rs generalizing c d i with
  | nil => exact absurd hi (Nat.not_lt_zero i)
  | cons r rs ih =>
    cases i with
    | zero => simp [subkeyRounds]
    | succ i =>
      rw [subkeyRounds, List.getD_cons_succ, ih _ _ (Nat.lt_of_succ_lt_succ hi), rotateLeft_rotateLeft,
        rotateLeft_rotateLeft, List.take_succ_cons, List.sum_cons]

theorem length_desSubkeys (key : List Byte) : (desSubkeys key).length = 16 := length_subkeyRounds rot _ _

/-- Settles O48: `getD_subkeyRounds` at the sixteen amounts of `ROT` and the halves of `PC1` of the key. -/
theorem subkeysAccumulateRotations : Obligations.SubkeysAccumulateRotations :=
  fun key _ => ⟨length_desSubkeys key, fun _ hi => getD_subkeyRounds _ _ hi⟩

/-! ### The zero bits above a stored subkey -/

theorem extractLsb'_above_setWidth (x : BitVec 48) : (x.setWidth 64).extractLsb' 48 16 = 0 := by
  ext i hi
  simp

/-- `10_state.md` R34. -/
theorem getD_desSubkeys_high (key : List Byte) (i : Nat) : ((desSubkeys key).getD i 0).extractLsb' 48 16 = 0 := by
  rcases Nat.lt_or_ge i 16 with hi | hi
  · rw [desSubkeys, getD_subkeyRounds _ _ hi, extractLsb'_above_setWidth]
  · rw [List.getD_eq_default _ _ (by rwa [length_desSubkeys])]
    rfl

/-! ### The bits of the key that `PC1` takes -/

/-- A permutation depends only on the bits its table names. -/
theorem perm_congr {m n : Nat} {v v' : BitVec n} {table : List Nat} (h : ∀ k ∈ table, dbit v k = dbit v' k) :
    perm m v table = perm m v' table := by
  rw [perm, perm, List.foldl_ext]
  intro acc k hk
  rw [h k hk]

/-- Bit `t` of byte `i` is bit `56 - 8 * i + t` of the packed value (`00_scope.md` R13). -/
theorem getLsbD_be64 {bs : List Byte} (h : bs.length = 8) {i t : Nat} (hi : i < 8) (ht : t < 8) :
    (be64 bs).getLsbD (56 - 8 * i + t) = (byteAt bs i).getLsbD t := by
  rw [← bytes64_be64 h, byteAt_bytes64 _ hi, be64_bytes64, BitVec.getLsbD_extractLsb', decide_eq_true ht, Bool.true_and]

/-- Every position of `PC1` is a bit of a key byte other than its bit 0, the parity bit (`43_des_keyschedule.md` R220,
R221). -/
theorem pc1_names_no_parity_bit : ∀ k ∈ pc1, ∃ i < 8, ∃ t < 8, 0 < t ∧ 64 - k = 56 - 8 * i + t := by decide

theorem getLsbD_eq_of_and_eq {a b : Byte} (h : a &&& 0xFE = b &&& 0xFE) {t : Nat} (h0 : 0 < t) (ht : t < 8) :
    a.getLsbD t = b.getLsbD t := by
  have hmask : ∀ t < 8, 0 < t → (0xFE : Byte).getLsbD t = true := by decide
  simpa only [BitVec.getLsbD_and, hmask t ht h0, Bool.and_true] using congrArg (·.getLsbD t) h

theorem permutedKey_congr {key key' : List Byte} (h : key.length = 8) (h' : key'.length = 8)
    (heq : ∀ i, i < 8 → byteAt key i &&& 0xFE = byteAt key' i &&& 0xFE) : permutedKey key = permutedKey key' := by
  refine perm_congr fun k hk => ?_
  obtain ⟨i, hi, t, ht, h0, hpos⟩ := pc1_names_no_parity_bit k hk
  simp only [dbit, BitVec.testBit_toNat]
  rw [hpos, getLsbD_be64 h hi ht, getLsbD_be64 h' hi ht, getLsbD_eq_of_and_eq (heq i hi) h0 ht]

/-- Settles O49: the schedule reads the key through `PC1` only, and a stored subkey is zero-extended. -/
theorem parityBitsIgnored : Obligations.ParityBitsIgnored := by
  refine ⟨fun key key' h h' heq => ?_, getD_desSubkeys_high⟩
  rw [desSubkeys, desSubkeys, permutedKey_congr h h' heq]

/-! ### `DESKEY` -/

theorem exec_deskey (cid : Nat) (s : State) :
    exec (.deskey cid) s = keyCommand (fun n => n == 8) (fun _ => false) desCipher cid s := rfl

/-- Settles O27: the four cases of `keyCommand`. -/
theorem deskeyBuildsSubkeys : Obligations.DeskeyBuildsSubkeys := by
  intro cid s
  rw [exec_deskey]
  refine ⟨keyCommand_of_index_out_of_range, fun hc hl => ?_, fun hc hl htop => ?_, fun hc hl htop => ?_⟩
  · exact keyCommand_of_illegal_length hc (beq_false_of_ne hl)
  · exact keyCommand_of_past_top hc (beq_iff_eq.2 hl) (hl ▸ htop)
  · have hread : memRead s.mem s.sa s.sl = memRead s.mem s.sa 8 := congrArg (memRead s.mem s.sa) hl
    rw [← hread]
    exact keyCommand_of_checks_pass hc (beq_iff_eq.2 hl) (hl ▸ htop)

end Sys2Proof.Machine
end

/-! PROOFS. The tables of the DES round unit (`44_des_feistel.md` R251 to R255): the Final Permutation undoes the
Initial one, and how an S-box is addressed. -/
section

namespace Sys2Proof.Machine

/-! ### Permutations that undo each other -/

/-- Permuting by `t` and then by `u` changes nothing when the position `u` names at each place is the one where `t` put
the bit of that place. -/
theorem perm_perm_eq_self {n : Nat} {t u : List Nat} (ht : t.length = n) (hu : u.length = n)
    (h : ∀ j < n, 1 ≤ u.getD j 0 ∧ u.getD j 0 ≤ n ∧ t.getD (u.getD j 0 - 1) 0 = j + 1) (v : BitVec n) :
    perm n (perm n v t) u = v := by
  refine BitVec.eq_of_getMsbD_eq fun j hj => ?_
  obtain ⟨hpos, hle, hback⟩ := h j hj
  rw [getMsbD_perm _ u hu hj, dbit_eq_getMsbD _ hpos hle, getMsbD_perm v t ht (by omega), hback,
    dbit_eq_getMsbD v (Nat.le_add_left 1 j) hj, Nat.add_sub_cancel]

theorem length_ip : ip.length = 64 := rfl

theorem length_fp : fp.length = 64 := rfl

@[simp] theorem perm_fp_perm_ip (v : DWord) : perm 64 (perm 64 v ip : DWord) fp = v :=
  perm_perm_eq_self length_ip length_fp (by decide) v

@[simp] theorem perm_ip_perm_fp (v : DWord) : perm 64 (perm 64 v fp : DWord) ip = v :=
  perm_perm_eq_self length_fp length_ip (by decide) v

/-- Settles O46: the two tables name each other's places, and `getMsbD_perm` says what any table does. -/
theorem finalPermutationInvertsInitial : Obligations.FinalPermutationInvertsInitial := by
  refine ⟨fun v => ⟨perm_fp_perm_ip v, perm_ip_perm_fp v⟩, by decide, fun n m j v table hm hj hrange => ?_⟩
  have hmem : table.getD j 0 ∈ table := by
    rw [List.getD_eq_getElem _ _ (hm ▸ hj)]
    exact List.getElem_mem _
  obtain ⟨hpos, hle⟩ := hrange _ hmem
  rw [getMsbD_perm v table hm hj, dbit_eq_getMsbD v hpos hle]

/-! ### The addressing of the S-boxes -/

theorem sboxRow_eq : ∀ g : BitVec 6,
    g.toNat / 32 * 2 + g.toNat % 2 = 2 * (g.getMsbD 0).toNat + (g.getMsbD 5).toNat := by decide

theorem sboxCol_eq : ∀ g : BitVec 6, g.toNat / 2 % 16 =
    8 * (g.getMsbD 1).toNat + 4 * (g.getMsbD 2).toNat + 2 * (g.getMsbD 3).toNat + (g.getMsbD 4).toNat := by decide

/-- The outer bits of a group are its row, the inner four its column (`44_des_feistel.md` R255). -/
theorem sboxLookup_eq (box : List (List (BitVec 4))) (g : BitVec 6) :
    sboxLookup box g = (box.getD (2 * (g.getMsbD 0).toNat + (g.getMsbD 5).toNat) []).getD
      (8 * (g.getMsbD 1).toNat + 4 * (g.getMsbD 2).toNat + 2 * (g.getMsbD 3).toNat + (g.getMsbD 4).toNat) 0 := by
  rw [sboxLookup, sboxRow_eq, sboxCol_eq]

/-- The groups are cut from the most significant end (`44_des_feistel.md` R255). -/
theorem getMsbD_group (x : BitVec 48) {j k : Nat} (hj : j < 8) (hk : k < 6) :
    (group x (j + 1)).getMsbD k = x.getMsbD (6 * j + k) := by
  have hin : 48 - 6 * (j + 1) + 6 - k ≤ 48 := by omega
  have hpos : 48 - (48 - 6 * (j + 1) + 6 - k) = 6 * j + k := by omega
  rw [group, BitVec.getMsbD_extractLsb', hpos, decide_eq_true hk, decide_eq_true hin, Bool.true_and, Bool.true_and]

theorem extractLsb'_append_nibbles (a b c d e f g h : BitVec 4) {j : Nat} (hj : j < 8) :
    (a ++ b ++ c ++ d ++ e ++ f ++ g ++ h).extractLsb' (28 - 4 * j) 4 = [a, b, c, d, e, f, g, h].getD j 0 := by
  interval_cases j <;>
    simp (disch := decide) only [BitVec.extractLsb'_append_eq_of_le, BitVec.extractLsb'_append_eq_of_add_le] <;>
    exact BitVec.extractLsb'_eq_self

/-- The outputs of the eight boxes stand side by side, group 1 the most significant (`44_des_feistel.md` R255). -/
theorem extractLsb'_sBoxes (x : BitVec 48) {j : Nat} (hj : j < 8) :
    (sBoxes x).extractLsb' (28 - 4 * j) 4 =
      sboxLookup ([s1, s2, s3, s4, s5, s6, s7, s8].getD j []) (group x (j + 1)) := by
  refine (extractLsb'_append_nibbles _ _ _ _ _ _ _ _ hj).trans ?_
  interval_cases j <;> rfl

/-- Settles O47: each group of the output is one S-box, and each lookup is addressed by the bits of its group. -/
theorem sBoxAddressing : Obligations.SBoxAddressing := by
  refine ⟨fun x j hj => ?_, by decide, by decide⟩
  rw [extractLsb'_sBoxes x hj, sboxLookup_eq]
  simp only [getMsbD_group x hj, Nat.reduceLT, Nat.add_zero]

end Sys2Proof.Machine
end

/-! PROOFS. The DES round trip (`44_des_feistel.md` R260), for every list of subkeys. A round on the swapped result of a
round with the same subkey gives the swapped pair back (`feistelRound_swap_feistelRound`); a run of rounds is then
undone by a run with the subkeys in reverse order, and the two permutations at the ends undo each other. -/
section

namespace Sys2Proof.Machine

/-! ### One round and all sixteen -/

/-- The old right half feeds the round function both times, so its value cancels (`44_des_feistel.md` R258, R260). -/
theorem feistelRound_swap_feistelRound (lr : Word × Word) (k : BitVec 48) :
    feistelRound (feistelRound lr k).swap k = lr.swap := by
  simp only [feistelRound, Prod.swap, BitVec.xor_assoc, BitVec.xor_self, BitVec.xor_zero]

/-- The subkey of round `i` (`44_des_feistel.md` R259). -/
def roundKey (ks : List DWord) (decrypt : Bool) (i : Nat) : BitVec 48 :=
  (ks.getD (if decrypt then 15 - i else i) 0).setWidth 48

/-- The other direction uses the same subkeys, counted from the end. -/
theorem roundKey_not_from_end (ks : List DWord) (decrypt : Bool) {i : Nat} (hi : i < 16) :
    roundKey ks (!decrypt) (15 - i) = roundKey ks decrypt i := by
  have hsub : 15 - (15 - i) = i := by omega
  cases decrypt <;> simp [roundKey, hsub]

/-- The sixteen rounds of `DesCrypt`. -/
def desRounds (ks : List DWord) (decrypt : Bool) (lr : Word × Word) : Word × Word :=
  (roundKeys ks decrypt).foldl feistelRound lr

theorem desRounds_eq_foldl_range (ks : List DWord) (decrypt : Bool) (lr : Word × Word) :
    desRounds ks decrypt lr = (List.range 16).foldl (fun lr i => feistelRound lr (roundKey ks decrypt i)) lr :=
  List.foldl_map

theorem des_rounds_reverse : (List.range 16).reverse.map (15 - ·) = List.range 16 := by decide

/-- The rounds of the other direction lead from the swapped result back to the swapped start. -/
theorem desRounds_not_swap_desRounds (ks : List DWord) (decrypt : Bool) (lr : Word × Word) :
    desRounds ks (!decrypt) (desRounds ks decrypt lr).swap = lr.swap := by
  have hround : ∀ i ∈ List.range 16, ∀ lr : Word × Word,
      feistelRound (feistelRound lr (roundKey ks decrypt i)).swap (roundKey ks (!decrypt) (15 - i)) = lr.swap := by
    intro i hi lr
    rw [roundKey_not_from_end ks decrypt (List.mem_range.1 hi), feistelRound_swap_feistelRound]
  have hundo := foldl_reverse_undoes_foldl (g := fun lr i => feistelRound lr (roundKey ks (!decrypt) i)) _ hround lr
  rwa [des_rounds_reverse, ← desRounds_eq_foldl_range, ← desRounds_eq_foldl_range] at hundo

/-! ### Blocks there and back -/

/-- The halves `(L, R)` a block gives to the rounds (`44_des_feistel.md` R251, R259). -/
def loadHalves (blk : List Byte) : Word × Word :=
  ((perm 64 (be64 blk) ip : DWord).extractLsb' 32 32, (perm 64 (be64 blk) ip : DWord).extractLsb' 0 32)

/-- The block two halves make, the first the more significant (`44_des_feistel.md` R250, R252). -/
def storeHalves (lr : Word × Word) : List Byte := bytes64 (perm 64 (lr.1 ++ lr.2 : DWord) fp)

@[simp] theorem loadHalves_storeHalves (lr : Word × Word) : loadHalves (storeHalves lr) = lr := by
  simp only [loadHalves, storeHalves, be64_bytes64, perm_ip_perm_fp, high_append, low_append]

theorem storeHalves_loadHalves {blk : List Byte} (h : blk.length = 8) : storeHalves (loadHalves blk) = blk := by
  simp only [loadHalves, storeHalves, append_halves, perm_fp_perm_ip, bytes64_be64 h]

/-- `R_16 || L_16` goes into the Final Permutation (`44_des_feistel.md` R259). -/
theorem desCrypt_eq (ks : List DWord) (blk : List Byte) (decrypt : Bool) :
    desCrypt ks blk decrypt = storeHalves (desRounds ks decrypt (loadHalves blk)).swap := rfl

/-- Each direction undoes the other (`44_des_feistel.md` R260). -/
theorem desCrypt_not_desCrypt (ks : List DWord) {blk : List Byte} (h : blk.length = 8) (decrypt : Bool) :
    desCrypt ks (desCrypt ks blk decrypt) (!decrypt) = blk := by
  rw [desCrypt_eq, desCrypt_eq ks blk, loadHalves_storeHalves, desRounds_not_swap_desRounds, Prod.swap_swap,
    storeHalves_loadHalves h]

/-- Settles O50: `desCrypt_not_desCrypt` from either direction. -/
theorem desRoundTrip : Obligations.DesRoundTrip :=
  fun ks _ h => ⟨desCrypt_not_desCrypt ks h false, desCrypt_not_desCrypt ks h true⟩

end Sys2Proof.Machine
end

/-! PROOFS. Triple-DES (`45_tdes.md` R290 to R294): `TDESKEY` from the four cases of `keyCommand`, and the laws of the
composer from the DES round trip. -/
section

namespace Sys2Proof.Machine

/-! ### `TDESKEY` -/

theorem exec_tdeskey (cid : Nat) (s : State) :
    exec (.tdeskey cid) s = keyCommand (fun n => n == 24) (fun n => decide (n < 24)) tdesCipher cid s := rfl

/-- The three schedules come from consecutive 8-byte parts of the key in memory (`45_tdes.md` R290). -/
theorem tdesCipher_memRead (m : Memory) (a : Nat) :
    tdesCipher (memRead m a 24) =
      .tdes (desSubkeys (memRead m a 8)) (desSubkeys (memRead m (a + 8) 8)) (desSubkeys (memRead m (a + 16) 8)) := by
  simp only [tdesCipher, memRead_drop, memRead_take, Nat.reduceLeDiff, Nat.reduceSub]

/-- A wrong key length is reported with `SHORT` exactly when it is below 24 (`45_tdes.md` R291). -/
theorem exec_tdeskey_of_wrong_length {cid : Nat} {s : State} (hc : cid < s.nCipher) (hl : s.sl ≠ 24) :
    exec (.tdeskey cid) s = .next (s.recoverableEnd .invalidKeySize (decide (s.sl < 24))) := by
  rw [exec_tdeskey]
  exact keyCommand_of_illegal_length hc (beq_false_of_ne hl)

/-- Settles O28: the cases of `keyCommand`, the wrong length taken on either side of 24. -/
theorem tdeskeyBuildsThreeSchedules : Obligations.TdeskeyBuildsThreeSchedules := by
  intro cid s
  refine ⟨fun hc => ?_, fun hc hl => ?_, fun hc hl => ?_, fun hc hl htop => ?_, fun hc hl htop => ?_⟩
  · rw [exec_tdeskey, keyCommand_of_index_out_of_range hc]
  · rw [exec_tdeskey_of_wrong_length hc (Nat.ne_of_lt hl), decide_eq_true hl]
  · rw [exec_tdeskey_of_wrong_length hc (Nat.ne_of_gt hl), decide_eq_false (Nat.lt_asymm hl)]
  · rw [exec_tdeskey]
    exact keyCommand_of_past_top hc (beq_iff_eq.2 hl) (hl ▸ htop)
  · have hread : memRead s.mem s.sa s.sl = memRead s.mem s.sa 24 := congrArg (memRead s.mem s.sa) hl
    rw [exec_tdeskey, ← tdesCipher_memRead, ← hread]
    exact keyCommand_of_checks_pass hc (beq_iff_eq.2 hl) (hl ▸ htop)

/-! ### The composer -/

theorem desCrypt_true_desCrypt_false (ks : List DWord) {blk : List Byte} (h : blk.length = 8) :
    desCrypt ks (desCrypt ks blk false) true = blk := desCrypt_not_desCrypt ks h false

theorem desCrypt_false_desCrypt_true (ks : List DWord) {blk : List Byte} (h : blk.length = 8) :
    desCrypt ks (desCrypt ks blk true) false = blk := desCrypt_not_desCrypt ks h true

/-- The passes with schedule 3, then 2, then 1 meet in the middle and cancel in this order (`45_tdes.md` R292, R293). -/
theorem tdesDecryptBlock_tdesEncryptBlock (ks1 ks2 ks3 : List DWord) {blk : List Byte} (h : blk.length = 8) :
    tdesDecryptBlock ks1 ks2 ks3 (tdesEncryptBlock ks1 ks2 ks3 blk) = blk := by
  rw [tdesDecryptBlock, tdesEncryptBlock, desCrypt_true_desCrypt_false ks3 (length_desCrypt ..),
    desCrypt_false_desCrypt_true ks2 (length_desCrypt ..), desCrypt_true_desCrypt_false ks1 h]

/-- Here schedule 1 is the innermost, so the passes cancel from 1 to 3. -/
theorem tdesEncryptBlock_tdesDecryptBlock (ks1 ks2 ks3 : List DWord) {blk : List Byte} (h : blk.length = 8) :
    tdesEncryptBlock ks1 ks2 ks3 (tdesDecryptBlock ks1 ks2 ks3 blk) = blk := by
  rw [tdesEncryptBlock, tdesDecryptBlock, desCrypt_false_desCrypt_true ks1 (length_desCrypt ..),
    desCrypt_true_desCrypt_false ks2 (length_desCrypt ..), desCrypt_false_desCrypt_true ks3 h]

/-- With equal first two schedules the second pass undoes the first, which leaves the third (`45_tdes.md` R294). -/
theorem tdesEncryptBlock_of_first_two_equal (ks ks3 : List DWord) {blk : List Byte} (h : blk.length = 8) :
    tdesEncryptBlock ks ks ks3 blk = desCrypt ks3 blk false := by
  rw [tdesEncryptBlock, desCrypt_true_desCrypt_false ks h]

/-- Settles O51: each law by the DES round trip; three equal schedules are a case of two. -/
theorem tripleDesLaws : Obligations.TripleDesLaws :=
  fun ks1 ks2 ks3 _ h =>
    ⟨tdesDecryptBlock_tdesEncryptBlock ks1 ks2 ks3 h, tdesEncryptBlock_tdesDecryptBlock ks1 ks2 ks3 h,
      tdesEncryptBlock_of_first_two_equal ks1 ks3 h, tdesEncryptBlock_of_first_two_equal ks1 ks1 h⟩

end Sys2Proof.Machine
end

/-! PROOFS. The block-cipher capability on cipher contexts (`46_block_capability.md` R310, R311): both functions keep the
block size, and each undoes the other on every context a key command builds. -/
section

namespace Sys2Proof.Machine

/-- `g` undoes `f` on whole blocks of every context a key command builds, and `f` gives whole blocks
(`46_block_capability.md` R311). -/
structure UndoesBlocks (g f : Cipher → List Byte → List Byte) : Prop where
  length (c : Cipher) (blk : List Byte) : (f c blk).length = blockSizeOf c
  undo {c : Cipher} {blk : List Byte} : c.wf → blk.length = blockSizeOf c → g c (f c blk) = blk

theorem decryptBlock_undoes_encryptBlock : UndoesBlocks decryptBlock encryptBlock where
  length := length_encryptBlock
  undo {c blk} hc h := by
    rcases hc with ⟨key, -, rfl⟩ | ⟨key, -, rfl⟩ | ⟨key, -, rfl⟩
    · exact aesDecryptBlock_aesEncryptBlock (key.length / 4) (expandKey key) h
    · exact desCrypt_true_desCrypt_false (desSubkeys key) h
    · exact tdesDecryptBlock_tdesEncryptBlock _ _ _ h

theorem encryptBlock_undoes_decryptBlock : UndoesBlocks encryptBlock decryptBlock where
  length := length_decryptBlock
  undo {c blk} hc h := by
    rcases hc with ⟨key, -, rfl⟩ | ⟨key, -, rfl⟩ | ⟨key, -, rfl⟩
    · exact aesEncryptBlock_aesDecryptBlock (key.length / 4) (expandKey key) h
    · exact desCrypt_false_desCrypt_true (desSubkeys key) h
    · exact tdesEncryptBlock_tdesDecryptBlock _ _ _ h

/-- Settles O52: the two `UndoesBlocks`, each from the round trips of the three kinds. -/
theorem blockRoundTrip : Obligations.BlockRoundTrip := fun c blk hc h =>
  ⟨length_encryptBlock c blk, length_decryptBlock c blk, decryptBlock_undoes_encryptBlock.undo hc h,
    encryptBlock_undoes_decryptBlock.undo hc h⟩

end Sys2Proof.Machine
end

/-! PROOFS. `ENC` and `DEC` (`46_block_capability.md` R314, R316): what `blockCommand` answers in each of its five cases, in
the terms of the statements, and what its store leaves in memory. -/
section

namespace Sys2Proof.Machine

/-! ### A block stored in memory -/

section

variable {m : Memory} {a n : Nat} {bs : List Byte} (hm : m.wf) (hl : bs.length = n) (h : a + n ≤ Config.memSize)

include hm hl h

/-- An extent reads back what was stored in it (`20_memory.md` R62, R63). -/
theorem memRead_memWrite : memRead (memWrite m a bs) a n = bs := by
  subst hl
  refine bytes_ext (length_memRead ..) fun i hi => ?_
  rw [length_memRead] at hi
  rw [byteAt_memRead _ _ hi, read_memWrite_inside hm h hi]

/-- Storing what an extent held undoes a store over it. -/
theorem memWrite_memRead_undoes_memWrite : memWrite (memWrite m a bs) a (memRead m a n) = m := by
  subst hl
  have hw : (memWrite m a bs).wf := wf_memWrite hm h
  have hlen := length_memRead m a bs.length
  refine eq_of_read_eq (wf_memWrite hw (by rwa [hlen])) hm fun x => ?_
  by_cases hx : x < a ∨ a + bs.length ≤ x
  · rw [read_memWrite_outside _ _ _ (by rwa [hlen]), read_memWrite_outside _ _ _ hx]
  · obtain ⟨i, rfl⟩ : ∃ i, x = a + i := ⟨x - a, by omega⟩
    have hi : i < bs.length := by omega
    rw [read_memWrite_inside hw (by rwa [hlen]) (by rwa [hlen]), byteAt_memRead _ _ hi]

end

/-! ### The five cases of `ENC` and `DEC` -/

theorem fails_eq_fatalEnd {code : Code} (h : code.isFatal = true) (s : State) :
    fails code s = .next (s.fatalEnd code) := by
  rw [fails_eq, raise_eq_fatalEnd h]

/-- The operands of `ENC` or `DEC` on the context `c` pass the checks (`46_block_capability.md` R314). -/
structure BlockOperands (c : Cipher) (s : State) : Prop where
  src_length : blockSizeOf c ≤ s.sl
  dst_length : blockSizeOf c ≤ s.dl
  src_below_top : s.sa + s.sl ≤ 2 ^ 32
  dst_below_top : s.d + s.dl ≤ 2 ^ 32
  regions : identicalOrDisjoint s.d s.sa (blockSizeOf c)

/-- The block to store lies in the address space. -/
theorem BlockOperands.dst_block_below_top {c : Cipher} {s : State} (h : BlockOperands c s) :
    s.d + blockSizeOf c ≤ Config.memSize :=
  (Nat.add_le_add_left h.dst_length s.d).trans h.dst_below_top

section

variable {f : Cipher → List Byte → List Byte} {cid : Nat} {c : Cipher} {s : State}

theorem blockCommand_of_no_context (h : s.nCipher ≤ cid ∨ s.cipher? cid = some none) :
    blockCommand f cid s = .next (s.fatalEnd .invalidContext) := by
  have hnone := cipher?_join_eq_none.2 h
  rcases blockCommand_cases f cid s with ⟨-, he⟩ | ⟨c, hc, -⟩
  · rw [he, raise_eq_fatalEnd rfl]
  · simp [hc] at hnone

theorem blockCommand_of_short_buffer (hc : s.cipher? cid = some (some c))
    (h : s.sl < blockSizeOf c ∨ s.dl < blockSizeOf c) :
    blockCommand f cid s = .next (s.fatalEnd .bufferTooSmall) := by
  simp only [blockCommand, hc, if_pos h]
  exact fails_eq_fatalEnd rfl s

theorem blockCommand_of_past_top (hc : s.cipher? cid = some (some c)) (hs : blockSizeOf c ≤ s.sl)
    (hd : blockSizeOf c ≤ s.dl) (h : 2 ^ 32 < s.sa + s.sl ∨ 2 ^ 32 < s.d + s.dl) :
    blockCommand f cid s = .next (s.fatalEnd .addressRange) := by
  have hbuf : ¬ (s.sl < blockSizeOf c ∨ s.dl < blockSizeOf c) := by omega
  have htop : (passesTop s.sa s.sl || passesTop s.d s.dl) = true := by
    rwa [Bool.or_eq_true, passesTop_eq_true, passesTop_eq_true]
  simp only [blockCommand, hc, if_neg hbuf, if_pos htop]
  exact fails_eq_fatalEnd rfl s

theorem blockCommand_of_overlap (hc : s.cipher? cid = some (some c)) (hs : blockSizeOf c ≤ s.sl)
    (hd : blockSizeOf c ≤ s.dl) (hst : s.sa + s.sl ≤ 2 ^ 32) (hdt : s.d + s.dl ≤ 2 ^ 32)
    (h : ¬ identicalOrDisjoint s.d s.sa (blockSizeOf c)) :
    blockCommand f cid s = .next (s.fatalEnd .bufferOverlap) := by
  have hbuf : ¬ (s.sl < blockSizeOf c ∨ s.dl < blockSizeOf c) := by omega
  have htop : ¬ (passesTop s.sa s.sl || passesTop s.d s.dl) = true := by
    simp [passesTop_eq_false.2 hst, passesTop_eq_false.2 hdt]
  simp only [blockCommand, hc, if_neg hbuf, if_neg htop, if_pos (overlapsPartly_eq_true.2 h)]
  exact fails_eq_fatalEnd rfl s

theorem blockCommand_of_operands (hc : s.cipher? cid = some (some c)) (h : BlockOperands c s) :
    blockCommand f cid s = .next
      { s with
        status := s.okStatus
        mem := memWrite s.mem s.d (f c (memRead s.mem s.sa (blockSizeOf c))) } := by
  obtain ⟨hs, hd, hst, hdt, hreg⟩ := h
  have hbuf : ¬ (s.sl < blockSizeOf c ∨ s.dl < blockSizeOf c) := by omega
  simp only [blockCommand, hc, if_neg hbuf, passesTop_eq_false.2 hst, passesTop_eq_false.2 hdt,
    overlapsPartly_eq_false.2 hreg]
  rfl

/-- `ENC` and `DEC` end with `CODE` = 0 only when all checks pass. -/
theorem operands_of_blockCommand_ok {t : State} (h : blockCommand f cid s = .next t) (hok : t.status.code = .ok) :
    ∃ c, s.cipher? cid = some (some c) ∧ BlockOperands c s := by
  obtain ⟨t', h', ⟨code, short, rfl, hr⟩ | ⟨c, hc, hs, hd, hst, hdt, hreg, -⟩⟩ :=
    ends_block (i := .enc cid) (.inl rfl) f s
  · rw [h] at h'
    cases h'
    exact absurd hok hr.code_ne_ok
  · exact ⟨c, hc, hs, hd, hst, hdt, hreg⟩

end

/-! ### One block -/

/-- `ENC` and `DEC` are `blockCommand` with a function that gives whole blocks. -/
theorem exec_eq_blockCommand {i : Instr} {f : Cipher → List Byte → List Byte} {cid : Nat}
    (h : (i = .enc cid ∧ f = encryptBlock) ∨ (i = .dec cid ∧ f = decryptBlock)) (s : State) :
    exec i s = blockCommand f cid s ∧ ∀ c blk, (f c blk).length = blockSizeOf c := by
  rcases h with ⟨rfl, rfl⟩ | ⟨rfl, rfl⟩
  · exact ⟨rfl, length_encryptBlock⟩
  · exact ⟨rfl, length_decryptBlock⟩

/-- Settles O30: the five cases of `blockCommand`; in the last one `m` is memory with the transformed block stored. -/
theorem encAndDecTransformOneBlock : Obligations.EncAndDecTransformOneBlock := by
  intro cid s i f hi
  obtain ⟨hexec, hlen⟩ := exec_eq_blockCommand hi s
  rw [hexec]
  refine ⟨blockCommand_of_no_context, fun c hc => ⟨blockCommand_of_short_buffer hc, blockCommand_of_past_top hc,
    fun hs hd hst hdt ho => blockCommand_of_overlap hc hs hd hst hdt (by simp only [identicalOrDisjoint]; omega),
    fun hm hs hd hst hdt hreg => ?_⟩⟩
  have hop : BlockOperands c s := ⟨hs, hd, hst, hdt, hreg⟩
  have hblk := hlen c (memRead s.mem s.sa (blockSizeOf c))
  exact ⟨_, blockCommand_of_operands hc hop, memRead_memWrite hm hblk hop.dst_block_below_top,
    fun a ha => read_memWrite_outside _ _ _ (hblk.symm ▸ ha)⟩

/-! ### The round trip on the machine -/

/-- Memory with the block at `a` transformed in place (`46_block_capability.md` R314 with `d = s`). -/
def transformBlock (f : Cipher → List Byte → List Byte) (c : Cipher) (a : Nat) (m : Memory) : Memory :=
  memWrite m a (f c (memRead m a (blockSizeOf c)))

section

variable {g f : Cipher → List Byte → List Byte} {cid : Nat} {c : Cipher} {s t : State}

/-- The second transformation reads the block the first one stored, and stores the block that was there before. -/
theorem UndoesBlocks.transformBlock_transformBlock (hgf : UndoesBlocks g f) (hc : c.wf) {m : Memory} (hm : m.wf)
    {a : Nat} (h : a + blockSizeOf c ≤ Config.memSize) : transformBlock g c a (transformBlock f c a m) = m := by
  have hlen := hgf.length c (memRead m a (blockSizeOf c))
  rw [transformBlock, transformBlock, memRead_memWrite hm hlen h, hgf.undo hc (length_memRead ..),
    memWrite_memRead_undoes_memWrite hm hlen h]

theorem blockCommand_in_place (hin : s.argDst = s.argSrc) (hc : s.cipher? cid = some (some c)) (h : BlockOperands c s) :
    blockCommand f cid s = .next { s with status := s.okStatus, mem := transformBlock f c s.d s.mem } := by
  have hsa : s.sa = s.d := congrArg BitVec.toNat hin.symm
  rw [blockCommand_of_operands hc h, hsa, transformBlock]

/-- The descriptors and the slot are the same for the second command, so it passes the same checks. -/
theorem UndoesBlocks.blockCommand_blockCommand (hgf : UndoesBlocks g f) (hinv : s.Inv) (hin : s.argDst = s.argSrc)
    (h : blockCommand f cid s = .next t) (hok : t.status.code = .ok) :
    blockCommand g cid t = .next { s with status := s.okStatus } := by
  obtain ⟨c, hc, hop⟩ := operands_of_blockCommand_ok h hok
  rw [blockCommand_in_place hin hc hop] at h
  cases h
  refine Eq.trans (blockCommand_in_place (c := c) hin ?_ ?_) ?_
  · exact hc
  · exact ⟨hop.src_length, hop.dst_length, hop.src_below_top, hop.dst_below_top, hop.regions⟩
  · have hmem := hgf.transformBlock_transformBlock (hinv.ciphers c (cipher?_mem hc)) hinv.mem hop.dst_block_below_top
    exact congrArg (fun m => Host.Outcome.next { s with status := s.okStatus, mem := m }) hmem

end

/-- Settles O53: each of `ENC` and `DEC` undoes the other on blocks, so it does in memory. -/
theorem encThenDecRestoresMemory : Obligations.EncThenDecRestoresMemory := fun _ _ _ hinv hin hok =>
  ⟨fun h => decryptBlock_undoes_encryptBlock.blockCommand_blockCommand hinv hin h hok,
    fun h => encryptBlock_undoes_decryptBlock.blockCommand_blockCommand hinv hin h hok⟩

end Sys2Proof.Machine
end

/-! PROOFS. `BLKSIZE`, `CDROP` and `SDROP` (`46_block_capability.md` R312, R318; `47_ctr.md` R354): what each answers, in
the terms of the statements. -/
section

namespace Sys2Proof.Machine

/-! ### `BLKSIZE` -/

section

variable {cid : Nat} {s : State}

theorem exec_blksize_of_no_context (h : s.nCipher ≤ cid ∨ s.cipher? cid = some none) :
    exec (.blksize cid) s = .next (s.fatalEnd .invalidContext) := by
  have hnone := cipher?_join_eq_none.2 h
  rcases execBlksize_cases cid s with ⟨-, he⟩ | ⟨c, hc, -⟩
  · rw [← raise_eq_fatalEnd rfl]
    exact he
  · simp [hc] at hnone

theorem exec_blksize_of_loaded {c : Cipher} (hc : s.cipher? cid = some (some c)) :
    exec (.blksize cid) s = .next { s with status := s.okStatus, result := BitVec.ofNat 32 (blockSizeOf c) } := by
  rcases execBlksize_cases cid s with ⟨hnone, -⟩ | ⟨c', hc', he⟩
  · simp [hc] at hnone
  · cases hc.symm.trans hc'
    exact he

end

/-- Settles O29: a loaded slot answers `BlockSizeOf` of its kind. -/
theorem blksizeWritesResult : Obligations.BlksizeWritesResult := fun _ _ =>
  ⟨exec_blksize_of_no_context, fun _ _ _ => exec_blksize_of_loaded, fun _ => exec_blksize_of_loaded,
    fun _ _ _ => exec_blksize_of_loaded⟩

/-! ### `CDROP` and `SDROP` -/

theorem exec_cdrop_of_index_out_of_range {cid : Nat} {s : State} (h : s.nCipher ≤ cid) :
    exec (.cdrop cid) s = .next (s.fatalEnd .invalidContext) :=
  (if_pos h).trans (fails_eq_fatalEnd rfl s)

theorem exec_cdrop_of_index_in_range {cid : Nat} {s : State} (h : cid < s.nCipher) :
    exec (.cdrop cid) s = .next
      { s with status := s.okStatus, ciphers := s.ciphers.set cid none, streams := s.streamsWithout cid } := by
  refine (if_neg (Nat.not_le.2 h)).trans ?_
  rw [dropStreamsOf_eq]
  rfl

theorem exec_sdrop_of_index_out_of_range {sid : Nat} {s : State} (h : s.nStream ≤ sid) :
    exec (.sdrop sid) s = .next (s.fatalEnd .invalidContext) :=
  (if_pos h).trans (fails_eq_fatalEnd rfl s)

theorem exec_sdrop_of_index_in_range {sid : Nat} {s : State} (h : sid < s.nStream) :
    exec (.sdrop sid) s = .next { s with status := s.okStatus, streams := s.streams.set sid none } :=
  if_neg (Nat.not_le.2 h)

/-- The slot is written with what it holds, and the invariant lets no stream be bound to it. -/
theorem exec_cdrop_of_empty {cid : Nat} {s : State} (hinv : s.Inv) (h : s.cipher? cid = some none) :
    exec (.cdrop cid) s = .next { s with status := s.okStatus } := by
  rw [exec_cdrop_of_index_in_range (lt_nCipher_of_cipher? h), set_getElem?_self h, streamsWithout_of_empty hinv h]

theorem exec_sdrop_of_invalid {sid : Nat} {s : State} (h : s.stream? sid = some none) :
    exec (.sdrop sid) s = .next { s with status := s.okStatus } := by
  rw [exec_sdrop_of_index_in_range (lt_nStream_of_stream? h), set_getElem?_self h]

/-- Settles O32: the cases of the two commands, and writing an empty slot with `EMPTY` changes nothing. -/
theorem dropsEmptySlots : Obligations.DropsEmptySlots :=
  ⟨fun _ _ => ⟨exec_cdrop_of_index_out_of_range, exec_cdrop_of_index_in_range, exec_cdrop_of_empty⟩,
    fun _ _ => ⟨exec_sdrop_of_index_out_of_range, exec_sdrop_of_index_in_range, exec_sdrop_of_invalid⟩⟩

end Sys2Proof.Machine
end

/-! PROOFS. `CTRNEW` and `CTRXOR` (`47_ctr.md` R342, R350): what each answers in each of its cases, in the terms of the
statements. -/
section

namespace Sys2Proof.Machine

/-! ### `CTRNEW` -/

section

variable {sid cid : Nat} {s : State}

theorem exec_ctrnew_of_no_context (h : s.nCipher ≤ cid ∨ s.nStream ≤ sid ∨ s.cipher? cid = some none) :
    exec (.ctrnew sid cid) s = .next (s.fatalEnd .invalidContext) := by
  rcases execCtrnew_cases sid cid s with ⟨-, he⟩ | ⟨c, hc, hsid, -⟩
  · rw [← raise_eq_fatalEnd rfl]
    exact he
  · rcases h with h | h | h
    · exact absurd (lt_nCipher_of_cipher? hc) (Nat.not_lt.2 h)
    · exact absurd hsid (Nat.not_lt.2 h)
    · simp [hc] at h

section

variable {c : Cipher} (hc : s.cipher? cid = some (some c)) (hsid : sid < s.nStream)

include hc hsid

/-- On a loaded slot only the length and the extent of the IV are left to check (`47_ctr.md` R342). -/
theorem exec_ctrnew_of_loaded :
    exec (.ctrnew sid cid) s =
      if s.sl ≠ blockSizeOf c then fails .invalidIVLength s
      else if passesTop s.sa s.sl then fails .addressRange s
      else completes (setStream sid (some
        { cid := cid, bs := blockSizeOf c, ctr := memRead s.mem s.sa (blockSizeOf c), out := [], used := 0 }) s) := by
  have hcid := lt_nCipher_of_cipher? hc
  simp only [exec, execCtrnew, hc, if_neg (Nat.not_le.2 hcid), if_neg (Nat.not_le.2 hsid)]

theorem exec_ctrnew_of_wrong_length (hl : s.sl ≠ blockSizeOf c) :
    exec (.ctrnew sid cid) s = .next (s.recoverableEnd .invalidIVLength false) := by
  rw [exec_ctrnew_of_loaded hc hsid, if_pos hl, fails_eq, raise_eq_recoverableEnd rfl]

theorem exec_ctrnew_of_past_top (hl : s.sl = blockSizeOf c) (htop : 2 ^ 32 < s.sa + s.sl) :
    exec (.ctrnew sid cid) s = .next (s.fatalEnd .addressRange) := by
  rw [exec_ctrnew_of_loaded hc hsid, if_neg (not_not.2 hl), if_pos (passesTop_eq_true.2 htop), fails_eq_fatalEnd rfl]

theorem exec_ctrnew_of_checks_pass (hl : s.sl = blockSizeOf c) (htop : s.sa + s.sl ≤ 2 ^ 32) :
    exec (.ctrnew sid cid) s = .next
      { s with
        status := s.okStatus
        streams := s.streams.set sid (some
          { cid := cid, bs := blockSizeOf c, ctr := memRead s.mem s.sa (blockSizeOf c), out := [], used := 0 }) } := by
  have hfit : ¬ passesTop s.sa s.sl = true := by simp [passesTop_eq_false.2 htop]
  rw [exec_ctrnew_of_loaded hc hsid, if_neg (not_not.2 hl), if_neg hfit]
  rfl

end

end

/-- Settles O31: the cases of `CTRNEW`, the extent written with the block size the length is equal to. -/
theorem ctrnewMakesFreshStream : Obligations.CtrnewMakesFreshStream := fun _ _ _ =>
  ⟨exec_ctrnew_of_no_context, fun _ hc hsid => ⟨exec_ctrnew_of_wrong_length hc hsid,
    fun hl htop => exec_ctrnew_of_past_top hc hsid hl (hl.symm ▸ htop),
    fun hl htop => exec_ctrnew_of_checks_pass hc hsid hl (hl.symm ▸ htop)⟩⟩

/-! ### `CTRXOR` -/

/-- The operands of `CTRXOR` pass the checks (`47_ctr.md` R350). -/
structure StreamOperands (s : State) : Prop where
  dst_length : s.sl ≤ s.dl
  src_below_top : s.sa + s.sl ≤ 2 ^ 32
  dst_below_top : s.d + s.dl ≤ 2 ^ 32
  regions : identicalOrDisjoint s.d s.sa s.sl

/-- The bytes to store lie in the address space. -/
theorem StreamOperands.stored_below_top {s : State} (h : StreamOperands s) : s.d + s.sl ≤ Config.memSize :=
  (Nat.add_le_add_left h.dst_length s.d).trans h.dst_below_top

section

variable {sid : Nat} {s : State}

theorem exec_ctrxor_of_no_stream (h : s.nStream ≤ sid ∨ s.stream? sid = some none) :
    exec (.ctrxor sid) s = .next (s.fatalEnd .invalidContext) := by
  have hnone := stream?_join_eq_none.2 h
  rcases execCtrxor_cases sid s with ⟨-, he⟩ | ⟨st, hst, -⟩
  · rw [← raise_eq_fatalEnd rfl]
    exact he
  · simp [hst] at hnone

section

variable {st : Stream} {c : Cipher} (hst : s.stream? sid = some (some st)) (hc : s.cipher? st.cid = some (some c))

include hst hc

theorem exec_ctrxor_of_loaded : exec (.ctrxor sid) s = xorKeyStream sid st c s := by
  simp only [exec, execCtrxor, hst, hc]

theorem exec_ctrxor_of_short_buffer (h : s.dl < s.sl) :
    exec (.ctrxor sid) s = .next (s.fatalEnd .bufferTooSmall) := by
  rw [exec_ctrxor_of_loaded hst hc, xorKeyStream, if_pos h, fails_eq_fatalEnd rfl]

theorem exec_ctrxor_of_operands (h : StreamOperands s) :
    exec (.ctrxor sid) s = .next
      { s with
        status := s.okStatus
        mem := (consume c s.d s.sa s.sl s.sl 0 st s.mem).2
        streams := s.streams.set sid (some (consume c s.d s.sa s.sl s.sl 0 st s.mem).1) } := by
  rw [exec_ctrxor_of_loaded hst hc]
  simp only [xorKeyStream, if_neg (Nat.not_lt.2 h.dst_length), passesTop_eq_false.2 h.src_below_top,
    passesTop_eq_false.2 h.dst_below_top, overlapsPartly_eq_false.2 h.regions]
  rfl

end

/-- `CTRXOR` ends with `CODE` = 0 only on a valid stream of a loaded slot, with all checks passed. -/
theorem loaded_of_ctrxor_ok {t : State} (h : exec (.ctrxor sid) s = .next t) (hok : t.status.code = .ok) :
    ∃ st c, s.stream? sid = some (some st) ∧ s.cipher? st.cid = some (some c) ∧ StreamOperands s := by
  rcases ends_of_exec h with ⟨code, short, rfl, hr⟩ | ⟨u, rfl, st, c, hst, hc, hdl, hs, hd, hreg, -⟩
  · exact absurd hok hr.code_ne_ok
  · exact ⟨st, c, hst, hc, hdl, hs, hd, hreg⟩

end

/-- Settles O60: with no byte to consume the loop ends at once, and the stream slot is written with what it holds. -/
theorem ctrxorOfNothingOnlyCompletes : Obligations.CtrxorOfNothingOnlyCompletes := by
  refine fun sid s hinv hsl => ⟨fun h => exec_ctrxor_of_no_stream (h.imp_left stream?_eq_none.1), fun st hst htop => ?_⟩
  obtain ⟨c, hc, -⟩ := hinv.stream_loaded hst
  have hsrc : s.sa < 2 ^ 32 := s.argSrc.isLt
  have hop : StreamOperands s := ⟨by omega, by omega, htop, hsl ▸ identicalOrDisjoint_zero s.d s.sa⟩
  rw [exec_ctrxor_of_operands hst hc hop, consume_done c st s.mem (Nat.le_of_eq hsl), set_getElem?_self hst]

end Sys2Proof.Machine
end

/-! PROOFS. `CTRXOR` as a function of the position in the keystream (`47_ctr.md` R356, R357). What a `CTRXOR` stores is
said once (`XorsInto`); the laws of chunking and of the self-inverse are laws of it and do not look at the loop again. -/
section

namespace Sys2Proof.Machine

/-! ### What a `CTRXOR` stores -/

/-- The keystream from position `p` on (`47_ctr.md` R356). -/
def keystreamFrom (c : Cipher) (iv : List Byte) (p : Nat) : Nat → Byte := fun i => keystreamByte c iv (p + i)

theorem keystreamFrom_add (c : Cipher) (iv : List Byte) (p a i : Nat) :
    keystreamFrom c iv (p + a) i = keystreamFrom c iv p (a + i) := by
  rw [keystreamFrom, keystreamFrom, Nat.add_assoc]

/-- `m'` is `m` with `dst[i] = src[i] ^ ks[i]` for the `n` bytes at `d` and at `s`, every other byte as it was. -/
structure XorsInto (ks : Nat → Byte) (d s n : Nat) (m m' : Memory) : Prop where
  inside : ∀ i, i < n → m'.read (d + i) = m.read (s + i) ^^^ ks i
  outside : ∀ a, a < d ∨ d + n ≤ a → m'.read a = m.read a

namespace XorsInto

variable {ks : Nat → Byte} {d s n a b : Nat} {m m' m'' : Memory}

/-- With no byte to store the addresses do not matter. -/
theorem of_zero (h : XorsInto ks d s 0 m m') (d' s' : Nat) : XorsInto ks d' s' 0 m m' where
  inside i hi := absurd hi (Nat.not_lt_zero i)
  outside x _ := h.outside x (Nat.lt_or_ge x d)

theorem unique (h : XorsInto ks d s n m m') (h' : XorsInto ks d s n m m'') (hw : m'.wf) (hw' : m''.wf) : m' = m'' := by
  refine eq_of_read_eq hw hw' fun x => ?_
  by_cases hx : x < d ∨ d + n ≤ x
  · rw [h.outside x hx, h'.outside x hx]
  · obtain ⟨i, rfl⟩ : ∃ i, x = d + i := ⟨x - d, by omega⟩
    rw [h.inside i (by omega), h'.inside i (by omega)]

/-- `a` bytes and then `b` bytes on the next addresses: the source bytes of the second part are still those of before. -/
theorem append (h : XorsInto ks d s a m m') (h' : XorsInto (fun i => ks (a + i)) (d + a) (s + a) b m' m'')
    (hreg : identicalOrDisjoint d s (a + b)) : XorsInto ks d s (a + b) m m'' where
  inside i hi := by
    simp only [identicalOrDisjoint] at hreg
    by_cases hia : i < a
    · rw [h'.outside _ (by omega), h.inside i hia]
    · obtain ⟨j, rfl⟩ : ∃ j, i = a + j := ⟨i - a, by omega⟩
      rw [← Nat.add_assoc, h'.inside j (by omega), Nat.add_assoc, h.outside _ (by omega)]
  outside x hx := by rw [h'.outside x (by omega), h.outside x (by omega)]

/-- The same keystream a second time, over what the first one stored, gives the first source back. -/
theorem cancel {d' : Nat} (h : XorsInto ks d s n m m') (h' : XorsInto ks d' d n m' m'') {i : Nat} (hi : i < n) :
    m''.read (d' + i) = m.read (s + i) := by
  rw [h'.inside i hi, h.inside i hi, BitVec.xor_assoc, BitVec.xor_self, BitVec.xor_zero]

end XorsInto

/-- `CTRXOR` in the state `s` on a stream at position `p` consumes `sl` keystream bytes: `m` and `st'` are memory and the
stream afterwards (`47_ctr.md` R356). -/
structure Xored (c : Cipher) (iv : List Byte) (p : Nat) (s : State) (st : Stream) (m : Memory) (st' : Stream) :
    Prop where
  wf : m.wf
  stored : XorsInto (keystreamFrom c iv p) s.d s.sa s.sl s.mem m
  cid_eq : st'.cid = st.cid
  moved : st'.At c iv (p + s.sl)

section

variable {sid p : Nat} {st : Stream} {c : Cipher} {iv : List Byte} {s : State} (hm : s.mem.wf)
  (hst : s.stream? sid = some (some st)) (hc : s.cipher? st.cid = some (some c)) (hat : st.At c iv p)

include hm hst hc hat

theorem exec_ctrxor_xored (hop : StreamOperands s) :
    ∃ m st', exec (.ctrxor sid) s =
      .next { s with status := s.okStatus, mem := m, streams := s.streams.set sid (some st') } ∧
      Xored c iv p s st m st' := by
  have hstored : XorsInto (keystreamFrom c iv p) s.d s.sa s.sl s.mem (consume c s.d s.sa s.sl s.sl 0 st s.mem).2 :=
    ⟨fun _ hi => read_consume_inside s.sl hat hm hop.stored_below_top hop.regions (Nat.sub_le ..) (Nat.zero_le _) hi,
      fun _ ha => read_consume_outside _ _ _ _ _ _ _ _ ha⟩
  exact ⟨_, _, exec_ctrxor_of_operands hst hc hop, wf_consume c _ _ st hm hop.stored_below_top, hstored,
    consume_cid .., consume_At s.sl hat (Nat.sub_le ..) (Nat.zero_le _)⟩

/-- The state after a completed `CTRXOR`. -/
theorem xored_of_ctrxor_ok {t : State} (h : exec (.ctrxor sid) s = .next t) (hok : t.status.code = .ok) :
    ∃ m st', t = { s with status := s.okStatus, mem := m, streams := s.streams.set sid (some st') } ∧
      Xored c iv p s st m st' := by
  obtain ⟨-, -, -, -, hop⟩ := loaded_of_ctrxor_ok h hok
  obtain ⟨m, st', he, hx⟩ := exec_ctrxor_xored hm hst hc hat hop
  exact ⟨m, st', Host.Outcome.next.inj (h.symm.trans he), hx⟩

end

/-- Settles O56: a stream just made is at position 0, and `CTRXOR` moves along the keystream as `Xored` says. -/
theorem streamConsumesKeystream : Obligations.StreamConsumesKeystream := by
  refine ⟨fun sid cid c s hc hsid hl htop => ?_, fun sid p st c iv s hm hst hc hat hdl hs hd hreg => ?_⟩
  · have hfresh := Stream.At.fresh (length_memRead s.mem s.sa (blockSizeOf c)) cid
    refine ⟨_, _, exec_ctrnew_of_checks_pass hc hsid hl htop, List.getElem?_set_self hsid, rfl, ?_⟩
    rwa [hl]
  · obtain ⟨m, st', he, hx⟩ := exec_ctrxor_xored hm hst hc hat ⟨hdl, hs, hd, hreg⟩
    exact ⟨m, st', he, hx.cid_eq, hx.moved, hx.stored.inside, hx.stored.outside⟩

/-! ### Chunking -/

/-- `s` with the operands of a `CTRXOR` of `n` bytes from `src` to `dst`. -/
def State.withOperands (s : State) (src dst n : Nat) : State :=
  { s with
    argSrc := BitVec.ofNat 32 src
    argSlen := BitVec.ofNat 32 n
    argDst := BitVec.ofNat 32 dst
    argDlen := BitVec.ofNat 32 n }

/-- The `n`-byte regions of a `CTRXOR` lie below the top of memory and do not partially overlap. -/
structure RegionsInOrder (src dst n : Nat) : Prop where
  length_lt : n < 2 ^ 32
  src_below_top : src + n ≤ 2 ^ 32
  dst_below_top : dst + n ≤ 2 ^ 32
  regions : identicalOrDisjoint dst src n

namespace RegionsInOrder

variable {src dst n : Nat} (h : RegionsInOrder src dst n) (s : State)

include h

theorem withOperands_sl : (s.withOperands src dst n).sl = n := Nat.mod_eq_of_lt h.length_lt

theorem withOperands_dl : (s.withOperands src dst n).dl = n := Nat.mod_eq_of_lt h.length_lt

theorem withOperands_sa (hn : 0 < n) : (s.withOperands src dst n).sa = src :=
  Nat.mod_eq_of_lt ((Nat.lt_add_of_pos_right hn).trans_le h.src_below_top)

theorem withOperands_d (hn : 0 < n) : (s.withOperands src dst n).d = dst :=
  Nat.mod_eq_of_lt ((Nat.lt_add_of_pos_right hn).trans_le h.dst_below_top)

/-- An address just past the top wraps to 0, which only an empty region can have. -/
theorem streamOperands : StreamOperands (s.withOperands src dst n) := by
  rcases Nat.eq_zero_or_pos n with rfl | hn
  · exact ⟨Nat.le_refl _, Nat.le_of_lt (BitVec.isLt _), Nat.le_of_lt (BitVec.isLt _), identicalOrDisjoint_zero _ _⟩
  · refine ⟨?_, ?_, ?_, ?_⟩ <;>
      simp only [h.withOperands_sl, h.withOperands_dl, h.withOperands_sa s hn, h.withOperands_d s hn]
    · exact Nat.le_refl n
    · exact h.src_below_top
    · exact h.dst_below_top
    · exact h.regions

theorem stored {ks : Nat → Byte} {m m' : Memory}
    (hx : XorsInto ks (s.withOperands src dst n).d (s.withOperands src dst n).sa (s.withOperands src dst n).sl m m') :
    XorsInto ks dst src n m m' := by
  rw [h.withOperands_sl] at hx
  rcases Nat.eq_zero_or_pos n with rfl | hn
  · exact hx.of_zero dst src
  · rwa [h.withOperands_sa s hn, h.withOperands_d s hn] at hx

/-- The two parts of a region of `a + b` bytes. -/
theorem take {a b : Nat} (hn : n = a + b) : RegionsInOrder src dst a := by
  obtain ⟨hlt, hs, hd, hreg⟩ := h
  simp only [identicalOrDisjoint] at hreg
  exact ⟨by omega, by omega, by omega, by simp only [identicalOrDisjoint]; omega⟩

theorem drop {a b : Nat} (hn : n = a + b) : RegionsInOrder (src + a) (dst + a) b := by
  obtain ⟨hlt, hs, hd, hreg⟩ := h
  simp only [identicalOrDisjoint] at hreg
  exact ⟨by omega, by omega, by omega, by simp only [identicalOrDisjoint]; omega⟩

end RegionsInOrder

theorem StreamOperands.regionsInOrder {s : State} (h : StreamOperands s) : RegionsInOrder s.sa s.d s.sl :=
  ⟨s.argSlen.isLt, h.src_below_top, h.stored_below_top, h.regions⟩

/-- The first `n` bytes of the regions `s` names. -/
theorem withOperands_self (s : State) (n : Nat) :
    s.withOperands s.sa s.d n = { s with argSlen := BitVec.ofNat 32 n, argDlen := BitVec.ofNat 32 n } := by
  simp [State.withOperands, State.sa, State.d]

/-- The slot `sid` of `s` is a stream of the cipher context `c` and the IV `iv` at position `p` (`47_ctr.md` R356). -/
structure State.StreamAt (s : State) (sid : Nat) (c : Cipher) (iv : List Byte) (p : Nat) : Prop where
  mem_wf : s.mem.wf
  valid : ∃ st, s.stream? sid = some (some st) ∧ s.cipher? st.cid = some (some c) ∧ st.At c iv p

/-- A `CTRXOR` of `n` bytes with regions in order stores `n` keystream bytes and leaves the stream `n` bytes further, for
the next one. -/
theorem State.StreamAt.exec_ctrxor {s : State} {sid : Nat} {c : Cipher} {iv : List Byte} {p : Nat}
    (h : s.StreamAt sid c iv p) {src dst n : Nat} (hr : RegionsInOrder src dst n) :
    ∃ t, exec (.ctrxor sid) (s.withOperands src dst n) = .next t ∧ t.status.code = .ok ∧
      XorsInto (keystreamFrom c iv p) dst src n s.mem t.mem ∧ t.StreamAt sid c iv (p + n) := by
  obtain ⟨hm, st, hst, hc, hat⟩ := h
  obtain ⟨m, st', he, hx⟩ :=
    exec_ctrxor_xored (s := s.withOperands src dst n) hm hst hc hat (hr.streamOperands s)
  have hmoved := hx.moved
  rw [hr.withOperands_sl] at hmoved
  exact ⟨_, he, rfl, hr.stored s hx.stored, hx.wf, st', List.getElem?_set_self (lt_nStream_of_stream? hst),
    by rw [hx.cid_eq]; exact hc, hmoved⟩

/-- Settles O58: both chunks complete, the second one on the stream where the first one left it, and together they store
what the whole does (`XorsInto.append`). -/
theorem ctrxorChunkingAndPrefix : Obligations.CtrxorChunkingAndPrefix := by
  intro sid a b s t hinv hsl h hok
  obtain ⟨st, -, hst, -, hop⟩ := loaded_of_ctrxor_ok h hok
  obtain ⟨c, iv, p, hc, hat⟩ := hinv.streams st (stream?_mem hst)
  obtain ⟨m, st', rfl, hx⟩ := xored_of_ctrxor_ok hinv.mem hst hc hat h hok
  have hat0 : s.StreamAt sid c iv p := ⟨hinv.mem, st, hst, hc, hat⟩
  have hr := hop.regionsInOrder
  obtain ⟨t1, he1, hok1, hx1, hat1⟩ := hat0.exec_ctrxor (hr.take hsl)
  obtain ⟨t2, he2, hok2, hx2, hat2⟩ := hat1.exec_ctrxor (hr.drop hsl)
  have hwhole : XorsInto (keystreamFrom c iv p) s.d s.sa (a + b) s.mem m := hsl ▸ hx.stored
  have hparts : XorsInto (keystreamFrom c iv p) s.d s.sa (a + b) s.mem t2.mem :=
    hx1.append (by simpa only [← keystreamFrom_add] using hx2) (hsl ▸ hop.regions)
  refine ⟨t1, t2, withOperands_self s a ▸ he1, he2, hok1, hok2, hparts.unique hwhole hat2.mem_wf hx.wf, fun i hi => ?_⟩
  calc t1.mem.read (s.d + i) = s.mem.read (s.sa + i) ^^^ keystreamFrom c iv p i := hx1.inside i hi
    _ = m.read (s.d + i) := (hwhole.inside i (by omega)).symm

/-! ### The self-inverse -/

/-- Settles O59: the first `CTRXOR` leaves the second stream at position 0, where the keystream is the same
(`XorsInto.cancel`). -/
theorem ctrxorIsSelfInverse : Obligations.CtrxorIsSelfInverse := by
  intro sid sid' st st' c iv dst dlen s t hinv hne hst hst' hc hc' hat hat' h hok hdl htop hreg
  obtain ⟨-, -, -, -, hop⟩ := loaded_of_ctrxor_ok h hok
  obtain ⟨m, st1, rfl, hx⟩ := xored_of_ctrxor_ok hinv.mem hst hc hat h hok
  obtain ⟨m2, st2, he, hx2⟩ := exec_ctrxor_xored (sid := sid') (st := st')
    (s := { s with
      status := s.okStatus
      mem := m
      streams := s.streams.set sid (some st1)
      argSrc := s.argDst
      argDst := dst
      argDlen := dlen })
    hx.wf ((List.getElem?_set_ne hne).trans hst') hc' hat' ⟨hdl, hop.stored_below_top, htop, hreg⟩
  exact ⟨_, he, rfl, fun i hi => hx.stored.cancel hx2.stored hi⟩

end Sys2Proof.Machine
end

/-! PROOFS. The counter and the keystream buffer (`47_ctr.md` R340, R346, R348, R350): the increment as arithmetic, the
buffer after a refill, and the hidden state after a whole `CTRXOR`. -/
section

namespace Sys2Proof.Machine

/-! ### The increment -/

theorem beNat_append_singleton (bs : List Byte) (b : Byte) : beNat (bs ++ [b]) = 256 * beNat bs + b.toNat := by
  simp [beNat]

theorem beNat_lt (bs : List Byte) : beNat bs < 2 ^ (8 * bs.length) := by
  induction bs using List.reverseRecOn with
  | nil => decide
  | append_singleton bs b ih =>
    have hb := b.isLt
    rw [beNat_append_singleton, List.length_append, List.length_singleton, Nat.mul_succ, Nat.pow_add]
    omega

/-- The carry goes on exactly behind a byte 0xFF (`47_ctr.md` R340). -/
theorem beNat_incFromLast (bs : List Byte) :
    beNat (incFromLast bs).reverse = (beNat bs.reverse + 1) % 2 ^ (8 * bs.length) := by
  induction bs with
  | nil => rfl
  | cons b bs ih =>
    have hpow : 2 ^ (8 * (b :: bs).length) = 256 * 2 ^ (8 * bs.length) := by
      rw [List.length_cons, Nat.mul_succ, Nat.pow_add, Nat.mul_comm]
    rw [incFromLast, hpow, List.reverse_cons, beNat_append_singleton]
    split
    · next hb =>
      have hff : b.toNat = 255 := by bv_omega
      rw [List.reverse_cons, beNat_append_singleton, hb, ih, hff, Nat.add_assoc, ← Nat.mul_succ, Nat.mul_mod_mul_left]
      rfl
    · next hb =>
      have hsucc : (b + 1).toNat = b.toNat + 1 := by bv_omega
      have hlt := beNat_lt bs.reverse
      rw [List.length_reverse] at hlt
      have hb := b.isLt
      have hb' := (b + 1).isLt
      rw [List.reverse_cons, beNat_append_singleton, hsucc, Nat.mod_eq_of_lt (by omega), Nat.add_assoc]

/-- Settles O54: the bytes from the last one on are the digits of the counter, lowest first. -/
theorem ctrIncIsModular : Obligations.CtrIncIsModular := by
  intro ctr
  refine ⟨length_ctrInc ctr, ?_⟩
  rw [ctrInc, beNat_incFromLast, List.reverse_reverse, List.length_reverse]

/-! ### Refill -/

/-- Whole blocks fill an empty buffer exactly (`47_ctr.md` R348). -/
theorem blockSizeOf_mul_div (c : Cipher) : blockSizeOf c * (512 / blockSizeOf c) = 512 := by
  rcases blockSizeOf_cases c with h | h <;> rw [h]

theorem refill_fill_of_drained {c : Cipher} {st : Stream} (hbs : st.bs = blockSizeOf c)
    (h : st.fill - st.used = 0) : (refill c st).fill = 512 := by
  rw [refill_fill hbs, h, hbs, Nat.zero_add, Nat.sub_zero, blockSizeOf_mul_div]

/-- Settles O55: the tail that was left and the generated blocks, one after the other. -/
theorem refillState : Obligations.RefillState := by
  intro c st hbs hused hfill hlow
  obtain ⟨hle, hroom⟩ := refill_fill_le hbs hfill
  refine ⟨refill_used c st, refill_fill hbs, hle, hroom, refill_fill_of_drained hbs, refill_ctr c st, refill_cid c st,
    refill_bs c st, fun j => refill_tail c st, fun b j hb hj => ?_⟩
  rw [Nat.add_assoc, refill_generated, hbs, byteAt_keystreamBlocks c st.ctr (hbs ▸ hb) (hbs ▸ hj)]

/-! ### The buffer after the last refill -/

/-- The whole buffer of `st`, consumed bytes included, is the keystream from position `q` on. -/
def Stream.BufferAt (c : Cipher) (iv : List Byte) (q : Nat) (st : Stream) : Prop :=
  ∀ j, j < st.fill → byteAt st.out j = keystreamByte c iv (q + j)

/-- A refill leaves no byte consumed, so all of the buffer is pending keystream. -/
theorem Stream.At.bufferAt_refill {c : Cipher} {iv : List Byte} {p : Nat} {st : Stream} (h : st.At c iv p) :
    (Machine.refill c st).BufferAt c iv p := by
  intro j hj
  have hpending := h.refill.pending j hj
  rwa [refill_used, Nat.zero_add] at hpending

/-- The counter has advanced by the blocks between the ends of the two buffers (`47_ctr.md` R356). -/
theorem Stream.At.ctr_eq_ctrAdd {c : Cipher} {iv : List Byte} {p p' n : Nat} {st st' : Stream} (h : st.At c iv p)
    (h' : st'.At c iv p')
    (hn : p' + (st'.fill - st'.used) = p + (st.fill - st.used) + blockSizeOf c * n) : st'.ctr = ctrAdd st.ctr n := by
  rw [h'.ctr_eq, h.ctr_eq, hn, Nat.add_mul_div_left _ _ (blockSizeOf_pos c), ctrAdd_add]

/-! ### The passes of the loop -/

/-- The number of unconsumed bytes one pass of the loop has, after its refill if it makes one (`47_ctr.md` R350). -/
def passBytes (c : Cipher) (st : Stream) : Nat := (refillIfLow c st).fill - (refillIfLow c st).used

/-- The stream after a pass that takes all of them. -/
def drained (c : Cipher) (st : Stream) : Stream :=
  { refillIfLow c st with used := (refillIfLow c st).used + passBytes c st }

theorem drained_empty (c : Cipher) (st : Stream) : (drained c st).fill - (drained c st).used = 0 := by
  show (refillIfLow c st).fill - ((refillIfLow c st).used + ((refillIfLow c st).fill - (refillIfLow c st).used)) = 0
  omega

section

variable {c : Cipher} {d s sl i : Nat} (fuel : Nat) (st : Stream) (m : Memory)

/-- The pass that has all the bytes still needed is the last one. -/
theorem consume_last_pass (hi : i < sl) (h : sl - i ≤ passBytes c st) :
    (consume c d s sl (fuel + 1) i st m).1 =
      { refillIfLow c st with used := (refillIfLow c st).used + (sl - i) } := by
  rw [consume_pass c fuel st m hi, ← passBytes, Nat.min_eq_left h, consume_done c _ _ (by omega)]

/-- Every other pass drains the buffer. -/
theorem consume_draining_pass (h : passBytes c st < sl - i) :
    ∃ m', consume c d s sl (fuel + 1) i st m = consume c d s sl fuel (i + passBytes c st) (drained c st) m' := by
  rw [consume_pass c fuel st m (by omega), ← passBytes, Nat.min_eq_right (Nat.le_of_lt h)]
  exact ⟨_, rfl⟩

end

/-- What the loop leaves of the stream when it used `n` bytes of a buffer of 512, filled at position `q`. -/
structure LastRefill (c : Cipher) (iv : List Byte) (q n : Nat) (st : Stream) : Prop where
  fill : st.fill = 512
  used : st.used = n
  buffer : st.BufferAt c iv q

section

variable {c : Cipher} {iv : List Byte} {p : Nat} {st : Stream} (h : st.At c iv p)

include h

theorem at_drained : (drained c st).At c iv (p + passBytes c st) := h.refillIfLow.advance (Nat.le_refl _)

/-- From an empty buffer on every pass refills it with 512 bytes; the last refill is at the largest multiple of 512 below
the length that was left (`47_ctr.md` R350). -/
theorem lastRefill_of_empty (hempty : st.fill - st.used = 0) {d s sl fuel i : Nat} (m : Memory) (hi : i < sl)
    (hf : sl - i ≤ fuel) :
    LastRefill c iv (p + 512 * ((sl - i - 1) / 512)) (sl - i - 512 * ((sl - i - 1) / 512))
      (consume c d s sl fuel i st m).1 := by
  induction fuel generalizing i p st m with
  | zero => omega
  | succ fuel ih =>
    have hlow : refillIfLow c st = refill c st := if_pos (by rw [hempty, h.bs_eq]; exact blockSizeOf_pos c)
    have hfill : (refill c st).fill = 512 := refill_fill_of_drained h.bs_eq hempty
    have hbytes : passBytes c st = 512 := by rw [passBytes, hlow, hfill, refill_used]
    by_cases hlast : sl - i ≤ 512
    · have hzero : (sl - i - 1) / 512 = 0 := Nat.div_eq_of_lt (by omega)
      rw [consume_last_pass fuel st m hi (by rwa [hbytes]), hzero, hlow]
      exact ⟨hfill, by rw [refill_used, Nat.zero_add]; rfl, h.bufferAt_refill⟩
    · obtain ⟨m', hpass⟩ := consume_draining_pass (c := c) (d := d) (s := s) (i := i) (sl := sl) fuel st m
        (by omega)
      have hrest := ih (at_drained h) (drained_empty c st) (i := i + passBytes c st) m' (by omega) (by omega)
      have hpos : p + passBytes c st + 512 * ((sl - (i + passBytes c st) - 1) / 512) =
          p + 512 * ((sl - i - 1) / 512) := by omega
      have hlen : sl - (i + passBytes c st) - 512 * ((sl - (i + passBytes c st) - 1) / 512) =
          sl - i - 512 * ((sl - i - 1) / 512) := by omega
      rwa [hpos, hlen, ← hpass] at hrest

end

/-! ### The hidden state after `CTRXOR` -/

/-- The bytes of the first pass: those on entry, and whole blocks when fewer than one block was there. -/
theorem passBytes_eq {c : Cipher} {st : Stream} (hbs : st.bs = blockSizeOf c) :
    passBytes c st = (st.fill - st.used) +
      st.bs * (if st.fill - st.used < st.bs then (512 - (st.fill - st.used)) / st.bs else 0) := by
  unfold passBytes refillIfLow
  split
  · rw [refill_fill hbs, refill_used, Nat.sub_zero]
  · rfl

theorem consume_in_first_pass {c : Cipher} {st : Stream} {sl : Nat} (hsl : 0 < sl) (h : sl ≤ passBytes c st)
    (d s : Nat) (m : Memory) :
    (consume c d s sl sl 0 st m).1 = { refillIfLow c st with used := (refillIfLow c st).used + sl } := by
  obtain ⟨fuel, rfl⟩ : ∃ fuel, sl = fuel + 1 := ⟨sl - 1, by omega⟩
  exact consume_last_pass fuel st m hsl h

/-- A first pass that drains the buffer leaves the rest of the length to the loop on an empty one. -/
theorem lastRefill_of_drained {c : Cipher} {iv : List Byte} {p : Nat} {st : Stream} (h : st.At c iv p) {sl : Nat}
    (hsl : passBytes c st < sl) (d s : Nat) (m : Memory) :
    LastRefill c iv (p + passBytes c st + 512 * ((sl - passBytes c st - 1) / 512))
      (sl - passBytes c st - 512 * ((sl - passBytes c st - 1) / 512)) (consume c d s sl sl 0 st m).1 := by
  obtain ⟨fuel, rfl⟩ : ∃ fuel, sl = fuel + 1 := ⟨sl - 1, by omega⟩
  obtain ⟨m', hpass⟩ := consume_draining_pass (c := c) (d := d) (s := s) (i := 0) (sl := fuel + 1) fuel st m hsl
  have hpos : 0 < passBytes c st :=
    (h.bs_eq ▸ blockSizeOf_pos c).trans_le (bs_le_refillIfLow h.bs_eq h.fill_le)
  rw [Nat.zero_add] at hpass
  rw [hpass]
  exact lastRefill_of_empty (at_drained h) (drained_empty c st) m' hsl (by omega)

/-- Settles O57: the loop ends in its first pass, or drains the buffer there and goes on from an empty one
(`lastRefill_of_drained`); the counter follows from the position and the bytes left (`Stream.At.ctr_eq_ctrAdd`). -/
theorem ctrxorHiddenState : Obligations.CtrxorHiddenState := by
  intro sid p rem first blocks st st' c iv s t hst hc hat h hok hst' hsl hrem hblocks hfirst
  obtain ⟨-, -, -, -, hop⟩ := loaded_of_ctrxor_ok h hok
  rw [exec_ctrxor_of_operands hst hc hop] at h
  obtain rfl : (consume c s.d s.sa s.sl s.sl 0 st s.mem).1 = st' := by
    obtain rfl := Host.Outcome.next.inj h
    have hset := (List.getElem?_set_self (lt_nStream_of_stream? hst)).symm.trans hst'
    exact Option.some.inj (Option.some.inj hset)
  have hbytes : passBytes c st = first := by rw [passBytes_eq hat.bs_eq, hfirst, hblocks, hrem]
  refine ⟨consume_cid .., consume_bs .., fun hle hhigh => ?_, fun hle hlow => ?_, fun hlt => ?_⟩
  · have hnone : refillIfLow c st = st := if_neg (by omega)
    rw [consume_in_first_pass hsl (hbytes ▸ hle), hnone]
  · have hrefill : refillIfLow c st = refill c st := if_pos (hrem ▸ hlow)
    have hfill : (refill c st).fill = first := by
      rw [← hbytes, passBytes, hrefill, refill_used, Nat.sub_zero]
    rw [consume_in_first_pass hsl (hbytes ▸ hle), hrefill, hblocks, if_pos hlow, hrem]
    exact ⟨hfill, Nat.zero_add _, rfl, hat.bufferAt_refill⟩
  · have hlast := lastRefill_of_drained hat (hbytes ▸ hlt) s.d s.sa s.mem
    have hend := consume_At (d := s.d) (s := s.sa) (m := s.mem) s.sl hat (Nat.sub_le ..) (Nat.zero_le _)
    generalize (consume c s.d s.sa s.sl s.sl 0 st s.mem).1 = r at hlast hend
    obtain ⟨hfill, hused, hbuf⟩ := hlast
    rw [hbytes] at hused hbuf
    refine ⟨hfill, hused, hat.ctr_eq_ctrAdd hend ?_, fun j hj => ?_⟩
    · have hmul : blockSizeOf c * (512 / st.bs) = 512 := by rw [hat.bs_eq, blockSizeOf_mul_div]
      have hblk : blockSizeOf c * blocks = first - rem := by rw [← hat.bs_eq]; omega
      rw [Nat.mul_add, Nat.mul_left_comm, hmul, hblk]
      omega
    · rw [hbuf j hj]
      congr 1
      omega

end Sys2Proof.Machine
end

/-! PROOFS. The errors of the engine (`60_exceptions.md` R400 to R415). Which error a command ends with is known from the
two ways a command ends (`exec_ends`): an error has its `Reason`, and a completing command has passed every check. -/
section

namespace Sys2Proof.Machine

/-! ### From the code back to its cause -/

/-- What must have been the case in `s` for the command `i` to end with a code (`60_exceptions.md` R406 to R412): the
check that raises it has failed. No command raises `InvalidOpcode`. -/
def State.causeOf (s : State) (i : Instr) : Code → Prop
  | .ok => True
  | .invalidKeySize => s.wrongKeyLength i
  | .invalidIVLength => s.wrongIVLength i
  | .bufferTooSmall => s.shortBuffer i
  | .invalidOpcode => False
  | .invalidContext => s.indexOutOfRange i ∨ s.slotEmpty i ∨
      ∃ sid st, i = .ctrxor sid ∧ s.stream? sid = some (some st) ∧ (s.cipher? st.cid).join = none
  | .addressRange => s.extentPastTop i
  | .bufferOverlap => s.partialOverlap i

theorem Reason.cause {s : State} {i : Instr} {code : Code} {short : Bool} (h : Reason s i code short) :
    s.causeOf i code := by
  rcases h with ⟨rfl, -, h⟩ | ⟨rfl, -, h, -⟩ | ⟨rfl, -, -, -, h⟩ | ⟨rfl, -, -, -, h⟩ | ⟨rfl, -, -, -, -, -, -, h⟩ |
    ⟨rfl, -, -, -, -, -, -, -, h⟩
  all_goals exact h

section

variable {i : Instr} {s t : State} (h : exec i s = .next t)

include h

theorem cause_of_code (code : Code) (hcode : t.status.code = code) : s.causeOf i code := by
  subst hcode
  rcases ends_of_exec h with ⟨code, short, rfl, hr⟩ | ⟨u, rfl, -⟩
  · exact hr.cause
  · exact True.intro

/-- The invariant leaves out the stream whose cipher slot is `EMPTY`. -/
theorem no_context_of_code (hinv : s.Inv) (hcode : t.status.code = .invalidContext) :
    s.indexOutOfRange i ∨ s.slotEmpty i := by
  rcases cause_of_code h .invalidContext hcode with hx | he | ⟨sid, st, -, hst, hempty⟩
  · exact .inl hx
  · exact .inr he
  · obtain ⟨c, hc, -⟩ := hinv.stream_loaded hst
    simp [hc] at hempty

/-- A command that ends with a `CODE` other than `OK` has rewritten `STATUS` and nothing else (`60_exceptions.md` R404,
R405). -/
theorem eq_withStatus_of_error (hne : t.status.code ≠ .ok) : t = { s with status := t.status } := by
  rcases ends_of_exec h with ⟨code, short, rfl, -⟩ | ⟨u, rfl, -⟩
  · rfl
  · exact absurd rfl hne

end

/-! ### From the cause to the code -/

/-- A command that can only end with the fatal error `code` ends with it, and changes nothing but `STATUS`. -/
theorem exec_eq_fatalEnd {i : Instr} {s : State} {code : Code} (hfatal : code.isFatal = true)
    (h : ∀ t, exec i s = .next t → t.status.code = code) : exec i s = .next (s.fatalEnd code) := by
  obtain ⟨t, he, ⟨code', short, rfl, hr⟩ | ⟨u, rfl, -⟩⟩ := exec_ends i s
  · obtain rfl : code' = code := h _ he
    cases short with
    | false => rw [he, raise_eq_fatalEnd hfatal]
    | true =>
      obtain ⟨rfl, -⟩ := hr.short_iff.1 rfl
      cases hfatal
  · rw [← h _ he] at hfatal
    cases hfatal

/-- The two context checks come first: no reason of another error and no effect is there when one of them fails. -/
theorem code_of_no_context {i : Instr} {s t : State} (h : s.indexOutOfRange i ∨ s.slotEmpty i)
    (he : exec i s = .next t) : t.status.code = .invalidContext := by
  rcases ends_of_exec he with ⟨code, short, rfl, hr⟩ | ⟨u, rfl, hu⟩
  · rcases hr with ⟨rfl, -⟩ | ⟨-, hx, hk, -⟩ | ⟨-, -, hx, hs, -⟩ | ⟨-, -, hx, hs, -⟩ | ⟨-, -, hx, hs, -⟩ |
      ⟨-, -, hx, hs, -⟩
    · rfl
    · exact absurd h (not_or.2 ⟨hx, not_slotEmpty_of_wrongKeyLength hk⟩)
    all_goals exact absurd h (not_or.2 ⟨hx, hs⟩)
  · have hx := hu.checks_pass (s.indexOutOfRange i, .invalidContext) (by simp [State.checks])
    have hs := hu.checks_pass (s.slotEmpty i, .invalidContext) (by simp [State.checks])
    exact absurd h (not_or.2 ⟨hx, hs⟩)

/-- Settles O24: the context checks decide first, and without a stream on an `EMPTY` slot nothing else raises the
error. -/
theorem invalidContextIsFatal : Obligations.InvalidContextIsFatal :=
  ⟨fun _ _ h => exec_eq_fatalEnd rfl fun _ => code_of_no_context h, rfl, rfl,
    fun _ _ _ hinv h => no_context_of_code h hinv,
    fun _ _ h => ⟨_, exec_cdrop_of_index_in_range (lt_nCipher_of_cipher? h), rfl⟩,
    fun _ _ h => ⟨_, exec_sdrop_of_invalid h, rfl⟩⟩

/-- Settles O22: the length checks of the construction commands, and the reason of either error. -/
theorem constructionLengthErrors : Obligations.ConstructionLengthErrors := by
  refine ⟨fun cid s hc => ⟨fun hl => ?_, fun hl => ?_, exec_tdeskey_of_wrong_length hc⟩,
    fun sid cid c s hsid hc => exec_ctrnew_of_wrong_length hc hsid, rfl, rfl, rfl, rfl,
    fun i s t h => cause_of_code h .invalidKeySize, fun i s t h => cause_of_code h .invalidIVLength⟩
  · rw [exec_aeskey]
    exact keyCommand_of_illegal_length hc (Bool.eq_false_iff.2 (mt aesKeyLength_eq_true.1 hl))
  · rw [exec_deskey]
    exact keyCommand_of_illegal_length hc (beq_false_of_ne hl)

/-- Settles O23: the buffer checks of the three commands, and the reason of the error; with the invariant a valid stream
has a loaded cipher slot. -/
theorem bufferTooSmallIsFatal : Obligations.BufferTooSmallIsFatal := by
  refine ⟨fun cid c s hc h => ⟨blockCommand_of_short_buffer hc h, blockCommand_of_short_buffer hc h⟩,
    fun sid st s hinv hst h => ?_, rfl, rfl, fun i s t h => cause_of_code h .bufferTooSmall⟩
  obtain ⟨c, hc, -⟩ := hinv.stream_loaded hst
  exact exec_ctrxor_of_short_buffer hst hc h

/-- Partial overlap in the terms of `20_memory.md` R66. -/
theorem partialOverlap_iff (s : State) (i : Instr) :
    s.partialOverlap i ↔
      0 < s.touched i ∧ s.d ≠ s.sa ∧ s.d < s.sa + s.touched i ∧ s.sa < s.d + s.touched i := by
  simp only [State.partialOverlap, identicalOrDisjoint]
  omega

/-- Settles O25: with the earlier checks passed, the failing one is the first of the fixed order, which is the error
reported (`firstFailing_of_exec`). -/
theorem extentAndOverlapErrors : Obligations.ExtentAndOverlapErrors := by
  refine ⟨fun i s hinv hx he hk hv hb => ⟨fun ht => ?_, fun ht ho => ?_⟩, rfl, rfl, rfl, rfl,
    fun i s t h => cause_of_code h .addressRange, fun i s t h => cause_of_code h .bufferOverlap,
    fun i s => partialOverlap_iff s i⟩
  · have hfirst : FirstFailing (s.checks i) .addressRange :=
      .inr ⟨hx, .inr ⟨he, .inr ⟨hk, .inr ⟨hv, .inr ⟨hb, .inl ⟨ht, rfl⟩⟩⟩⟩⟩⟩
    exact exec_eq_fatalEnd rfl fun t h => (firstFailing_of_exec hinv h).unique hfirst
  · have hfirst : FirstFailing (s.checks i) .bufferOverlap :=
      .inr ⟨hx, .inr ⟨he, .inr ⟨hk, .inr ⟨hv, .inr ⟨hb, .inr ⟨ht, .inl ⟨ho, rfl⟩⟩⟩⟩⟩⟩⟩
    exact exec_eq_fatalEnd rfl fun t h => (firstFailing_of_exec hinv h).unique hfirst

/-! ### The order of the checks -/

/-- While `FATAL` = 1 a word written to `CMD` is ignored (`60_exceptions.md` R405). -/
theorem issue_of_fatal {s : State} (h : s.status.fatal = true) (w : Word) : issue w s = .next s := if_pos h

/-- Settles O20: the latch, the decoder, and then the first failing check of the command (`firstFailing_of_exec`). -/
theorem firstFailingCheckDecides : Obligations.FirstFailingCheckDecides := by
  refine fun w s hinv => ⟨fun hf => issue_of_fatal hf w, fun hf ⟨r, hr⟩ => issue_of_illegal hf hr, fun i hf hd => ?_⟩
  obtain ⟨t, ht, -⟩ := exec_ends i s
  refine ⟨t, (issue_of_decode hf hd).trans ht, firstFailing_of_exec hinv ht, ?_⟩
  rw [fatal_of_exec ht, hf, Bool.false_or]

/-- Settles O21: an error is a `raise` (`eq_withStatus_of_error`), and the checks that choose it look at
registers and slot kinds only (`SameOperands.code_eq`). -/
theorem errorsChangeOnlyStatus : Obligations.ErrorsChangeOnlyStatus := by
  refine ⟨fun i s t => eq_withStatus_of_error, fun i s s' t t' hinv hinv' hd hdl hs hsl hkinds hbs h h' => ?_⟩
  have hvalid : s.streams.map Option.isSome = s'.streams.map Option.isSome := by
    simpa [Function.comp_def] using congrArg (List.map Option.isSome) hbs
  exact SameOperands.code_eq ⟨hd, hdl, hs, hsl, hkinds, hvalid⟩ hinv hinv' h h'

/-- Settles O8: the decoder refuses the word, and no command raises the error. -/
theorem illegalWordRaisesInvalidOpcode : Obligations.IllegalWordRaisesInvalidOpcode :=
  ⟨fun _ _ _ _ hi hf hd => (step_regWrite (r := .cmd) hi).trans (issue_of_illegal hf hd), rfl, rfl,
    fun _ _ _ => (cause_of_code · .invalidOpcode)⟩

/-! ### The fatal latch -/

/-- `t` has the `STATUS`, the context slots and the `RESULT` of `s`. -/
structure SameEngine (s t : State) : Prop where
  status : t.status = s.status
  ciphers : t.ciphers = s.ciphers
  streams : t.streams = s.streams
  result : t.result = s.result

theorem SameEngine.refl (s : State) : SameEngine s s := ⟨rfl, rfl, rfl, rfl⟩

theorem sameEngine_of_writeReg {r : Reg} {v : Word} {s t : State} (hf : s.status.fatal = true)
    (h : writeReg r v s = .next t) : SameEngine s t := by
  cases r with
  | cmd =>
    rw [writeReg, issue_of_fatal hf] at h
    cases h
    exact .refl s
  | argDst | argDlen | argSrc | argSlen | status | result | cap => cases h; exact ⟨rfl, rfl, rfl, rfl⟩

/-- While `FATAL` = 1 no act of the environment but a reset reaches the engine (`60_exceptions.md` R405). -/
theorem sameEngine_of_hostAccess {a : HostAccess} {s t : State} (hf : s.status.fatal = true) (hr : a ≠ .reset)
    (hrd : ∀ w, a ≠ .resetDuring w) (h : hostAccess a s = .next t) : SameEngine s t := by
  cases a with
  | regWrite offset width value =>
    cases hreg : accessedReg offset width with
    | none => rw [hostAccess_regWrite_undefined hreg] at h; cases h
    | some r => rw [hostAccess_regWrite hreg] at h; exact sameEngine_of_writeReg hf h
  | regRead offset width =>
    cases hreg : accessedReg offset width with
    | none => rw [hostAccess_regRead_undefined hreg] at h; cases h
    | some r => rw [hostAccess_regRead hreg] at h; cases h; exact ⟨rfl, rfl, rfl, rfl⟩
  | memWrite addr value => cases h; exact ⟨rfl, rfl, rfl, rfl⟩
  | memRead addr => cases h; exact ⟨rfl, rfl, rfl, rfl⟩
  | reset => exact absurd rfl hr
  | resetDuring command => exact absurd rfl (hrd command)

/-- Settles O9: a step is idle or one act of the environment, and the latch keeps every act but a reset from the
engine. -/
theorem fatalLatchHoldsUntilReset : Obligations.FatalLatchHoldsUntilReset := by
  refine ⟨fun s w rest hf hi =>
      (step_regWrite (r := .cmd) hi).trans (issue_of_fatal (s := { s with inputs := rest }) hf w),
    fun s t hf h hr hrd => ?_, fun s v rest _ hi => step_regWrite (r := .argSrc) hi,
    fun s rest hi => ⟨_, step_cons hi, rfl⟩⟩
  have hsame : SameEngine s t := by
    rcases step_cases h with ⟨-, rfl⟩ | ⟨a, rest, hi, ha⟩
    · exact .refl t
    · have hrest : SameEngine { s with inputs := rest } t :=
        sameEngine_of_hostAccess hf (fun e => hr rest (e ▸ hi)) (fun w e => hrd w rest (e ▸ hi)) ha
      exact ⟨hrest.status, hrest.ciphers, hrest.streams, hrest.result⟩
  exact ⟨hsame.status, hsame.ciphers, hsame.streams, hsame.result⟩

end Sys2Proof.Machine
end

/-! PROOFS. A reset during a command (`70_reset_and_hazards.md` R443). -/
section

namespace Sys2Proof.Machine

/-- The bytes at stake when a command is cut short are those it touches (`70_reset_and_hazards.md` R443). -/
theorem wordExtent_of_decode {w : Word} {i : Instr} (h : decode w = .ok i) (s : State) :
    wordExtent w s = s.touched i := by
  rw [wordExtent, h]
  cases i <;> rfl

theorem wordExtent_of_illegal {w : Word} {r : Illegal} (h : decode w = .error r) (s : State) :
    wordExtent w s = 0 := by
  rw [wordExtent, h]

/-- Settles O17: the reset state over a memory with some of the command's bytes, whichever they are
(`tornMemory_spec`). -/
theorem resetDuringCommand : Obligations.ResetDuringCommand := by
  intro s w rest hm hi
  obtain ⟨u, hu⟩ := issue_next w { s with inputs := rest }
  have hwf : u.mem.wf := wf_of_issue (s := { s with inputs := rest }) hm hu
  obtain ⟨-, htorn⟩ := tornMemory_spec (Config.tornByte s.freeCount) s.d hm hwf
    (wordExtent w { s with inputs := rest })
  refine ⟨_, u, (step_cons hi).trans (resetDuring_of_issue hu), hu, rfl, rfl, rfl, rfl, rfl, rfl, rfl, rfl,
    fun a => (htorn a).imp_right And.left, fun a hne => ?_⟩
  obtain ⟨-, hlow, hhigh⟩ := (htorn a).resolve_left hne
  cases hd : decode w with
  | ok i =>
    rw [wordExtent_of_decode hd] at hhigh
    exact ⟨i, rfl, hlow, hhigh⟩
  | error r =>
    rw [wordExtent_of_illegal hd] at hhigh
    omega

end Sys2Proof.Machine
end
